-- ==== Sys2Proof/Word.lean ====
section
/-! DEFINITION. The widths of the engine's values (00_scope.md R9 to R13) and the fifteen-entry round-key schedule. -/

namespace Sys2Proof

/-- A byte of a byte string (00 R12). -/
abbrev Byte := BitVec 8

/-- A 128-bit block: byte 0 of the 16-byte string is the most significant byte (00 R13). -/
abbrev Block := BitVec 128

/-- A 4-byte word of the key schedule, byte `a0` most significant (40 R122). -/
abbrev KeyWord := BitVec 32

/-- A host byte address, `ADDR_BITS` = 64 (00 R9). -/
abbrev Addr := BitVec 64

/-- A context handle, `CTX_BITS` = 32; 0 means none held (10 R37). -/
abbrev Handle := BitVec 32

/-- Fifteen 128-bit round keys, as a slot holds them (10 R37). -/
structure Schedule where
  k0 : Block
  k1 : Block
  k2 : Block
  k3 : Block
  k4 : Block
  k5 : Block
  k6 : Block
  k7 : Block
  k8 : Block
  k9 : Block
  k10 : Block
  k11 : Block
  k12 : Block
  k13 : Block
  k14 : Block
  deriving DecidableEq, Repr, Inhabited

end Sys2Proof
end

