-- ==== Sys2Proof/Machine/Bytes.lean ====
section
/-! DEFINITION. Byte strings, blocks, byte orders and schedule access (00_scope.md R12, R13; 40 R132). -/

namespace Sys2Proof.Machine

/-- `zeros(n)` (00 R12). -/
def zeros (n : Nat) : List Byte := List.replicate n 0

/-- `B[i]`; a byte string read past its end reads as the zero the RAM behind it holds (log 16). -/
def byteAt (B : List Byte) (i : Nat) : Byte := B.getD i 0

/-- `B[a .. a+n)` (00 R12). -/
def slice (B : List Byte) (a n : Nat) : List Byte := (B.drop a).take n

/-- The first `n` bytes of a staging region that holds `B` and zeros after it (10 R42, log 16). -/
def region (B : List Byte) (n : Nat) : List Byte := B.take n ++ zeros (n - B.length)

/-- `pad16(B)`: the fewest zero bytes that make the length a multiple of 16 (00 R12). -/
def pad16 (B : List Byte) : List Byte := B ++ zeros ((16 - B.length % 16) % 16)

/-- `blk(B)` of a 16-byte string: byte 0 most significant (00 R13). -/
def blk (B : List Byte) : Block := B.foldl (fun acc b => (acc <<< 8) ||| b.setWidth 128) 0

/-- `bytes128(v)`, the inverse of `blk` (00 R13). -/
def bytes128 (v : Block) : List Byte := (List.range 16).map fun i => v.extractLsb' (8 * (15 - i)) 8

/-- `be32(v)` (00 R13). -/
def be32 (v : BitVec 32) : List Byte :=
  [v.extractLsb' 24 8, v.extractLsb' 16 8, v.extractLsb' 8 8, v.extractLsb' 0 8]

/-- `be64(v)` (00 R13). -/
def be64 (v : BitVec 64) : List Byte :=
  [v.extractLsb' 56 8, v.extractLsb' 48 8, v.extractLsb' 40 8, v.extractLsb' 32 8,
   v.extractLsb' 24 8, v.extractLsb' 16 8, v.extractLsb' 8 8, v.extractLsb' 0 8]

/-- The four bytes of `v`, least significant first (00 R13). -/
def toLe32 (v : BitVec 32) : List Byte :=
  [v.extractLsb' 0 8, v.extractLsb' 8 8, v.extractLsb' 16 8, v.extractLsb' 24 8]

/-- The eight bytes of `v`, least significant first (00 R13). -/
def toLe64 (v : BitVec 64) : List Byte :=
  [v.extractLsb' 0 8, v.extractLsb' 8 8, v.extractLsb' 16 8, v.extractLsb' 24 8,
   v.extractLsb' 32 8, v.extractLsb' 40 8, v.extractLsb' 48 8, v.extractLsb' 56 8]

/-- `le32` of the four bytes of `B` from index `i` (00 R13). -/
def le32At (B : List Byte) (i : Nat) : BitVec 32 :=
  byteAt B (i + 3) ++ byteAt B (i + 2) ++ byteAt B (i + 1) ++ byteAt B i

/-- The be32 value of the four bytes of `B` from index `i` (10 R37, the nonce). -/
def be32At (B : List Byte) (i : Nat) : BitVec 32 :=
  byteAt B i ++ byteAt B (i + 1) ++ byteAt B (i + 2) ++ byteAt B (i + 3)

/-- `le64` of the eight bytes of `B` from index `i` (00 R13). -/
def le64At (B : List Byte) (i : Nat) : BitVec 64 :=
  le32At B (i + 4) ++ le32At B i

/-- Bytewise exclusive-or; the shorter string decides the length (43 R198: the keystream block is truncated). -/
def xorBytes (A B : List Byte) : List Byte := List.zipWith (· ^^^ ·) A B

/-- The first fifteen entries of a list of round keys, zero where the list ends (40 R132). -/
def scheduleOf (l : List Block) : Schedule :=
  { k0 := l.getD 0 0, k1 := l.getD 1 0, k2 := l.getD 2 0, k3 := l.getD 3 0, k4 := l.getD 4 0,
    k5 := l.getD 5 0, k6 := l.getD 6 0, k7 := l.getD 7 0, k8 := l.getD 8 0, k9 := l.getD 9 0,
    k10 := l.getD 10 0, k11 := l.getD 11 0, k12 := l.getD 12 0, k13 := l.getD 13 0, k14 := l.getD 14 0 }

/-- Round key `r` of a schedule (10 R37); there is no entry above 14. -/
def roundKey (k : Schedule) (r : Nat) : Block :=
  [k.k0, k.k1, k.k2, k.k3, k.k4, k.k5, k.k6, k.k7, k.k8, k.k9, k.k10, k.k11, k.k12, k.k13, k.k14].getD r 0

/-- All fifteen entries zero. -/
def zeroSchedule : Schedule := scheduleOf []

end Sys2Proof.Machine
end

