-- ==== Sys2Proof/Syntax.lean ====
section
/-! DEFINITION. The instructions (spec/opcode_table.json, one constructor per row), the two operand formats K and D,
and the named codes of the spec. -/

namespace Sys2Proof

/-- Algorithm codes of chain entries (30 R90). -/
inductive AlgCode where
  | cbc
  | xts
  | gcm
  | gmac
  deriving DecidableEq, Repr

/-- Algorithm tag of a session slot (10 R37, R39). -/
inductive Tag where
  | none
  | cbc
  | xts
  | gcm
  deriving DecidableEq, Repr

/-- Completion statuses (60 R340). Codes 5, 6 and 7 are never posted, so they have no constructor (93 U12). -/
inductive Status where
  | success
  | invalidArgument
  | resourceExhausted
  | resourceUnavailable
  | authenticationFailure
  deriving DecidableEq, Repr

/-- The controller's states (10 R24). -/
inductive Phase where
  | idle
  | validate
  | stage
  | deriveIv
  | execute
  | writeback
  | release
  | session
  deriving DecidableEq, Repr

/-- The instructions. The three host commands come as a command word on `REG.CMD` (30 R86); the others are
micro-operation codes on the controller's internal bus (30 R105), which carry no operands: a micro-operation's
operands are the registers and latches its rule names. -/
inductive Instr where
  /-- 0x01, `n` = number of 32-byte format-K entries (45 R250). -/
  | newsession (n : Nat)
  /-- 0x02; `N` is ignored (30 R89, 45 R256). -/
  | freesession
  /-- 0x03, `n` = number of 64-byte format-D entries (47 R300). -/
  | process (n : Nat)
  /-- 0x10, key expansion (40 R125). -/
  | keyexp
  /-- 0x11, decryption schedule (40 R128). -/
  | deckey
  /-- 0x20, one AES round (41 R150). -/
  | aesenc
  /-- 0x21, the last AES round (41 R151). -/
  | aesenclast
  /-- 0x22, one block encryption (41 R154). -/
  | aesblk
  /-- 0x23, four block encryptions (41 R158). -/
  | aesblk4
  /-- 0x30, 128-bit bit reversal (42 R166). -/
  | reflect
  /-- 0x31, carry-less product (42 R169). -/
  | clmul
  /-- 0x32, reduction (42 R170). -/
  | gfred
  /-- 0x33, field product of reflected operands (42 R172). -/
  | gfmul
  /-- 0x34, one GHASH step (42 R176). -/
  | ghfold
  /-- 0x35, fold a byte string (42 R178). -/
  | ghbytes
  /-- 0x36, fold the length block (42 R181). -/
  | ghlen
  /-- 0x40, counter increment (43 R190). -/
  | inc32
  /-- 0x41, initial counter block (43 R193). -/
  | y0gen
  /-- 0x42, keystream and XOR (43 R198). -/
  | ctrxor
  /-- 0x50, compute the tag (46 R282). -/
  | taggen
  /-- 0x51, verify the tag (46 R284). -/
  | tagvfy
  /-- 0x60, session lookup (45 R236). -/
  | slookup
  /-- 0x61, slot choice (45 R240). -/
  | salloc
  /-- 0x62, table growth (45 R244). -/
  | sgrow
  /-- 0x63, clear a slot (45 R255). -/
  | sclear
  /-- 0x64, fetch and increment the session counter (45 R262). -/
  | ctrfai
  /-- 0x70, phase STAGE (44 R212). -/
  | stagein
  /-- 0x71, phase DERIVE_IV (44 R218). -/
  | ivderive
  /-- 0x72, phase WRITEBACK (47 R325). -/
  | wrback
  /-- 0x73, scrub the call-scoped state (47 R330). -/
  | scrub
  deriving DecidableEq, Repr

/-- Format K, an algorithm-chain entry of `NEWSESSION` (30 R93); `nonce` is the be32 value of its four bytes. -/
structure KEntry where
  alg : BitVec 32
  klen : BitVec 32
  keyPtr : Addr
  nonce : BitVec 32
  deriving DecidableEq, Repr

/-- Format D, an operation sub-descriptor of `PROCESS` (30 R98); `iv` is the block of its sixteen bytes. -/
structure DEntry where
  alg : BitVec 32
  flags : BitVec 32
  offset : BitVec 32
  length : BitVec 32
  inject : BitVec 32
  ivlen : BitVec 32
  iv : Block
  deriving DecidableEq, Repr

/-- The two formats an instruction can have (30 R85): the command word and the micro-operation code. -/
inductive Format where
  | c
  | u
  deriving DecidableEq, Repr

/-- An instruction as fetched: its format and its bytes, the lowest address first. -/
structure Fetched where
  format : Format
  bytes : List Byte
  deriving DecidableEq, Repr

end Sys2Proof
end

