-- ==== Sys2Proof/Decode.lean ====
section
/-! DEFINITION. Decoding and encoding: the command word, the micro-operation codes, and the entries of formats K and D
(30_encoding.md R85 to R106). -/

namespace Sys2Proof

open Sys2Proof.Machine

/-- Why bytes are no instruction. -/
inductive DecodeError where
  /-- An `OPC` other than 0x01, 0x02, 0x03 (30 R87, R112). -/
  | illegalOpcode (opc : Byte)
  /-- A micro-operation code outside the table (30 R106). -/
  | unknownMicroOp (code : Byte)
  /-- Not four bytes of format C, or not one byte of format U (30 R85: every format has a fixed length). -/
  | wrongLength (n : Nat)
  deriving DecidableEq, Repr

/-- The command word (30 R86, R87): `OPC = w[7:0]`, `N = w[15:8]`, `w[31:16]` ignored. -/
def decodeCommand (w : BitVec 32) : Except DecodeError Instr :=
  let opc : Byte := w.extractLsb' 0 8
  let n : Nat := (w.extractLsb' 8 8).toNat
  if opc = 0x01 then .ok (.newsession n)
  else if opc = 0x02 then .ok .freesession
  else if opc = 0x03 then .ok (.process n)
  else .error (.illegalOpcode opc)

/-- The table of micro-operation codes (30 R105). -/
def microTable : List (Byte × Instr) :=
  [ (0x10, .keyexp), (0x11, .deckey),
    (0x20, .aesenc), (0x21, .aesenclast), (0x22, .aesblk), (0x23, .aesblk4),
    (0x30, .reflect), (0x31, .clmul), (0x32, .gfred), (0x33, .gfmul), (0x34, .ghfold), (0x35, .ghbytes),
    (0x36, .ghlen),
    (0x40, .inc32), (0x41, .y0gen), (0x42, .ctrxor),
    (0x50, .taggen), (0x51, .tagvfy),
    (0x60, .slookup), (0x61, .salloc), (0x62, .sgrow), (0x63, .sclear), (0x64, .ctrfai),
    (0x70, .stagein), (0x71, .ivderive), (0x72, .wrback), (0x73, .scrub) ]

/-- The first row of a table with the code given. -/
def lookupCode : List (Byte × Instr) → Byte → Option Instr
  | [], _ => none
  | (k, i) :: rest, c => if c = k then some i else lookupCode rest c

/-- A code on the controller's internal bus (30 R105, R106). -/
def decodeMicro (c : Byte) : Except DecodeError Instr :=
  match lookupCode microTable c with
  | some i => .ok i
  | none => .error (.unknownMicroOp c)

/-- An instruction's bytes, lowest address first; the command word is little-endian (20 R67, 30 R119). -/
def decode (f : Fetched) : Except DecodeError Instr :=
  match f.format with
  | .c => if f.bytes.length = 4 then decodeCommand (le32At f.bytes 0) else .error (.wrongLength f.bytes.length)
  | .u => if f.bytes.length = 1 then decodeMicro (byteAt f.bytes 0) else .error (.wrongLength f.bytes.length)

/-- A command word with its ignored bits zero, as software writes it (30 R86). -/
def commandWord (opc : Byte) (n : Nat) : BitVec 32 := (0 : BitVec 16) ++ BitVec.ofNat 8 n ++ opc

/-- The bytes of an instruction (30 R86, R87, R105). -/
def encode : Instr → Fetched
  | .newsession n => { format := .c, bytes := toLe32 (commandWord 0x01 n) }
  | .freesession => { format := .c, bytes := toLe32 (commandWord 0x02 0) }
  | .process n => { format := .c, bytes := toLe32 (commandWord 0x03 n) }
  | .keyexp => { format := .u, bytes := [0x10] }
  | .deckey => { format := .u, bytes := [0x11] }
  | .aesenc => { format := .u, bytes := [0x20] }
  | .aesenclast => { format := .u, bytes := [0x21] }
  | .aesblk => { format := .u, bytes := [0x22] }
  | .aesblk4 => { format := .u, bytes := [0x23] }
  | .reflect => { format := .u, bytes := [0x30] }
  | .clmul => { format := .u, bytes := [0x31] }
  | .gfred => { format := .u, bytes := [0x32] }
  | .gfmul => { format := .u, bytes := [0x33] }
  | .ghfold => { format := .u, bytes := [0x34] }
  | .ghbytes => { format := .u, bytes := [0x35] }
  | .ghlen => { format := .u, bytes := [0x36] }
  | .inc32 => { format := .u, bytes := [0x40] }
  | .y0gen => { format := .u, bytes := [0x41] }
  | .ctrxor => { format := .u, bytes := [0x42] }
  | .taggen => { format := .u, bytes := [0x50] }
  | .tagvfy => { format := .u, bytes := [0x51] }
  | .slookup => { format := .u, bytes := [0x60] }
  | .salloc => { format := .u, bytes := [0x61] }
  | .sgrow => { format := .u, bytes := [0x62] }
  | .sclear => { format := .u, bytes := [0x63] }
  | .ctrfai => { format := .u, bytes := [0x64] }
  | .stagein => { format := .u, bytes := [0x70] }
  | .ivderive => { format := .u, bytes := [0x71] }
  | .wrback => { format := .u, bytes := [0x72] }
  | .scrub => { format := .u, bytes := [0x73] }

/-- A table word as fetched: a low byte 0x01, 0x02 or 0x03 names a row of format C, whose word is four bytes,
little-endian; any other word below 2^8 is a code of format U (log 21). -/
def tableFetched (nbits w : Nat) : Fetched :=
  let v := w % 2 ^ nbits
  if v % 256 = 1 ∨ v % 256 = 2 ∨ v % 256 = 3 then { format := .c, bytes := toLe32 (BitVec.ofNat 32 v) }
  else { format := .u, bytes := if v < 256 then [BitVec.ofNat 8 v] else [BitVec.ofNat 8 v, 0] }

/-- The instruction the decoder reads from a table word of `nbits` bits (the bits above are 0). -/
def decodeTableWord (nbits w : Nat) : Option Instr :=
  match decode (tableFetched nbits w) with
  | .ok i => some i
  | .error _ => none

/-- The algorithm a code names (30 R90). -/
def algOfCode (a : BitVec 32) : Option AlgCode :=
  if a = 1 then some .cbc
  else if a = 2 then some .xts
  else if a = 3 then some .gcm
  else if a = 4 then some .gmac
  else none

/-- The session tag of an encryption algorithm code; GMAC and unrecognised codes have none (10 R39). -/
def tagOfCode (a : BitVec 32) : Option Tag :=
  match algOfCode a with
  | some .cbc => some .cbc
  | some .xts => some .xts
  | some .gcm => some .gcm
  | some .gmac | none => none

/-- `alg` in {1, 2, 3, 4} (30 R90). -/
def isRecognised (a : BitVec 32) : Bool := (algOfCode a).isSome

/-- `alg` in {1, 2, 3}: an encryption algorithm (30 R90, R102). -/
def isEncAlg (a : BitVec 32) : Bool := (tagOfCode a).isSome

/-- `alg = 4`: the authentication algorithm (30 R90, R102). -/
def isAuthAlg (a : BitVec 32) : Bool := decide (algOfCode a = some .gmac)

/-- A format-K entry from its bytes (30 R93); bytes 20 to 31 are ignored. -/
def decodeK (B : List Byte) : KEntry :=
  { alg := le32At B 0, klen := le32At B 4, keyPtr := le64At B 8, nonce := be32At B 16 }

/-- The 32 bytes of a format-K entry, ignored bytes zero (30 R93). -/
def encodeK (e : KEntry) : List Byte :=
  toLe32 e.alg ++ toLe32 e.klen ++ toLe64 e.keyPtr ++ be32 e.nonce ++ zeros 12

/-- A format-D entry from its bytes (30 R98); bytes 24 to 31 and 48 to 63 are ignored. -/
def decodeD (B : List Byte) : DEntry :=
  { alg := le32At B 0, flags := le32At B 4, offset := le32At B 8, length := le32At B 12,
    inject := le32At B 16, ivlen := le32At B 20, iv := blk (slice B 32 16) }

/-- The 64 bytes of a format-D entry, ignored bytes zero (30 R98). -/
def encodeD (e : DEntry) : List Byte :=
  toLe32 e.alg ++ toLe32 e.flags ++ toLe32 e.offset ++ toLe32 e.length ++ toLe32 e.inject
    ++ toLe32 e.ivlen ++ zeros 8 ++ bytes128 e.iv ++ zeros 16

end Sys2Proof
end

