-- ==== Sys2Proof/Config.lean ====
section
/-! DEFINITION. What an implementation fixes (00_scope.md R9) and the values the spec leaves free. -/

namespace Sys2Proof

/-- The implementation parameters of 00 R9 that are open, and the ranges of host memory on which the
platform fails an access (20 R64, 93 U7), each as base and size (log 4 and log 7). -/
structure Config where
  initCap : Nat
  maxCap : Nat
  stageCap : Nat
  engineBase : Nat
  failing : List (Nat × Nat)
  deriving DecidableEq, Repr

/-- The defaults of 00 R9. `ENGINE_BASE` is left to the platform: 2^63 is a DESIGN CHOICE (log 4). -/
def Config.default : Config :=
  { initCap := 1, maxCap := 1024, stageCap := 4294967295, engineBase := 9223372036854775808,
    failing := [] }

/-- FREE VALUE (60 R362, 93 U14): the context provider's n-th answer when none is scripted; 0 stands for
`deny`, any other word `h` for `grant(h)` (log 8). -/
opaque Config.leaseAnswer : Nat → Handle

/-- FREE VALUE (41 R155): `AESBLK` for a round count other than 10, 12, 14 (log 9). -/
opaque Config.aesUnstated : Schedule → BitVec 4 → Block → Block

/-- FREE VALUE (40 R120): the word array of `KEYEXP` for a key that is not 16, 24 or 32 bytes (log 10). -/
opaque Config.keyWordsUnstated : List Byte → List KeyWord

/-- FREE VALUE (40 R120): the schedule of `KEYEXP` for a key that is not 16, 24 or 32 bytes (log 10). -/
opaque Config.scheduleUnstated : List Byte → Schedule

/-- FREE VALUE (40 R120): the round count of `KEYEXP` for a key that is not 16, 24 or 32 bytes (log 10). -/
opaque Config.roundsUnstated : List Byte → BitVec 4

/-- FREE VALUE (40 R128): `DECKEY` for a round count other than 10, 12, 14 (log 11). -/
opaque Config.decKeyUnstated : Schedule → BitVec 4 → Schedule

/-- FREE VALUE (43 R196 (a), 47 R310): `Y0GEN` on the empty IV, for the hash subkey given (log 12). -/
opaque Config.y0Empty : Block → Block

/-- FREE VALUE (44 R218): byte `k` of an explicit IV longer than the 16-byte `iv` field (log 13). -/
opaque Config.ivByteBeyond : Block → Nat → Byte

end Sys2Proof
end

