-- ==== Sys2Proof/Machine/State.lean ====
section
/-! DEFINITION. The whole state of the engine and of what it shares with its host (10_state.md R20 to R47), plain data,
and the state after reset. -/

namespace Sys2Proof.Machine

/-- The hardware has no stop of its own: every error the spec names is a completion status (60 R340, R346), so no
constructor exists. -/
inductive Fault where
  deriving DecidableEq, Repr

/-- The situations to which the spec gives no behaviour (60 R353) and the codes a model has no arm for. -/
inductive Refusal where
  /-- An instruction without a meaning yet; raised by no arm. Safe: the machine stops. -/
  | notModelled (mnemonic : String)
  /-- A PROCESS on a CBC or XTS session that passes validation (47 R316, 93 U1). Raised by `validate`. Safe. -/
  | cbcXtsDataPath
  /-- The session counter stands at 2^64 - 1 (45 R263, 93 U3). Raised by `ctrFai`. Safe. -/
  | counterExhausted
  /-- A host-memory access with `addr + n > 2^64` (20 R62, R63, 93 U6). Raised by `memRead`, `memWrite`. Safe. -/
  | addressPastEnd
  /-- A host-memory access the platform fails (20 R64, 93 U7). Raised by `memRead`, `memWrite`. Safe. -/
  | hostAccessFailed
  /-- A register-block access that is not a naturally aligned 32- or 64-bit access inside it (10 R35, 93 U4).
  Raised by `hostStore`, `hostLoad`. Safe. -/
  | malformedRegisterAccess
  /-- A host access between the write of CMD and the read of DONE = 1 to memory the command owns (20 R73, 70 R392, 93
  U9). Raised by `hostStore`, `hostLoad`. Safe. -/
  | ownedByEngine
  /-- A code on the internal bus outside the table (30 R106, 93 U13). Raised by `stepMicro`. Safe. -/
  | unknownMicroOp
  deriving DecidableEq, Repr

/-- The working registers `W` (10 R21). -/
structure Work where
  h : Block
  x : Block
  t : Block
  y0 : Block
  y : Block
  ks0 : Block
  ks1 : Block
  ks2 : Block
  ks3 : Block
  tag : Block
  tagin : Block
  deriving DecidableEq, Repr

/-- The host-visible registers `REG` that hold a value (10 R27 to R34). `CMD` stores nothing. -/
structure Regs where
  busy : Bool
  done : Bool
  code : Status
  sid : BitVec 32
  descPtr : Addr
  bufPtr : Addr
  bufLen : BitVec 32
  ie : Bool
  deriving DecidableEq, Repr

/-- One session slot (10 R37). -/
structure Slot where
  id : BitVec 32
  used : Bool
  tag : Tag
  rounds : BitVec 4
  ek : Schedule
  dk : Schedule
  xk : Schedule
  nonce : BitVec 32
  counter : BitVec 64
  ctx : Handle
  deriving DecidableEq, Repr

/-- The staging memory `S` (10 R42). -/
structure Staging where
  d : List Byte
  dlen : BitVec 32
  a : List Byte
  alen : BitVec 32
  o : List Byte
  iv : List Byte
  ivlen : BitVec 32
  deriving DecidableEq, Repr

/-- The chain latch `L` (10 R43); an entry the list does not reach is zero (log 17). -/
structure ChainLatch where
  n : BitVec 8
  entries : List (List Byte)
  enc : BitVec 8
  auth : BitVec 8
  deriving DecidableEq, Repr

/-- The temporaries of key setup: the key bytes and the word array (40 R133, 45 R250), and the model's own result
latches of KEYEXP and DECKEY (log 3). -/
structure KeyLatch where
  key : List Byte
  w : List KeyWord
  rk : Schedule
  nr : BitVec 4
  dk : Schedule
  deriving DecidableEq, Repr

/-- The model's own operand and result latches of the micro-operations to whose operands the rules give no register
(30 R105, log 3): blocks `a` to `d`, the product `p`, the result `r`, the byte string `str`, the byte counts `alen`
and `clen`, the fetched counter `cnt`, the slot index `j`. -/
structure Ports where
  a : Block
  b : Block
  c : Block
  d : Block
  p : BitVec 255
  r : Block
  str : List Byte
  alen : BitVec 32
  clen : BitVec 32
  cnt : BitVec 64
  j : BitVec 32
  deriving DecidableEq, Repr

/-- What the host does next (00 R8, 10 R35, 60 R367): a store or a load at a host address, or an assertion of
reset. -/
inductive Input where
  | store (addr : Addr) (data : List Byte)
  | load (addr : Addr) (size : Nat)
  | reset
  deriving DecidableEq, Repr

/-- A region of host memory that belongs to the engine (20 R73, 70 R392): `size` bytes from `base`, of the buffer or
(`buffer = false`) of the chain or the key (log 30). -/
structure Region where
  base : Nat
  size : Nat
  buffer : Bool
  deriving DecidableEq, Repr

def Work.zero : Work :=
  { h := 0, x := 0, t := 0, y0 := 0, y := 0, ks0 := 0, ks1 := 0, ks2 := 0, ks3 := 0, tag := 0, tagin := 0 }

def Regs.zero : Regs :=
  { busy := false, done := false, code := .success, sid := 0, descPtr := 0, bufPtr := 0, bufLen := 0, ie := false }

def Slot.zero : Slot :=
  { id := 0, used := false, tag := .none, rounds := 0, ek := zeroSchedule, dk := zeroSchedule,
    xk := zeroSchedule, nonce := 0, counter := 0, ctx := 0 }

def Staging.zero : Staging := { d := [], dlen := 0, a := [], alen := 0, o := [], iv := [], ivlen := 0 }

def ChainLatch.zero : ChainLatch := { n := 0, entries := [], enc := 0, auth := 0 }

def KeyLatch.zero : KeyLatch := { key := [], w := [], rk := zeroSchedule, nr := 0, dk := zeroSchedule }

def Ports.zero : Ports :=
  { a := 0, b := 0, c := 0, d := 0, p := 0, r := 0, str := [], alen := 0, clen := 0, cnt := 0, j := 0 }

/-- What a byte of host memory that is not listed reads as (log 5). -/
def unlistedByte : Byte := 0

/-- The state of the engine (10 R20), the host memory it shares (10 R44), and the model's own fields: the code on the
internal bus (log 2), the inputs waiting (log 1), the last bytes a host load returned (log 22), the host memory the
engine owns (log 30), the context provider's scripted answers and the number of free ones drawn (log 8), and the
parameters (log 4). The slot array and host memory
are lists of (index, content) in one canonical form: indices strictly rising, no entry equal to what an unlisted index
holds. -/
structure State where
  work : Work
  phase : Phase
  authOk : Bool
  ctxActive : Bool
  regs : Regs
  cap : BitVec 32
  slots : List (Nat × Slot)
  stage : Staging
  chain : ChainLatch
  keys : KeyLatch
  ports : Ports
  bus : Option Byte
  inputs : List Input
  rdata : List Byte
  owned : List Region
  provider : List Handle
  draws : Nat
  cfg : Config
  mem : List Host.Cell
  deriving DecidableEq, Repr

/-- The state after reset under the parameters `c` (10 R47), with nothing placed. -/
def State.resetWith (c : Config) : State :=
  { work := .zero, phase := .idle, authOk := false, ctxActive := false, regs := .zero,
    cap := BitVec.ofNat 32 c.initCap, slots := [], stage := .zero, chain := .zero, keys := .zero,
    ports := .zero, bus := none, inputs := [], rdata := [], owned := [], provider := [], draws := 0, cfg := c,
    mem := [] }

/-- The state after reset with the default parameters (10 R47, 00 R9). -/
def State.reset : State := State.resetWith Config.default

end Sys2Proof.Machine
end

