-- ==== Sys2Proof/Machine/Cells.lean ====
section
/-! DEFINITION. Sparse arrays in canonical form, used for host memory (20_memory.md R60) and for the session RAM
(10_state.md R36). -/

namespace Sys2Proof.Machine

/-- The content at index `a`: `d` where the list has no entry. -/
def cellRead {α : Type} (d : α) : List (Nat × α) → Nat → α
  | [], _ => d
  | (k, x) :: rest, a => if a = k then x else cellRead d rest a

/-- Put `v` at index `a`, keeping the canonical form (writing `d` removes the entry). -/
def cellWrite {α : Type} [DecidableEq α] (d : α) : List (Nat × α) → Nat → α → List (Nat × α)
  | [], a, v => if v = d then [] else [(a, v)]
  | (k, x) :: rest, a, v =>
    if a < k then (if v = d then (k, x) :: rest else (a, v) :: (k, x) :: rest)
    else if a = k then (if v = d then rest else (a, v) :: rest)
    else (k, x) :: cellWrite d rest a v

/-- The canonical form: indices at least `lo`, below `hi` and strictly rising, no entry equal to `d`. -/
def cellsWf {α : Type} [DecidableEq α] (d : α) (hi : Nat) : Nat → List (Nat × α) → Bool
  | _, [] => true
  | lo, (k, x) :: rest => decide (lo ≤ k) && decide (k < hi) && decide (x ≠ d) && cellsWf d hi (k + 1) rest

/-- One byte of host memory. -/
def byteOf (m : List Host.Cell) (a : Nat) : Byte := cellRead unlistedByte m a

/-- `n` bytes from address `a` upward, lowest address first (20 R62). -/
def readBytes (m : List Host.Cell) (a n : Nat) : List Byte := (List.range n).map fun i => byteOf m (a + i)

/-- The bytes of `B` stored from address `a` upward (20 R63). -/
def writeBytes : List Host.Cell → Nat → List Byte → List Host.Cell
  | m, _, [] => m
  | m, a, b :: rest => writeBytes (cellWrite unlistedByte m a b) (a + 1) rest

/-- The canonical form of host memory over the 64-bit address space (20 R60). -/
def Memory.wf (m : List Host.Cell) : Bool := cellsWf unlistedByte (2 ^ 64) 0 m

/-- Slot `j` of the session RAM; a slot not listed is all zero (10 R36). -/
def slotOf (sl : List (Nat × Slot)) (j : Nat) : Slot := cellRead Slot.zero sl j

end Sys2Proof.Machine
end

