-- ==== Sys2Proof/Machine/Flags.lean ====
section
/-! DEFINITION. Every flag and status computation: completion and acknowledgement (60_exceptions.md R346, R349), the
STATUS and CTRL words (10_state.md R29, R34), the interrupt line (60 R350), the numeric codes. -/

namespace Sys2Proof.Machine

/-- The 3-bit code of a status (60 R340). -/
def statusCode : Status → BitVec 3
  | .success => 0
  | .invalidArgument => 1
  | .resourceExhausted => 2
  | .resourceUnavailable => 3
  | .authenticationFailure => 4

/-- The 3-bit value of a phase (10 R24). -/
def phaseCode : Phase → BitVec 3
  | .idle => 0
  | .validate => 1
  | .stage => 2
  | .deriveIv => 3
  | .execute => 4
  | .writeback => 5
  | .release => 6
  | .session => 7

/-- The 2-bit value of a session tag (10 R37). -/
def tagCode : Tag → BitVec 2
  | .none => 0
  | .cbc => 1
  | .xts => 2
  | .gcm => 3

/-- `complete(S)`: CODE <- S, BUSY <- 0, DONE <- 1 (60 R346). -/
def complete (e : Status) (s : State) : State :=
  { s with regs := { s.regs with code := e, busy := false, done := true } }

/-- BUSY <- 1, by an accepted write of CMD (30 R88). -/
def setBusy (s : State) : State := { s with regs := { s.regs with busy := true } }

/-- The acknowledgement: DONE <- 0, CODE keeps its value (60 R349). -/
def acknowledge (s : State) : State := { s with regs := { s.regs with done := false } }

/-- A host write of STATUS: bit 1 is write-1-to-clear, every other bit is ignored (10 R29). -/
def writeStatus (v : BitVec 32) (s : State) : State := if v.getLsbD 1 then acknowledge s else s

/-- The word STATUS reads as (10 R29). -/
def statusWord (r : Regs) : BitVec 32 :=
  (0 : BitVec 25) ++ statusCode r.code ++ (0 : BitVec 2) ++ BitVec.ofBool r.done ++ BitVec.ofBool r.busy

/-- The word CTRL reads as (10 R34). -/
def ctrlWord (r : Regs) : BitVec 32 := (0 : BitVec 31) ++ BitVec.ofBool r.ie

/-- The interrupt output, level-sensitive (60 R350). -/
def irq (s : State) : Bool := s.regs.ie && s.regs.done

/-- `auth_ok <- v` (10 R26 (d)). -/
def setAuthOk (v : Bool) (s : State) : State := { s with authOk := v }

/-- `ctx_active <- v` (10 R26 (e), 60 R364). -/
def setCtxActive (v : Bool) (s : State) : State := { s with ctxActive := v }

end Sys2Proof.Machine
end

