-- ==== Sys2Proof/Machine/Ops.lean ====
section
/-! DEFINITION. The named operations every meaning is built from: results of an action, host memory access, slot access,
the context provider's answer, the chain fetch, raising a status (the engine's exception) and leaving a command. -/

namespace Sys2Proof.Machine

/-- What an action of the controller can do: go on, `raise E` from a state (00 R14), or reach a situation without a
meaning (60 R353). -/
inductive Act (α : Type) where
  | ok (a : α)
  | raise (e : Status) (s : State)
  | refuse (r : Refusal)

/-- Nothing after a `raise` or a refusal runs (00 R14). -/
def Act.bind {α β : Type} (x : Act α) (f : α → Act β) : Act β :=
  match x with
  | .ok a => f a
  | .raise e s => .raise e s
  | .refuse r => .refuse r

/-- `phase <- p` (10 R24). -/
def setPhase (p : Phase) (s : State) : State := { s with phase := p }

/-- `REG.SID <- v` by the engine (10 R30). -/
def setSid (v : BitVec 32) (s : State) : State := { s with regs := { s.regs with sid := v } }

/-! ### Host memory -/

/-- Whether the platform fails an access of `n` bytes at `a` (20 R64, log 7). -/
def accessFails (c : Config) (a n : Nat) : Bool :=
  c.failing.any fun r => decide (a < r.1 + r.2) && decide (r.1 < a + n)

/-- `MemRead(addr, n)` (20 R62); with `n = 0` no access is made (log 15). -/
def memRead (s : State) (addr n : Nat) : Act (List Byte) :=
  if n = 0 then .ok []
  else if addr + n > 2 ^ 64 then .refuse .addressPastEnd
  else if accessFails s.cfg addr n then .refuse .hostAccessFailed
  else .ok (readBytes s.mem addr n)

/-- `MemWrite(addr, len(B), B)` (20 R63); with an empty `B` no access is made (log 15). -/
def memWrite (s : State) (addr : Nat) (B : List Byte) : Act State :=
  if B.length = 0 then .ok s
  else if addr + B.length > 2 ^ 64 then .refuse .addressPastEnd
  else if accessFails s.cfg addr B.length then .refuse .hostAccessFailed
  else .ok { s with mem := writeBytes s.mem addr B }

/-- `Buf(off, n)` (00 R14): the address is formed on unbounded integers (30 R103). -/
def bufRead (s : State) (off n : Nat) : Act (List Byte) := memRead s (s.regs.bufPtr.toNat + off) n

/-- `BufWrite(off, len(B), B)` (00 R14). -/
def bufWrite (s : State) (off : Nat) (B : List Byte) : Act State := memWrite s (s.regs.bufPtr.toNat + off) B

/-! ### Session slots -/

/-- `slot[j]`. -/
def getSlot (s : State) (j : BitVec 32) : Slot := slotOf s.slots j.toNat

/-- `slot[j] <- v`. -/
def putSlot (j : BitVec 32) (v : Slot) (s : State) : State :=
  { s with slots := cellWrite Slot.zero s.slots j.toNat v }

/-- Id `sid` is in range: `1 <= sid < cap` (45 R237). -/
def inRange (s : State) (sid : BitVec 32) : Bool := decide (1 ≤ sid.toNat) && decide (sid.toNat < s.cap.toNat)

/-- `SCLEAR(j)`: every field of the slot but `id` and `ctx` becomes zero (45 R255). -/
def sclear (j : BitVec 32) (s : State) : State :=
  putSlot j { Slot.zero with id := (getSlot s j).id, ctx := (getSlot s j).ctx } s

/-! ### The context provider (60 R362) -/

/-- The provider's answer to the next request: the first scripted one, or a free value; 0 is `deny` (log 8). -/
def leaseAnswer (s : State) : Handle :=
  match s.provider with
  | h :: _ => h
  | [] => Config.leaseAnswer s.draws

/-- The state after one request: the scripted answer is used up, or the free draw is counted. -/
def afterLease (s : State) : State :=
  match s.provider with
  | _ :: rest => { s with provider := rest }
  | [] => { s with draws := s.draws + 1 }

/-! ### The chain -/

/-- The `n` entries of `E` bytes that stand in memory from `DESC_PTR` on (20 R78). -/
def chainAt (s : State) (E n : Nat) : List (List Byte) :=
  (List.range n).map fun i => readBytes s.mem (s.regs.descPtr.toNat + E * i) E

/-- Entries `i` to `i + k - 1` of the chain, entry size `E`, read in order (20 R78). -/
def fetchEntries (s : State) (E : Nat) : Nat → Nat → Act (List (List Byte))
  | 0, _ => .ok []
  | k + 1, i =>
    (memRead s (s.regs.descPtr.toNat + E * i) E).bind fun e =>
    (fetchEntries s E k (i + 1)).bind fun rest => .ok (e :: rest)

/-- The chain fetch: `L.n <- N`, `L.entry[0..N-1]` from host memory (20 R78). -/
def fetchChain (E n : Nat) (s : State) : Act State :=
  (fetchEntries s E n 0).bind fun es =>
  .ok { s with chain := { s.chain with n := BitVec.ofNat 8 n, entries := es } }

/-! ### Leaving a command: release actions, raising a status -/

/-- The three host commands, for their release actions. -/
inductive Command where
  | newSession
  | freeSession
  | process
  deriving DecidableEq, Repr

/-- `SCRUB`: the call-scoped state takes its reset value (47 R330). -/
def scrub (s : State) : State :=
  { s with ctxActive := false, stage := .zero, work := .zero, authOk := false, chain := .zero }

/-- The release actions of a command and the return to IDLE (45 R250, R256; 47 R330, R331). -/
def release (c : Command) (s : State) : State :=
  match c with
  | .newSession => { s with ctxActive := false, keys := .zero, chain := .zero, phase := .idle }
  | .freeSession => setPhase .idle s
  | .process => setPhase .idle (scrub s)

/-- The normal end of a command: release actions, then `complete(Success)`. -/
def endCommand (c : Command) (s : State) : State := complete .success (release c s)

/-- TAKING AN EXCEPTION. `raise E` in command `c`: the rest of the normal path is abandoned, the release actions run,
and the command completes with status `E` (00 R14, 60 R340); a failed NEWSESSION also writes 0 to SID (45 R250). The
engine saves nothing else (60 R345); its counterpart of a return is `acknowledge` (60 R349). -/
def takeError (c : Command) (e : Status) (s : State) : State :=
  match c with
  | .newSession => complete e (release c (setSid 0 s))
  | .freeSession => complete e (release c s)
  | .process => complete e (release c s)

/-- The outcome of a whole command. -/
def finish (c : Command) (a : Act State) : Host.Outcome State Fault Refusal :=
  match a with
  | .ok s => .next (endCommand c s)
  | .raise e s => .next (takeError c e s)
  | .refuse r => .refused r

/-- The outcome of one micro-operation issued for command `c`. A raise posts its status whatever BUSY and DONE are: where
DONE is 1 it overwrites a CODE the host has not acknowledged, which by 60 R346 no command can do (DESIGN CHOICE, log
14). -/
def settle (c : Command) (a : Act State) : Host.Outcome State Fault Refusal :=
  match a with
  | .ok s => .next s
  | .raise e s => .next (takeError c e s)
  | .refuse r => .refused r

/-- The reset input (70 R380, R383): every piece of engine state takes its reset value; host memory, the context
provider, the host's own data and what the host will do next are not the engine's (log 25). No memory is the engine's
after it (log 30). -/
def engineReset (s : State) : State :=
  { State.resetWith s.cfg with
      mem := s.mem, inputs := s.inputs, rdata := s.rdata, provider := s.provider, draws := s.draws }

end Sys2Proof.Machine
end

