-- ==== Sys2Proof/Machine/Operands.lean ====
section
/-! DEFINITION. Every operand form: the chain entries and the sub-descriptors named by the latch (30_encoding.md R93,
R98), the flag bits (R99), the session's keys (41_aes_round.md R154), and the model's own ports (log 3). -/

namespace Sys2Proof.Machine

/-- `L.entry[i]` as bytes; an entry the latch does not hold is zero (10 R43, log 17). -/
def entryAt (L : ChainLatch) (i : Nat) : List Byte := L.entries.getD i []

/-- The encryption sub-descriptor `enc = L.entry[L.enc]` (44 R212). -/
def encOf (s : State) : DEntry := decodeD (entryAt s.chain s.chain.enc.toNat)

/-- The authentication sub-descriptor `auth = L.entry[L.auth]` (44 R212). -/
def authOf (s : State) : DEntry := decodeD (entryAt s.chain s.chain.auth.toNat)

/-- `flags[0]`, ENCRYPT (30 R99). -/
def isEncrypt (e : DEntry) : Bool := e.flags.getLsbD 0

/-- `flags[1]`, IV_EXPLICIT (30 R99). -/
def ivExplicit (e : DEntry) : Bool := e.flags.getLsbD 1

/-- `flags[2]`, IV_PRESENT (30 R99). -/
def ivPresent (e : DEntry) : Bool := e.flags.getLsbD 2

/-- The IV will be generated: encrypt, not explicit, none present (44 R218, R222). -/
def ivGenerated (e : DEntry) : Bool := isEncrypt e && !ivExplicit e && !ivPresent e

/-- The staged payload `S.D[0 .. S.dlen)`. -/
def payloadOf (st : Staging) : List Byte := region st.d st.dlen.toNat

/-- The staged AAD `S.A[0 .. S.alen)`. -/
def aadOf (st : Staging) : List Byte := region st.a st.alen.toNat

/-- The staged IV `S.IV[0 .. S.ivlen)`. -/
def ivOf (st : Staging) : List Byte := region st.iv st.ivlen.toNat

/-- The staged output `S.O[0 .. S.dlen)`. -/
def outputOf (st : Staging) : List Byte := region st.o st.dlen.toNat

/-- The session slot of a PROCESS: `j = REG.SID` (47 R303). -/
def sessionOf (s : State) : Slot := getSlot s s.regs.sid

/-- A round count an AES schedule can have (40 R121). -/
def legalRounds (nr : BitVec 4) : Bool := decide (nr = 10) || decide (nr = 12) || decide (nr = 14)

/-- `legal(alg, klen)` (45 R247, 40 R131). -/
def legalKeyLength (t : Tag) (klen : Nat) : Bool :=
  match t with
  | .cbc | .gcm => decide (klen = 128) || decide (klen = 192) || decide (klen = 256)
  | .xts => decide (klen = 256) || decide (klen = 512)
  | .none => false

/-- Write the result port (log 3). -/
def setResult (r : Block) (s : State) : State := { s with ports := { s.ports with r := r } }

/-- Write the slot-index port (log 3). -/
def setIndex (j : BitVec 32) (s : State) : State := { s with ports := { s.ports with j := j } }

end Sys2Proof.Machine
end

