-- ==== Sys2Proof/Machine/Aes.lean ====
section
/-! DEFINITION. The AES round function, the block encryptor and its four lanes (41_aes_round.md): AESENC, AESENCLAST,
AESBLK, AESBLK4. -/

namespace Sys2Proof.Machine

/-- `xtime(a)` in GF(2^8) modulo 0x11b (41 R141). -/
def xtime (a : Byte) : Byte := if a.getLsbD 7 then (a <<< 1) ^^^ 0x1b else a <<< 1

/-- `gmul(a, b)` in GF(2^8) (41 R141): from bit `i` of `b` on, `k` bits to go, accumulator `r`. -/
def gmulFrom (b : Byte) : Nat → Nat → Byte → Byte → Byte
  | 0, _, _, r => r
  | k + 1, i, a, r => gmulFrom b k (i + 1) (xtime a) (if b.getLsbD i then r ^^^ a else r)

/-- The product in GF(2^8) (41 R141). -/
def gmul (a b : Byte) : Byte := gmulFrom b 8 0 a 0

/-- The S-box table, one row of sixteen values per block, column 0 first (41 R143). -/
def sboxRows : List Block :=
  [ 0x637c777bf26b6fc53001672bfed7ab76, 0xca82c97dfa5947f0add4a2af9ca472c0,
    0xb7fd9326363ff7cc34a5e5f171d83115, 0x04c723c31896059a071280e2eb27b275,
    0x09832c1a1b6e5aa0523bd6b329e32f84, 0x53d100ed20fcb15b6acbbe394a4c58cf,
    0xd0efaafb434d338545f9027f503c9fa8, 0x51a3408f929d38f5bcb6da2110fff3d2,
    0xcd0c13ec5f974417c4a77e3d645d1973, 0x60814fdc222a908846eeb814de5e0bdb,
    0xe0323a0a4906245cc2d3ac629195e479, 0xe7c8376d8dd54ea96c56f4ea657aae08,
    0xba78252e1ca6b4c6e8dd741f4bbd8b8a, 0x703eb5664803f60e613557b986c11d9e,
    0xe1f8981169d98e949b1e87e9ce5528df, 0x8ca1890dbfe6426841992d0fb054bb16 ]

/-- `SBOX[a]`: row the high nibble, column the low nibble (41 R143). -/
def sbox (a : Byte) : Byte := (sboxRows.getD (a.toNat / 16) 0).extractLsb' (8 * (15 - a.toNat % 16)) 8

/-- `SubBytes` (41 R144). -/
def subBytes (s : List Byte) : List Byte := s.map sbox

/-- `ShiftRows` as the byte permutation of 41 R145. -/
def shiftRows (s : List Byte) : List Byte :=
  [0, 5, 10, 15, 4, 9, 14, 3, 8, 13, 2, 7, 12, 1, 6, 11].map fun i => byteAt s i

/-- `MixColumns`, column by column (41 R146). -/
def mixColumns : List Byte → List Byte
  | a0 :: a1 :: a2 :: a3 :: rest =>
    (gmul a0 0x02 ^^^ gmul a1 0x03 ^^^ a2 ^^^ a3)
      :: (a0 ^^^ gmul a1 0x02 ^^^ gmul a2 0x03 ^^^ a3)
      :: (a0 ^^^ a1 ^^^ gmul a2 0x02 ^^^ gmul a3 0x03)
      :: (gmul a0 0x03 ^^^ a1 ^^^ a2 ^^^ gmul a3 0x02)
      :: mixColumns rest
  | _ => []

/-- `InvMixColumns` (40 R129). -/
def invMixColumns : List Byte → List Byte
  | a0 :: a1 :: a2 :: a3 :: rest =>
    (gmul a0 0x0e ^^^ gmul a1 0x0b ^^^ gmul a2 0x0d ^^^ gmul a3 0x09)
      :: (gmul a0 0x09 ^^^ gmul a1 0x0e ^^^ gmul a2 0x0b ^^^ gmul a3 0x0d)
      :: (gmul a0 0x0d ^^^ gmul a1 0x09 ^^^ gmul a2 0x0e ^^^ gmul a3 0x0b)
      :: (gmul a0 0x0b ^^^ gmul a1 0x0d ^^^ gmul a2 0x09 ^^^ gmul a3 0x0e)
      :: invMixColumns rest
  | _ => []

/-- `AddRoundKey` on registers (41 R147). -/
def addRoundKey (s k : Block) : Block := s ^^^ k

/-- `AESENC(s, k)` (41 R150). -/
def aesEnc (s k : Block) : Block := addRoundKey (blk (mixColumns (shiftRows (subBytes (bytes128 s))))) k

/-- `AESENCLAST(s, k)` (41 R151). -/
def aesEncLast (s k : Block) : Block := addRoundKey (blk (shiftRows (subBytes (bytes128 s)))) k

/-- Rounds `r` to `r + n - 1`, each with its own round key (41 R154). -/
def aesRounds (ek : Schedule) : Nat → Nat → Block → Block
  | 0, _, s => s
  | n + 1, r, s => aesRounds ek n (r + 1) (aesEnc s (roundKey ek r))

/-- `AESBLK(ek, Nr, x)` (41 R154); free for an `Nr` other than 10, 12, 14 (41 R155, log 9). -/
def aesBlk (ek : Schedule) (nr : BitVec 4) (x : Block) : Block :=
  if legalRounds nr then
    aesEncLast (aesRounds ek (nr.toNat - 1) 1 (x ^^^ roundKey ek 0)) (roundKey ek nr.toNat)
  else Config.aesUnstated ek nr x

/-- The four lanes (41 R158). -/
structure Lanes where
  l0 : Block
  l1 : Block
  l2 : Block
  l3 : Block
  deriving DecidableEq, Repr

/-- The same operation in every lane. -/
def mapLanes (f : Block → Block) (L : Lanes) : Lanes := { l0 := f L.l0, l1 := f L.l1, l2 := f L.l2, l3 := f L.l3 }

/-- Rounds `r` to `r + n - 1` in all lanes, one round-key load each (41 R158). -/
def laneRounds (ek : Schedule) : Nat → Nat → Lanes → Lanes
  | 0, _, L => L
  | n + 1, r, L =>
    let k := roundKey ek r
    laneRounds ek n (r + 1) (mapLanes (fun s => aesEnc s k) L)

/-- `AESBLK4`: four block encryptions under one schedule, round keys shared (41 R158); free for other round counts as
`AESBLK` is (log 9). -/
def aesBlk4 (ek : Schedule) (nr : BitVec 4) (x : Lanes) : Lanes :=
  if legalRounds nr then
    let k := roundKey ek nr.toNat
    mapLanes (fun s => aesEncLast s k)
      (laneRounds ek (nr.toNat - 1) 1 (mapLanes (fun v => v ^^^ roundKey ek 0) x))
  else mapLanes (Config.aesUnstated ek nr) x

/-- The four keystream registers take the lanes' results (41 R158). -/
def setKeystream (L : Lanes) (w : Work) : Work := { w with ks0 := L.l0, ks1 := L.l1, ks2 := L.l2, ks3 := L.l3 }

/-- AESENC: state block in port `a`, round key in port `b` (41 R150, log 3). -/
def execAesenc (s : State) : Host.Outcome State Fault Refusal :=
  .next (setResult (aesEnc s.ports.a s.ports.b) s)

/-- AESENCLAST: state block in port `a`, round key in port `b` (41 R151, log 3). -/
def execAesenclast (s : State) : Host.Outcome State Fault Refusal :=
  .next (setResult (aesEncLast s.ports.a s.ports.b) s)

/-- AESBLK: schedule and round count of the session in REG.SID, block in port `a` (41 R154, log 3). -/
def execAesblk (s : State) : Host.Outcome State Fault Refusal :=
  .next (setResult (aesBlk (sessionOf s).ek (sessionOf s).rounds s.ports.a) s)

/-- AESBLK4: schedule and round count of the session in REG.SID, blocks in ports `a` to `d`, results in W.KS0 to
W.KS3 (41 R158, log 3). -/
def execAesblk4 (s : State) : Host.Outcome State Fault Refusal :=
  let x : Lanes := { l0 := s.ports.a, l1 := s.ports.b, l2 := s.ports.c, l3 := s.ports.d }
  .next { s with work := setKeystream (aesBlk4 (sessionOf s).ek (sessionOf s).rounds x) s.work }

end Sys2Proof.Machine
end

