-- ==== Sys2Proof/Machine/Ghash.lean ====
section
/-! DEFINITION. The GHASH multiplier and accumulator (42_ghash.md): REFLECT, CLMUL, GFRED, GFMUL, GHFOLD, GHBYTES,
GHLEN. -/

namespace Sys2Proof.Machine

/-- Bits `0` to `n - 1` of the bit reversal of `v` (42 R166). -/
def reflectBits (v : Block) : Nat → Block
  | 0 => 0
  | n + 1 => if v.getLsbD (127 - n) then reflectBits v n ||| (1 <<< n) else reflectBits v n

/-- `REFLECT(v)` (42 R166). -/
def reflect (v : Block) : Block := reflectBits v 128

/-- The partial carry-less product over bits `0` to `n - 1` of `b`. -/
def clmul64Bits (a b : BitVec 64) : Nat → BitVec 127
  | 0 => 0
  | n + 1 => if b.getLsbD n then clmul64Bits a b n ^^^ (a.setWidth 127 <<< n) else clmul64Bits a b n

/-- The 64 x 64 carry-less product (42 R169). -/
def clmul64 (a b : BitVec 64) : BitVec 127 := clmul64Bits a b 64

/-- `CLMUL(a, b)` by the three-multiplication decomposition (42 R169). -/
def clmul (a b : Block) : BitVec 255 :=
  let a0 : BitVec 64 := a.extractLsb' 0 64
  let a1 : BitVec 64 := a.extractLsb' 64 64
  let b0 : BitVec 64 := b.extractLsb' 0 64
  let b1 : BitVec 64 := b.extractLsb' 64 64
  let lo := clmul64 a0 b0
  let hi := clmul64 a1 b1
  let mid := clmul64 (a0 ^^^ a1) (b0 ^^^ b1) ^^^ lo ^^^ hi
  (hi.setWidth 255 <<< 128) ^^^ (mid.setWidth 255 <<< 64) ^^^ lo.setWidth 255

/-- `GFRED(p)` by the fixed-shift reduction (42 R170). -/
def gfRed (p : BitVec 255) : Block :=
  let pl : Block := p.extractLsb' 0 128
  let ph : BitVec 134 := (p >>> 128).setWidth 134
  let q : BitVec 134 := ph ^^^ (ph <<< 1) ^^^ (ph <<< 2) ^^^ (ph <<< 7)
  let ql : Block := q.extractLsb' 0 128
  let qh : Block := (q >>> 128).setWidth 128
  pl ^^^ ql ^^^ qh ^^^ (qh <<< 1) ^^^ (qh <<< 2) ^^^ (qh <<< 7)

/-- `GFMUL(a, b)` on reflected operands (42 R172). -/
def gfMul (a b : Block) : Block := gfRed (clmul a b)

/-- The block-form product `X • Y` (42 R173). -/
def blockMul (x y : Block) : Block := reflect (gfMul (reflect x) (reflect y))

/-- `GHFOLD(B)`: `W.X <- (W.X ^ B) • W.H` (42 R176). -/
def ghFold (w : Work) (b : Block) : Work := { w with x := blockMul (w.x ^^^ b) w.h }

/-- The blocks of `pad16(S)` in order (42 R178). -/
def paddedBlocks (S : List Byte) : List Block :=
  (List.range ((pad16 S).length / 16)).map fun i => blk (slice (pad16 S) (16 * i) 16)

/-- `GHBYTES(S)` (42 R178). -/
def ghBytes (w : Work) (S : List Byte) : Work := (paddedBlocks S).foldl ghFold w

/-- The length block `be64(8*a) ‖ be64(8*c)` of two byte counts (42 R181). -/
def lengthBlock (a c : Nat) : Block := blk (be64 (BitVec.ofNat 64 (8 * a)) ++ be64 (BitVec.ofNat 64 (8 * c)))

/-- `GHLEN(a, c)` (42 R181). -/
def ghLen (w : Work) (a c : Nat) : Work := ghFold w (lengthBlock a c)

/-- REFLECT: operand in port `a` (42 R166, log 3). -/
def execReflect (s : State) : Host.Outcome State Fault Refusal := .next (setResult (reflect s.ports.a) s)

/-- CLMUL: operands in ports `a` and `b`, the 255-bit product in port `p` (42 R169, log 3). -/
def execClmul (s : State) : Host.Outcome State Fault Refusal :=
  .next { s with ports := { s.ports with p := clmul s.ports.a s.ports.b } }

/-- GFRED: operand in port `p` (42 R170, log 3). -/
def execGfred (s : State) : Host.Outcome State Fault Refusal := .next (setResult (gfRed s.ports.p) s)

/-- GFMUL: operands in ports `a` and `b` (42 R172, log 3). -/
def execGfmul (s : State) : Host.Outcome State Fault Refusal :=
  .next (setResult (gfMul s.ports.a s.ports.b) s)

/-- GHFOLD: the block in port `a` (42 R176, log 3). -/
def execGhfold (s : State) : Host.Outcome State Fault Refusal :=
  .next { s with work := ghFold s.work s.ports.a }

/-- GHBYTES: the byte string in port `str` (42 R178, log 3). -/
def execGhbytes (s : State) : Host.Outcome State Fault Refusal :=
  .next { s with work := ghBytes s.work s.ports.str }

/-- GHLEN: the byte counts in ports `alen` and `clen` (42 R181, log 3). -/
def execGhlen (s : State) : Host.Outcome State Fault Refusal :=
  .next { s with work := ghLen s.work s.ports.alen.toNat s.ports.clen.toNat }

end Sys2Proof.Machine
end

