-- ==== Sys2Proof/Machine/Ctr.lean ====
section
/-! DEFINITION. The counter-mode keystream generator (43_ctr.md): INC32, Y0GEN, CTRXOR. -/

namespace Sys2Proof.Machine

/-- `INC32(Y)`: the low 32 bits plus 1 modulo 2^32, the upper 96 bits unchanged (43 R190). -/
def inc32 (y : Block) : Block := y.extractLsb' 32 96 ++ (y.extractLsb' 0 32 + 1 : BitVec 32)

/-- `Y0GEN` on the IV of a staging memory (43 R193): 12 bytes R194, any other length R195; for the empty IV, which the
rules do not cover, `W.Y0` is free and `W.X` is cleared as R195 says (log 12). -/
def y0Gen (st : Staging) (w : Work) : Work :=
  if st.ivlen.toNat = 12 then { w with y0 := blk (ivOf st ++ [0x00, 0x00, 0x00, 0x01]) }
  else if st.ivlen.toNat = 0 then { w with y0 := Config.y0Empty w.h, x := 0 }
  else
    let w1 := ghBytes { w with x := 0 } (ivOf st)
    let w2 := ghFold w1 (blk (zeros 8 ++ be64 (BitVec.ofNat 64 (8 * st.ivlen.toNat))))
    { w2 with y0 := w2.x, x := 0 }

/-- `emit(j)`: on encrypt the completed output block is folded, zero-padded; on decrypt nothing happens (43 R199,
46 R277). -/
def emit (enc : Bool) (w : Work) (o : List Byte) : Work := if enc then ghFold w (blk (pad16 o)) else w

/-- One four-lane iteration on the first 64 bytes of `d` (43 R198): the new registers and the 64 output bytes. -/
def ctrFour (ek : Schedule) (nr : BitVec 4) (enc : Bool) (w : Work) (d : List Byte) : Work × List Byte :=
  let c0 := inc32 w.y
  let c1 := inc32 c0
  let c2 := inc32 c1
  let c3 := inc32 c2
  let L := aesBlk4 ek nr { l0 := c0, l1 := c1, l2 := c2, l3 := c3 }
  let o0 := xorBytes (slice d 0 16) (bytes128 L.l0)
  let o1 := xorBytes (slice d 16 16) (bytes128 L.l1)
  let o2 := xorBytes (slice d 32 16) (bytes128 L.l2)
  let o3 := xorBytes (slice d 48 16) (bytes128 L.l3)
  let w1 := setKeystream L { w with y := c3 }
  (emit enc (emit enc (emit enc (emit enc w1 o0) o1) o2) o3, o0 ++ o1 ++ o2 ++ o3)

/-- One block on lane 0, whole or partial: the first bytes of the keystream block are used (43 R198). -/
def ctrOne (ek : Schedule) (nr : BitVec 4) (enc : Bool) (w : Work) (d : List Byte) : Work × List Byte :=
  let y := inc32 w.y
  let k := aesBlk ek nr y
  let o := xorBytes (slice d 0 16) (bytes128 k)
  (emit enc { w with y := y, ks0 := k } o, o)

/-- The loop of 43 R198 with at most `fuel` iterations: four lanes while four whole blocks remain, then single blocks,
then the partial block; `o` is the output so far. -/
def ctrLoop (ek : Schedule) (nr : BitVec 4) (enc : Bool) : Nat → Work → List Byte → List Byte → Work × List Byte
  | 0, w, _, o => (w, o)
  | fuel + 1, w, d, o =>
    if 64 ≤ d.length then
      ctrLoop ek nr enc fuel (ctrFour ek nr enc w d).1 (d.drop 64) (o ++ (ctrFour ek nr enc w d).2)
    else if 1 ≤ d.length then
      ctrLoop ek nr enc fuel (ctrOne ek nr enc w d).1 (d.drop 16) (o ++ (ctrOne ek nr enc w d).2)
    else (w, o)

/-- `CTRXOR(D)` (43 R198): every iteration takes at least one block, so `len/16 + 1` of them suffice. -/
def ctrXor (ek : Schedule) (nr : BitVec 4) (enc : Bool) (w : Work) (d : List Byte) : Work × List Byte :=
  ctrLoop ek nr enc (d.length / 16 + 1) { w with y := w.y0 } d []

/-- `CTRXOR` on the staged payload under the schedule of slot `j`; `enc` says whether `emit` folds. -/
def ctrXorStage (j : BitVec 32) (enc : Bool) (s : State) : State :=
  let r := ctrXor (getSlot s j).ek (getSlot s j).rounds enc s.work (payloadOf s.stage)
  { s with work := r.1, stage := { s.stage with o := r.2 } }

/-- INC32: the block in port `a` (43 R190, log 3). -/
def execInc32 (s : State) : Host.Outcome State Fault Refusal := .next (setResult (inc32 s.ports.a) s)

/-- Y0GEN: the IV in S.IV (43 R193). -/
def execY0gen (s : State) : Host.Outcome State Fault Refusal := .next { s with work := y0Gen s.stage s.work }

/-- CTRXOR: the payload in S.D, the schedule of the session in REG.SID; `emit` folds when the latched encryption sub-descriptor says
encrypt (43 R198, R199, log 20). -/
def execCtrxor (s : State) : Host.Outcome State Fault Refusal :=
  .next (ctrXorStage s.regs.sid (isEncrypt (encOf s)) s)

end Sys2Proof.Machine
end

