-- ==== Sys2Proof/Machine/Gcm.lean ====
section
/-! DEFINITION. The GCM engine and the tag controller (46_gcm_engine.md): TAGGEN, TAGVFY and the sequences GCMENC and
GCMDEC. -/

namespace Sys2Proof.Machine

/-- `TAGGEN`: `W.TAG <- W.X ^ W.T` (46 R282). -/
def tagGen (w : Work) : Work := { w with tag := w.x ^^^ w.t }

/-- `TAGVFY`: `auth_ok` is the equality of all 128 bits; a mismatch raises AuthenticationFailure (46 R284). -/
def tagVfy (s : State) : Act State :=
  if s.work.tag = s.work.tagin then .ok (setAuthOk true s)
  else .raise .authenticationFailure (setAuthOk false s)

/-- Steps 1 to 3, common to both directions: hash subkey, initial counter block and tag mask, AAD (46 R272, R275,
R273). -/
def gcmPrepare (j : BitVec 32) (s : State) : State :=
  let ek := (getSlot s j).ek
  let nr := (getSlot s j).rounds
  let w1 := y0Gen s.stage { s.work with h := aesBlk ek nr 0 }
  let w2 := { w1 with t := aesBlk ek nr w1.y0 }
  { s with work := ghBytes { w2 with x := 0 } (aadOf s.stage) }

/-- Steps 6 and 7: the length block and the tag (46 R274, R282). -/
def gcmTag (s : State) : State :=
  { s with work := tagGen (ghLen s.work s.stage.alen.toNat s.stage.dlen.toNat) }

/-- `GCMENC` (46 R276). -/
def gcmEnc (j : BitVec 32) (s : State) : State :=
  setAuthOk true (gcmTag (ctrXorStage j true (gcmPrepare j s)))

/-- `GCMDEC` (46 R280): the keystream is generated only after the tag matched. -/
def gcmDec (j : BitVec 32) (s : State) : Act State :=
  let s1 := gcmPrepare j s
  let s2 := gcmTag { s1 with work := ghBytes s1.work (payloadOf s1.stage) }
  (tagVfy s2).bind fun s3 => .ok (ctrXorStage j false s3)

/-- TAGGEN (46 R282). -/
def execTaggen (s : State) : Host.Outcome State Fault Refusal := .next { s with work := tagGen s.work }

/-- TAGVFY; a mismatch ends the PROCESS it is issued for (46 R284, R285, log 14). -/
def execTagvfy (s : State) : Host.Outcome State Fault Refusal := settle .process (tagVfy s)

end Sys2Proof.Machine
end

