-- ==== Sys2Proof/Machine/KeySchedule.lean ====
section
/-! DEFINITION. The key-schedule unit (40_aes_keyschedule.md): KEYEXP, DECKEY, and the schedules a session gets. -/

namespace Sys2Proof.Machine

/-- `Nk`, the number of words of a key (40 R121). -/
def keyWordCount (key : List Byte) : Nat := key.length / 4

/-- A key length `KEYEXP` takes (40 R120). -/
def legalKeyBytes (n : Nat) : Bool := decide (n = 16) || decide (n = 24) || decide (n = 32)

/-- `RotWord` (40 R122). -/
def rotWord (w : KeyWord) : KeyWord := w.extractLsb' 0 24 ++ w.extractLsb' 24 8

/-- `SubWord` (40 R122). -/
def subWord (w : KeyWord) : KeyWord :=
  sbox (w.extractLsb' 24 8) ++ sbox (w.extractLsb' 16 8) ++ sbox (w.extractLsb' 8 8) ++ sbox (w.extractLsb' 0 8)

/-- `rc(i)`, `i >= 1` (40 R123). -/
def roundConstant : Nat → Byte
  | 0 => 0
  | 1 => 0x01
  | i + 2 => xtime (roundConstant (i + 1))

/-- `Rcon[i] = [rc(i), 0, 0, 0]` (40 R123). -/
def rcon (i : Nat) : KeyWord := roundConstant i ++ (0 : BitVec 24)

/-- The word `t` that is added to `w[i-Nk]` to give `w[i]`, from `w[i-1]` (40 R125). -/
def keyWordStep (nk i : Nat) (prev : KeyWord) : KeyWord :=
  if i % nk = 0 then subWord (rotWord prev) ^^^ rcon (i / nk)
  else if nk > 6 ∧ i % nk = 4 then subWord prev
  else prev

/-- Append `k` more words to the array (40 R125). -/
def expandWords (nk : Nat) : Nat → List KeyWord → List KeyWord
  | 0, w => w
  | k + 1, w =>
    expandWords nk k (w ++ [w.getD (w.length - nk) 0 ^^^ keyWordStep nk w.length (w.getD (w.length - 1) 0)])

/-- The word array `w[0 .. 4*(Nr+1)-1]` of a 16-, 24- or 32-byte key (40 R125). -/
def keyWords (key : List Byte) : List KeyWord :=
  let nk := keyWordCount key
  expandWords nk (4 * (nk + 6 + 1) - nk) ((List.range nk).map fun i => be32At key (4 * i))

/-- `rk[r] = w[4r] ‖ w[4r+1] ‖ w[4r+2] ‖ w[4r+3]` (40 R124). -/
def roundKeyOfWords (w : List KeyWord) (r : Nat) : Block :=
  w.getD (4 * r) 0 ++ w.getD (4 * r + 1) 0 ++ w.getD (4 * r + 2) 0 ++ w.getD (4 * r + 3) 0

/-- The word array KEYEXP leaves; free for other key lengths (log 10). -/
def keyExpWords (key : List Byte) : List KeyWord :=
  if legalKeyBytes key.length then keyWords key else Config.keyWordsUnstated key

/-- `Nr = Nk + 6` (40 R121); free for other key lengths (log 10). -/
def keyExpRounds (key : List Byte) : BitVec 4 :=
  if legalKeyBytes key.length then BitVec.ofNat 4 (keyWordCount key + 6) else Config.roundsUnstated key

/-- The schedule `rk[0 .. Nr]`, zero above `Nr` (40 R125, R132); free for other key lengths (log 10). -/
def keyExp (key : List Byte) : Schedule :=
  if legalKeyBytes key.length then
    scheduleOf ((List.range (keyWordCount key + 7)).map (roundKeyOfWords (keyWords key)))
  else Config.scheduleUnstated key

/-- Decryption round key `i` of an encryption schedule (40 R128). -/
def decRoundKey (rk : Schedule) (nr i : Nat) : Block :=
  if i = 0 then roundKey rk nr
  else if i = nr then roundKey rk 0
  else blk (invMixColumns (bytes128 (roundKey rk (nr - i))))

/-- `DECKEY(rk, Nr)`, zero above `Nr` (40 R128, R132); free for other round counts (log 11). -/
def decKey (rk : Schedule) (nr : BitVec 4) : Schedule :=
  if legalRounds nr then scheduleOf ((List.range (nr.toNat + 1)).map (decRoundKey rk nr.toNat))
  else Config.decKeyUnstated rk nr

/-- The part of a session key that is expanded into `ek`: all of it, or the first half for XTS (40 R130, R131). -/
def dataKey (t : Tag) (key : List Byte) : List Byte := if t = .xts then key.take (key.length / 2) else key

/-- The XTS tweak key: the second half (40 R131). -/
def tweakKey (key : List Byte) : List Byte := key.drop (key.length / 2)

/-- The tweak schedule a session gets: XTS only, else all zero (40 R130). -/
def tweakSchedule (t : Tag) (key : List Byte) : Schedule :=
  if t = .xts then keyExp (tweakKey key) else zeroSchedule

/-- KEYEXP: the key bytes of the key latch; the word array, the round keys and Nr go to the key latch (40 R125,
log 3). -/
def execKeyexp (s : State) : Host.Outcome State Fault Refusal :=
  .next { s with keys := { s.keys with w := keyExpWords s.keys.key, rk := keyExp s.keys.key, nr := keyExpRounds s.keys.key } }

/-- DECKEY: the schedule and Nr of the key latch; the decryption schedule goes to the key latch (40 R128, log 3). -/
def execDeckey (s : State) : Host.Outcome State Fault Refusal :=
  .next { s with keys := { s.keys with dk := decKey s.keys.rk s.keys.nr } }

end Sys2Proof.Machine
end

