-- ==== Sys2Proof/Machine/Session.lean ====
section
/-! DEFINITION. The session state machine (45_session.md): SLOOKUP, SALLOC, SGROW, SCLEAR, CTRFAI, and the commands
NEWSESSION and FREESESSION. -/

namespace Sys2Proof.Machine

/-- `SLOOKUP(sid)` (45 R236). -/
def slookup (sid : BitVec 32) (s : State) : Act (BitVec 32) :=
  if inRange s sid then .ok sid else .raise .invalidArgument s

/-- The least index from `j` on, among `k`, whose slot is not used (45 R240). -/
def firstFree (sl : List (Nat × Slot)) : Nat → Nat → Option Nat
  | _, 0 => none
  | j, k + 1 => if (slotOf sl j).used then firstFree sl (j + 1) k else some j

/-- `SGROW()`: double the capacity; the new id is the old capacity (45 R244). -/
def sgrow (s : State) : Act (BitVec 32 × State) :=
  if 2 * s.cap.toNat > s.cfg.maxCap then .raise .resourceExhausted s
  else .ok (s.cap, { s with cap := BitVec.ofNat 32 (2 * s.cap.toNat) })

/-- `slot[j].id <- j` (45 R240). -/
def assignId (j : BitVec 32) (s : State) : State := putSlot j { getSlot s j with id := j } s

/-- `SALLOC()`: the least unused slot from index 1, else growth (45 R240). -/
def salloc (s : State) : Act (BitVec 32 × State) :=
  match firstFree s.slots 1 (s.cap.toNat - 1) with
  | some j => .ok (BitVec.ofNat 32 j, assignId (BitVec.ofNat 32 j) s)
  | none => (sgrow s).bind fun r => .ok (r.1, assignId r.1 r.2)

/-- The lease, step 3 of NEWSESSION (45 R246): a slot that holds a handle does not ask again. -/
def lease (j : BitVec 32) (s : State) : Act State :=
  if (getSlot s j).ctx = 0 then
    if leaseAnswer s = 0 then .raise .resourceUnavailable (afterLease s)
    else .ok (putSlot j { getSlot s j with ctx := leaseAnswer s } (afterLease s))
  else .ok s

/-- The slot of a session after key setup with tag `t` and key bytes `key` (45 R247, 40 R130). -/
def sessionSlot (t : Tag) (nonce : BitVec 32) (key : List Byte) (old : Slot) : Slot :=
  { id := old.id, used := true, tag := t, rounds := keyExpRounds (dataKey t key),
    ek := keyExp (dataKey t key), dk := decKey (keyExp (dataKey t key)) (keyExpRounds (dataKey t key)),
    xk := tweakSchedule t key, nonce := if t = .gcm then nonce else 0, counter := 0, ctx := old.ctx }

/-- The temporaries of key setup while it runs (40 R133). -/
def latchKey (t : Tag) (key : List Byte) (s : State) : State :=
  { s with keys := { s.keys with key := key, w := keyExpWords (dataKey t key) } }

/-- Key setup, step 4 of NEWSESSION (45 R247): an illegal key length clears the slot but for `id` and `ctx` and raises
InvalidArgument without reading the key (45 R248, log 19). -/
def keySetup (j : BitVec 32) (t : Tag) (e : KEntry) (s : State) : Act State :=
  if legalKeyLength t e.klen.toNat then
    (memRead s e.keyPtr.toNat (e.klen.toNat / 8)).bind fun key =>
    .ok (putSlot j (sessionSlot t e.nonce key (getSlot s j)) (latchKey t key s))
  else .raise .invalidArgument (sclear j s)

/-- Chain validation, step 1 of NEWSESSION (45 R239): every algorithm recognised, exactly one of them an encryption
algorithm; the result is its tag and entry. -/
def sessionEntry (es : List (List Byte)) : Option (Tag × KEntry) :=
  if (es.map decodeK).all (fun k => isRecognised k.alg) then
    match (es.map decodeK).filter (fun k => isEncAlg k.alg) with
    | [e] => (tagOfCode e.alg).map fun t => (t, e)
    | _ => none
  else none

/-- Steps 2 to 4 of NEWSESSION on a validated chain, and `REG.SID <- j` (45 R250). -/
def createSession (t : Tag) (e : KEntry) (s : State) : Act State :=
  (salloc s).bind fun r =>
  (lease r.1 r.2).bind fun s2 =>
  (keySetup r.1 t e (setCtxActive true s2)).bind fun s3 =>
  .ok (setSid r.1 s3)

/-- NEWSESSION up to its release actions (45 R250). -/
def newSession (n : Nat) (s : State) : Act State :=
  (fetchChain 32 n (setPhase .session s)).bind fun s1 =>
  match sessionEntry s1.chain.entries with
  | none => .raise .invalidArgument s1
  | some te => createSession te.1 te.2 s1

/-- FREESESSION up to its release actions (45 R256). -/
def freeSession (s : State) : Act State :=
  (slookup s.regs.sid (setPhase .session s)).bind fun j => .ok (sclear j (setPhase .session s))

/-- `CTRFAI(j)`: the counter before the increment (45 R262); no meaning at 2^64 - 1 (45 R263). -/
def ctrFai (j : BitVec 32) (s : State) : Act (BitVec 64 × State) :=
  if (getSlot s j).counter = BitVec.allOnes 64 then .refuse .counterExhausted
  else .ok ((getSlot s j).counter,
            putSlot j { getSlot s j with counter := (getSlot s j).counter + 1 } s)

/-- NEWSESSION (45 R250). -/
def execNewsession (n : Nat) (s : State) : Host.Outcome State Fault Refusal :=
  finish .newSession (newSession n s)

/-- FREESESSION (45 R256). -/
def execFreesession (s : State) : Host.Outcome State Fault Refusal := finish .freeSession (freeSession s)

/-- The command a session lookup is made for: PROCESS in phase VALIDATE (47 R303), else FREESESSION (45 R256, log 14). -/
def lookupCommand (p : Phase) : Command := if p = .validate then .process else .freeSession

/-- SLOOKUP: the id in REG.SID, the result in port `j` (45 R236, log 3). -/
def execSlookup (s : State) : Host.Outcome State Fault Refusal :=
  settle (lookupCommand s.phase) ((slookup s.regs.sid s).bind fun j => .ok (setIndex j s))

/-- SALLOC: the result in port `j` (45 R240, log 3). -/
def execSalloc (s : State) : Host.Outcome State Fault Refusal :=
  settle .newSession ((salloc s).bind fun r => .ok (setIndex r.1 r.2))

/-- SGROW: the result in port `j` (45 R244, log 3). -/
def execSgrow (s : State) : Host.Outcome State Fault Refusal :=
  settle .newSession ((sgrow s).bind fun r => .ok (setIndex r.1 r.2))

/-- SCLEAR: the slot index in port `j` (45 R255, log 3). -/
def execSclear (s : State) : Host.Outcome State Fault Refusal := .next (sclear s.ports.j s)

/-- CTRFAI: the slot index in port `j`, the fetched value in port `cnt` (45 R262, log 3). -/
def execCtrfai (s : State) : Host.Outcome State Fault Refusal :=
  settle .process ((ctrFai s.ports.j s).bind fun r =>
    .ok { r.2 with ports := { r.2.ports with cnt := r.1 } })

end Sys2Proof.Machine
end

