-- ==== Sys2Proof/Machine/Staging.lean ====
section
/-! DEFINITION. Buffer staging and the IV manager (44_staging_iv.md): STAGEIN, IVDERIVE. -/

namespace Sys2Proof.Machine

/-- `STAGEIN` (44 R212): both lengths are checked before either region is read (44 R213). It takes the sub-descriptors
the latch holds, whether validation has accepted them or not (DESIGN CHOICE, log 28). -/
def stageIn (s : State) : Act State :=
  if (encOf s).length.toNat > s.cfg.stageCap ∨ (authOf s).length.toNat > s.cfg.stageCap then
    .raise .resourceExhausted s
  else
    (bufRead s (encOf s).offset.toNat (encOf s).length.toNat).bind fun d =>
    (bufRead s (authOf s).offset.toNat (authOf s).length.toNat).bind fun a =>
    .ok { s with
            stage := { s.stage with d := d, dlen := (encOf s).length, a := a, alen := (authOf s).length },
            phase := .deriveIv }

/-- The first `n` bytes of the `iv` field; bytes past its sixteen are free (44 R219, log 13). -/
def explicitIv (iv : Block) (n : Nat) : List Byte :=
  (bytes128 iv).take n ++ (List.range (n - 16)).map fun k => Config.ivByteBeyond iv (16 + k)

/-- `S.IV <- B`, `S.ivlen <- n`, and on to EXECUTE (44 R218). All of `B` is kept, also where it is longer than the
sixteen bytes of 10 R42, which only IVDERIVE alone on the bus can bring about (DESIGN CHOICE, log 13). -/
def setIv (B : List Byte) (n : BitVec 32) (s : State) : State :=
  { s with stage := { s.stage with iv := B, ivlen := n }, phase := .execute }

/-- `IVDERIVE` on session slot `j` (44 R218). It takes the sub-descriptor the latch holds, whether validation has
accepted it or not (DESIGN CHOICE, log 28): an IV in the buffer is read with all its `ivlen` bytes, also above the
sixteen of 10 R42 and 30 R101 (DESIGN CHOICE, log 13). -/
def ivDerive (j : BitVec 32) (s : State) : Act State :=
  let enc := encOf s
  if ivExplicit enc then .ok (setIv (explicitIv enc.iv enc.ivlen.toNat) enc.ivlen s)
  else if isEncrypt enc && !ivPresent enc then
    (ctrFai j s).bind fun r =>
    let iv := be32 (getSlot r.2 j).nonce ++ be64 r.1
    (bufWrite r.2 enc.inject.toNat iv).bind fun s2 => .ok (setIv iv 12 s2)
  else
    (bufRead s enc.inject.toNat enc.ivlen.toNat).bind fun iv => .ok (setIv iv enc.ivlen s)

/-- STAGEIN (44 R212); a raise ends the PROCESS it is issued for (log 14). Alone on the bus it runs
the pseudocode on the latch as it stands, also on sub-descriptors validation has not accepted, regions past BUF_LEN
among them (DESIGN CHOICE, log 28). -/
def execStagein (s : State) : Host.Outcome State Fault Refusal := settle .process (stageIn s)

/-- IVDERIVE: the session slot is `REG.SID` (47 R303: `j = REG.SID`; 44 R218). Alone on the bus it runs
the pseudocode on the latch as it stands (DESIGN CHOICE, log 28), also with an `ivlen` above 16 (log 13). -/
def execIvderive (s : State) : Host.Outcome State Fault Refusal := settle .process (ivDerive s.regs.sid s)

end Sys2Proof.Machine
end

