-- ==== Sys2Proof/Machine/Process.lean ====
section
/-! DEFINITION. The PROCESS command and its controller (47_process.md): validation V1 to V8, EXECUTE, WRBACK, SCRUB. -/

namespace Sys2Proof.Machine

/-- The latched chain as sub-descriptors (47 R302). -/
def descriptors (s : State) : List DEntry := s.chain.entries.map decodeD

/-- V1: the session id is in range and the slot used (47 R303). -/
def checkV1 (s : State) : Bool := inRange s s.regs.sid && (sessionOf s).used

/-- V2: every algorithm recognised (47 R304). -/
def checkV2 (ds : List DEntry) : Bool := ds.all fun d => isRecognised d.alg

/-- V3: exactly one encryption sub-descriptor (47 R305). -/
def checkV3 (ds : List DEntry) : Bool := decide (ds.countP (fun d => isEncAlg d.alg) = 1)

/-- The index of the encryption sub-descriptor (47 R305). -/
def encIndex (ds : List DEntry) : Nat := ds.findIdx fun d => isEncAlg d.alg

/-- The index of the authentication sub-descriptor (47 R307). -/
def authIndex (ds : List DEntry) : Nat := ds.findIdx fun d => isAuthAlg d.alg

/-- V4: the algorithm is the session's (47 R306). -/
def checkV4 (slot : Slot) (enc : DEntry) : Bool := decide (tagOfCode enc.alg = some slot.tag)

/-- V5: one authentication sub-descriptor for GCM, none for CBC and XTS (47 R307). -/
def checkV5 (slot : Slot) (ds : List DEntry) : Bool :=
  if slot.tag = .gcm then decide (ds.countP (fun d => isAuthAlg d.alg) = 1)
  else decide (ds.countP (fun d => isAuthAlg d.alg) = 0)

/-- V6: CBC and XTS lengths are multiples of 16 (47 R308). -/
def checkV6 (slot : Slot) (enc : DEntry) : Bool :=
  decide (slot.tag = .gcm) || decide (enc.length.toNat % 16 = 0)

/-- The number of IV bytes the buffer must hold at `enc.inject` when the IV is not explicit (47 R309 (d)). -/
def ivBufferLength (enc : DEntry) : Nat := if ivGenerated enc then 12 else enc.ivlen.toNat

/-- V7: every region lies inside the buffer, sums on unbounded integers (47 R309). -/
def checkV7 (slot : Slot) (bufLen : Nat) (enc auth : DEntry) : Bool :=
  decide (enc.offset.toNat + enc.length.toNat ≤ bufLen)
    && (decide (slot.tag ≠ .gcm)
        || (decide (auth.offset.toNat + auth.length.toNat ≤ bufLen)
            && decide (auth.inject.toNat + 16 ≤ bufLen)
            && (ivExplicit enc || decide (enc.inject.toNat + ivBufferLength enc ≤ bufLen))))

/-- V8: the IV length of a GCM operation (47 R310). -/
def checkV8 (slot : Slot) (enc : DEntry) : Bool :=
  decide (slot.tag ≠ .gcm)
    || (if ivGenerated enc then decide (enc.ivlen.toNat = 12)
        else decide (1 ≤ enc.ivlen.toNat) && decide (enc.ivlen.toNat ≤ 16))

/-- All of V1 to V8 (47 R302). -/
def checksPass (s : State) : Bool :=
  let ds := descriptors s
  let slot := sessionOf s
  let enc := ds.getD (encIndex ds) (decodeD [])
  let auth := ds.getD (authIndex ds) (decodeD [])
  checkV1 s && checkV2 ds && checkV3 ds && checkV4 slot enc && checkV5 slot ds && checkV6 slot enc
    && checkV7 slot s.regs.bufLen.toNat enc auth && checkV8 slot enc

/-- The end of phase VALIDATE (47 R313): a failed check raises InvalidArgument; a CBC or XTS session has no meaning
from here on (47 R316); a GCM session goes on to STAGE with the two indices latched. -/
def validate (s : State) : Act State :=
  if checksPass s then
    if (sessionOf s).tag = .gcm then
      .ok { s with
              chain := { s.chain with enc := BitVec.ofNat 8 (encIndex (descriptors s)),
                                      auth := BitVec.ofNat 8 (authIndex (descriptors s)) },
              phase := .stage }
    else .refuse .cbcXtsDataPath
  else .raise .invalidArgument s

/-- `W.TAGIN <- v` (47 R321). -/
def setTagIn (v : Block) (s : State) : State := { s with work := { s.work with tagin := v } }

/-- Phase EXECUTE (47 R320 to R323): the context is active, the tag is read on decrypt, the primitive runs. -/
def execute (j : BitVec 32) (s : State) : Act State :=
  if isEncrypt (encOf s) then .ok (setPhase .writeback (gcmEnc j (setCtxActive true s)))
  else
    (bufRead s (authOf s).inject.toNat 16).bind fun t =>
    (gcmDec j (setTagIn (blk t) (setCtxActive true s))).bind fun s2 => .ok (setPhase .writeback s2)

/-- `WRBACK`: the output in place, then on encrypt the tag (47 R325). -/
def wrBack (s : State) : Act State :=
  (bufWrite s (encOf s).offset.toNat (outputOf s.stage)).bind fun s1 =>
  if isEncrypt (encOf s) then
    (bufWrite s1 (authOf s).inject.toNat (bytes128 s.work.tag)).bind fun s2 => .ok (setPhase .release s2)
  else .ok (setPhase .release s1)

/-- PROCESS up to its release actions, a phase a line (47 R300). -/
def process (n : Nat) (s : State) : Act State :=
  (fetchChain 64 n (setPhase .validate s)).bind fun s1 =>
  (validate s1).bind fun s2 =>
  (stageIn s2).bind fun s3 =>
  (ivDerive s.regs.sid s3).bind fun s4 =>
  (execute s.regs.sid s4).bind fun s5 =>
  wrBack s5

/-- PROCESS (47 R300). -/
def execProcess (n : Nat) (s : State) : Host.Outcome State Fault Refusal := finish .process (process n s)

/-- WRBACK (47 R325). Alone on the bus it runs the pseudocode on the latch and the staging memory as they stand, also on
sub-descriptors validation has not accepted (DESIGN CHOICE, log 28). -/
def execWrback (s : State) : Host.Outcome State Fault Refusal := settle .process (wrBack s)

/-- SCRUB (47 R330). -/
def execScrub (s : State) : Host.Outcome State Fault Refusal := .next (scrub s)

end Sys2Proof.Machine
end

