-- ==== Sys2Proof/Machine/Dispatch.lean ====
section
/-! DEFINITION. One arm per instruction. -/

namespace Sys2Proof.Machine

def exec (i : Instr) (s : State) : Host.Outcome State Fault Refusal :=
  match i with
  | .newsession n => Sys2Proof.Machine.execNewsession n s
  | .freesession => Sys2Proof.Machine.execFreesession s
  | .process n => Sys2Proof.Machine.execProcess n s
  | .keyexp => Sys2Proof.Machine.execKeyexp s
  | .deckey => Sys2Proof.Machine.execDeckey s
  | .aesenc => Sys2Proof.Machine.execAesenc s
  | .aesenclast => Sys2Proof.Machine.execAesenclast s
  | .aesblk => Sys2Proof.Machine.execAesblk s
  | .aesblk4 => Sys2Proof.Machine.execAesblk4 s
  | .reflect => Sys2Proof.Machine.execReflect s
  | .clmul => Sys2Proof.Machine.execClmul s
  | .gfred => Sys2Proof.Machine.execGfred s
  | .gfmul => Sys2Proof.Machine.execGfmul s
  | .ghfold => Sys2Proof.Machine.execGhfold s
  | .ghbytes => Sys2Proof.Machine.execGhbytes s
  | .ghlen => Sys2Proof.Machine.execGhlen s
  | .inc32 => Sys2Proof.Machine.execInc32 s
  | .y0gen => Sys2Proof.Machine.execY0gen s
  | .ctrxor => Sys2Proof.Machine.execCtrxor s
  | .taggen => Sys2Proof.Machine.execTaggen s
  | .tagvfy => Sys2Proof.Machine.execTagvfy s
  | .slookup => Sys2Proof.Machine.execSlookup s
  | .salloc => Sys2Proof.Machine.execSalloc s
  | .sgrow => Sys2Proof.Machine.execSgrow s
  | .sclear => Sys2Proof.Machine.execSclear s
  | .ctrfai => Sys2Proof.Machine.execCtrfai s
  | .stagein => Sys2Proof.Machine.execStagein s
  | .ivderive => Sys2Proof.Machine.execIvderive s
  | .wrback => Sys2Proof.Machine.execWrback s
  | .scrub => Sys2Proof.Machine.execScrub s

end Sys2Proof.Machine
end

