-- ==== Sys2Proof/Machine/Bus.lean ====
section
/-! DEFINITION. How instructions and host accesses reach the engine: the write of CMD, the register block, host memory,
the controller's internal bus (10_state.md R27 to R35, 30_encoding.md R88, R105, R112), and which host memory belongs
to the engine meanwhile (20_memory.md R73, 70_reset_and_hazards.md R392). -/

namespace Sys2Proof.Machine

/-! ### Memory the engine owns -/

/-- The key bytes a NEWSESSION on a chain of `n` entries reads: none unless the chain is valid and the key length legal
(45 R239, R247, R248). -/
def keyRegion (n : Nat) (s : State) : List Region :=
  match sessionEntry (chainAt s 32 n) with
  | some (t, e) =>
    if legalKeyLength t e.klen.toNat then [{ base := e.keyPtr.toNat, size := e.klen.toNat / 8, buffer := false }]
    else []
  | none => []

/-- The chain, key bytes and buffer of a command (20 R73, 70 R392), as the registers and memory give them when CMD is
written (log 30). A micro-operation is no write of CMD. -/
def ownedBy (i : Instr) (s : State) : List Region :=
  match i with
  | .newsession n => { base := s.regs.descPtr.toNat, size := 32 * n, buffer := false } :: keyRegion n s
  | .process n =>
    [{ base := s.regs.descPtr.toNat, size := 64 * n, buffer := false },
     { base := s.regs.bufPtr.toNat, size := s.regs.bufLen.toNat, buffer := true }]
  | .freesession | .keyexp | .deckey | .aesenc | .aesenclast | .aesblk | .aesblk4 | .reflect | .clmul | .gfred
  | .gfmul | .ghfold | .ghbytes | .ghlen | .inc32 | .y0gen | .ctrxor | .taggen | .tagvfy | .slookup | .salloc
  | .sgrow | .sclear | .ctrfai | .stagein | .ivderive | .wrback | .scrub => []

/-- The command's memory becomes the engine's (70 R392). -/
def claim (i : Instr) (s : State) : State := { s with owned := ownedBy i s ++ s.owned }

/-- A read of STATUS that sees DONE = 1 gives all of it back to the host (70 R392, log 30); no other read does. -/
def giveBack (off : Nat) (s : State) : State :=
  if off = 0x08 && s.regs.done then { s with owned := [] } else s

/-- A byte from `a` to `a + n - 1` lies in the region. -/
def Region.meets (r : Region) (a n : Nat) : Bool := decide (max a r.base < min (a + n) (r.base + r.size))

/-- A host store of `n` bytes at `a` would write memory the engine owns (20 R73, 70 R392). -/
def storeBarred (s : State) (a n : Nat) : Bool := s.owned.any fun r => r.meets a n

/-- A host load of `n` bytes at `a` would read the buffer while the engine owns it; chain and key bytes may be read (20
R73, 70 R392, log 30). -/
def loadBarred (s : State) (a n : Nat) : Bool := s.owned.any fun r => r.buffer && r.meets a n

/-! ### The register block -/

/-- A write of the word `w` to CMD: ignored while BUSY or DONE (10 R28); otherwise accepted, BUSY <- 1, and the word's
command runs (30 R88), its memory the engine's (70 R392); an illegal opcode completes with InvalidArgument (30 R112)
and owns none. The phase is not tested: where 10 R24 has IDLE as the only phase in which a command starts, the model
follows R28 and R88 (DESIGN CHOICE, log 29). -/
def cmdWrite (w : BitVec 32) (s : State) : Host.Outcome State Fault Refusal :=
  if s.regs.busy || s.regs.done then .next s
  else
    match decodeCommand w with
    | .ok i => exec i (setBusy (claim i s))
    | .error _ => .next (complete .invalidArgument (setBusy s))

/-- A write of an operand register or CTRL is ignored while BUSY (10 R35). -/
def writeOperand (f : Regs → Regs) (s : State) : State :=
  if s.regs.busy then s else { s with regs := f s.regs }

/-- The low 32 bits of a 64-bit register replaced. -/
def withLow (v : BitVec 32) (a : Addr) : Addr := a.extractLsb' 32 32 ++ v

/-- The high 32 bits of a 64-bit register replaced. -/
def withHigh (v : BitVec 32) (a : Addr) : Addr := v ++ a.extractLsb' 0 32

/-- A 32-bit write at an offset of the register block (10 R27 to R34); the upper half of a 32-bit register's cell and
the reserved cell ignore writes. -/
def regWrite32 (off : Nat) (v : BitVec 32) (s : State) : Host.Outcome State Fault Refusal :=
  if off = 0x00 then cmdWrite v s
  else if off = 0x08 then .next (writeStatus v s)
  else if off = 0x10 then .next (writeOperand (fun r => { r with sid := v }) s)
  else if off = 0x18 then .next (writeOperand (fun r => { r with descPtr := withLow v r.descPtr }) s)
  else if off = 0x1c then .next (writeOperand (fun r => { r with descPtr := withHigh v r.descPtr }) s)
  else if off = 0x20 then .next (writeOperand (fun r => { r with bufPtr := withLow v r.bufPtr }) s)
  else if off = 0x24 then .next (writeOperand (fun r => { r with bufPtr := withHigh v r.bufPtr }) s)
  else if off = 0x28 then .next (writeOperand (fun r => { r with bufLen := v }) s)
  else if off = 0x30 then .next (writeOperand (fun r => { r with ie := v.getLsbD 0 }) s)
  else .next s

/-- The 32 bits read at an offset of the register block (10 R27 to R34); CMD, upper halves of 32-bit registers and the
reserved cell read 0. -/
def regRead32 (off : Nat) (r : Regs) : BitVec 32 :=
  if off = 0x08 then statusWord r
  else if off = 0x10 then r.sid
  else if off = 0x18 then r.descPtr.extractLsb' 0 32
  else if off = 0x1c then r.descPtr.extractLsb' 32 32
  else if off = 0x20 then r.bufPtr.extractLsb' 0 32
  else if off = 0x24 then r.bufPtr.extractLsb' 32 32
  else if off = 0x28 then r.bufLen
  else if off = 0x30 then ctrlWord r
  else 0

/-- An access of `n` bytes at `a` touches the register block (10 R27). One of no bytes touches it strictly inside, at
offsets 1 to 63, and not at its first byte (DESIGN CHOICE, log 22). -/
def touchesBlock (c : Config) (a n : Nat) : Bool := decide (a < c.engineBase + 64) && decide (c.engineBase < a + n)

/-- A naturally aligned access of `n` bytes at `a` inside the register block (10 R35). -/
def alignedInBlock (c : Config) (a n : Nat) : Bool :=
  decide (c.engineBase ≤ a) && decide (a + n ≤ c.engineBase + 64) && decide ((a - c.engineBase) % n = 0)

/-- The outcome of an action of the host on memory: no status is raised by one. -/
def plainOutcome (a : Act State) : Host.Outcome State Fault Refusal :=
  match a with
  | .ok s => .next s
  | .raise _ s => .next s
  | .refuse r => .refused r

/-! ### Host accesses and steps -/

/-- A host store: to the register block in the two sizes it takes, a 64-bit access being its two halves, low half first
(10 R35), or to host memory; a store to memory the engine owns has no meaning (70 R392, log 30). -/
def hostStore (addr : Addr) (data : List Byte) (s : State) : Host.Outcome State Fault Refusal :=
  let a := addr.toNat
  let off := a - s.cfg.engineBase
  if touchesBlock s.cfg a data.length then
    if data.length = 4 && alignedInBlock s.cfg a 4 then regWrite32 off (le32At data 0) s
    else if data.length = 8 && alignedInBlock s.cfg a 8 then
      match regWrite32 off (le32At data 0) s with
      | .next s1 => regWrite32 (off + 4) (le32At data 4) s1
      | .fault f => .fault f
      | .refused r => .refused r
    else .refused .malformedRegisterAccess
  else if storeBarred s a data.length then .refused .ownedByEngine
  else plainOutcome (memWrite s a data)

/-- A host load of `n` bytes: the bytes go to `rdata` (log 22); a read of a register has no side effect in
the engine (10 R35), and one of STATUS with DONE = 1 ends the host's duty of 70 R392; a load from a buffer the engine
owns has no meaning (70 R392, log 30). -/
def hostLoad (addr : Addr) (n : Nat) (s : State) : Host.Outcome State Fault Refusal :=
  let a := addr.toNat
  let off := a - s.cfg.engineBase
  if touchesBlock s.cfg a n then
    if n = 4 && alignedInBlock s.cfg a 4 then .next { giveBack off s with rdata := toLe32 (regRead32 off s.regs) }
    else if n = 8 && alignedInBlock s.cfg a 8 then
      .next { giveBack off s with rdata := toLe32 (regRead32 off s.regs) ++ toLe32 (regRead32 (off + 4) s.regs) }
    else .refused .malformedRegisterAccess
  else if loadBarred s a n then .refused .ownedByEngine
  else plainOutcome ((memRead s a n).bind fun b => .ok { s with rdata := b })

/-- What the host does in one step (00 R8). -/
def hostAct (i : Input) (s : State) : Host.Outcome State Fault Refusal :=
  match i with
  | .store addr data => hostStore addr data s
  | .load addr n => hostLoad addr n s
  | .reset => .next (engineReset s)

/-- A step with no code on the internal bus: the first waiting input is taken; without one nothing happens
(log 1). An access that follows the store to CMD comes after the whole command: one to memory the engine still owns is
refused (70 R392, log 30), any other takes its turn and sees every write of the command (log 24). -/
def stepHost (s : State) : Host.Outcome State Fault Refusal :=
  match s.inputs with
  | [] => .next s
  | i :: rest => hostAct i { s with inputs := rest }

/-- A step with the code `c` on the internal bus: the bus is taken and the micro-operation runs (log 2). -/
def stepMicro (c : Byte) (s : State) : Host.Outcome State Fault Refusal :=
  match decodeMicro c with
  | .ok i => exec i { s with bus := none }
  | .error _ => .refused .unknownMicroOp

/-- Where the next instruction is fetched from: a format-C word is the host's next store, to CMD, and no earlier
completion stands in its way; a format-U code stands on the internal bus (log 1, log 2). -/
def placeFetched (f : Fetched) (s : State) : State :=
  match f.format with
  | .c => { s with bus := none,
                   inputs := .store (BitVec.ofNat 64 s.cfg.engineBase) f.bytes :: s.inputs,
                   regs := { s.regs with busy := false, done := false } }
  | .u => { s with bus := some (byteAt f.bytes 0) }

end Sys2Proof.Machine
end

