-- ==== Sys2Proof/Machine/Step.lean ====
section
/-! DEFINITION. One step of the machine: one micro-operation on the internal bus, or one action of the host, a command
being one atomic transition (00_scope.md R7). -/

namespace Sys2Proof.Machine

/-- One step. -/
def step (s : State) : Host.Outcome State Fault Refusal :=
  match s.bus with
  | some c => stepMicro c s
  | none => stepHost s

/-- `s` with the table word `w` of `nbits` bits where the next step fetches its instruction. -/
def State.withFetchWord (s : State) (nbits w : Nat) : State := placeFetched (tableFetched nbits w) s

end Sys2Proof.Machine
end

