-- ==== Sys2Proof/WellFormed.lean ====
section
/-! DEFINITION. Which instructions an encoding can hold, and the constraints of the parameters. -/

namespace Sys2Proof

/-- `N` is the eight-bit field `w[15:8]` (30 R86); no other instruction has an operand field. -/
def Instr.wf : Instr → Bool
  | .newsession n => decide (n < 256)
  | .process n => decide (n < 256)
  | .freesession | .keyexp | .deckey | .aesenc | .aesenclast | .aesblk | .aesblk4 | .reflect | .clmul
  | .gfred | .gfmul | .ghfold | .ghbytes | .ghlen | .inc32 | .y0gen | .ctrxor | .taggen | .tagvfy
  | .slookup | .salloc | .sgrow | .sclear | .ctrfai | .stagein | .ivderive | .wrback | .scrub => true

/-- The constraints of 00 R9: `1 <= INIT_CAP <= MAX_CAP < 2^31`, `STAGE_CAP <= 2^32 - 1`, `ENGINE_BASE` 8-byte
aligned and the 64-byte block inside the address space. -/
def Config.wf (c : Config) : Bool :=
  decide (1 ≤ c.initCap) && decide (c.initCap ≤ c.maxCap) && decide (c.maxCap < 2 ^ 31)
    && decide (c.stageCap ≤ 2 ^ 32 - 1) && decide (c.engineBase % 8 = 0)
    && decide (c.engineBase + 64 ≤ 2 ^ 64)

end Sys2Proof
end

