-- ==== Sys2Proof/Safety.lean ====
section
/-! DEFINITION. What counts as a sound engine state (10_state.md R36 to R38, R46), which accesses answer (20_memory.md
R62 to R64), and the second definitions the spec itself gives of its operations, against which the model's are held:
the schoolbook product (42 R169), the long division (R170), the right-shift product (R174), the round by bytes (41 R144
to R147), the counter-mode equation (43 R200), the GCM equations (46 R278, R281). -/

namespace Sys2Proof.Machine

/-! ### Sound states -/

/-- Everything call-scoped is zero and no command runs (10 R46). -/
def IdleZero (s : State) : Prop :=
  s.work = .zero ∧ s.phase = .idle ∧ s.authOk = false ∧ s.ctxActive = false ∧ s.regs.busy = false
    ∧ s.stage = .zero ∧ s.chain = .zero ∧ s.keys = .zero

/-- Entries above round `n` are zero (10 R37, 40 R132). -/
def ZeroAbove (k : Schedule) (n : Nat) : Prop := ∀ r, n < r → roundKey k r = 0

/-- Slot `j` as 10 R37 and R38 (a) to (d) and (f) demand, for a table of capacity `cap`. -/
def SlotOk (cap j : Nat) (v : Slot) : Prop :=
  ((j = 0 ∨ cap ≤ j) → v = Slot.zero)
    ∧ (v.id.toNat = 0 ∨ v.id.toNat = j)
    ∧ (v.used = false → v = { Slot.zero with id := v.id, ctx := v.ctx })
    ∧ (v.used = true → v.id.toNat = j ∧ v.ctx ≠ 0 ∧ v.tag ≠ .none ∧ legalRounds v.rounds = true
        ∧ ZeroAbove v.ek v.rounds.toNat ∧ ZeroAbove v.dk v.rounds.toNat ∧ ZeroAbove v.xk v.rounds.toNat
        ∧ (v.tag ≠ .xts → v.xk = zeroSchedule) ∧ (v.tag ≠ .gcm → v.nonce = 0))

/-- The capacity is `INIT_CAP` doubled some number of times and stays below `MAX_CAP` (10 R38 (e)). -/
def CapOk (s : State) : Prop :=
  (∃ k, s.cap.toNat = s.cfg.initCap * 2 ^ k) ∧ s.cfg.initCap ≤ s.cap.toNat ∧ s.cap.toNat ≤ s.cfg.maxCap

/-- The slot list is in canonical form, its indices 32-bit ids (10 R36). -/
def slotsWf (sl : List (Nat × Slot)) : Bool := cellsWf Slot.zero (2 ^ 32) 0 sl

/-- Host memory and the slot list are in their canonical forms. -/
def Canonical (s : State) : Prop := Memory.wf s.mem = true ∧ slotsWf s.slots = true

/-- The invariant of the idle engine (10 R38, R46) with the model's canonical forms. -/
def IdleInv (s : State) : Prop :=
  s.cfg.wf = true ∧ s.bus = none ∧ IdleZero s ∧ Canonical s ∧ CapOk s
    ∧ ∀ j, SlotOk s.cap.toNat j (slotOf s.slots j)

/-! ### Accesses -/

/-- An access of `n` bytes at `a` answers: none is made, or it ends within the address space and the platform fails no
byte of it (20 R62 to R64). -/
def accessOk (c : Config) (a n : Nat) : Bool :=
  decide (n = 0) || (decide (a + n ≤ 2 ^ 64) && !accessFails c a n)

/-- The outcome of an access that does not answer: past 2^64, or failed by the platform (20 R62 to R64). -/
def RefusesAccess (o : Host.Outcome State Fault Refusal) : Prop :=
  o = .refused .addressPastEnd ∨ o = .refused .hostAccessFailed

/-- Every read of a chain fetch answers (20 R78). -/
def chainOk (s : State) (E n : Nat) : Bool :=
  (List.range n).all fun i => accessOk s.cfg (s.regs.descPtr.toNat + E * i) E

/-- An access of `n` bytes at offset `off` of the buffer answers. -/
def bufOk (s : State) (off n : Nat) : Bool := accessOk s.cfg (s.regs.bufPtr.toNat + off) n

/-- The `n` bytes at offset `off` of the buffer. -/
def bufAt (s : State) (off n : Nat) : List Byte := readBytes s.mem (s.regs.bufPtr.toNat + off) n

/-! ### AES by bytes -/

/-- Row `r`, column `c` after SubBytes and ShiftRows, rows and columns modulo 4 (41 R140, R144, R145). -/
def shiftedByte (s : Block) (r c : Nat) : Byte := sbox (byteAt (bytes128 s) (r % 4 + 4 * ((c + r % 4) % 4)))

/-- The last round: byte `r + 4c` is the shifted byte plus the key byte (41 R151). -/
def aesEncLastRef (s k : Block) : Block :=
  blk ((List.range 16).map fun i => shiftedByte s (i % 4) (i / 4) ^^^ byteAt (bytes128 k) i)

/-- A round: byte `r + 4c` is `2*b(r) ^ 3*b(r+1) ^ b(r+2) ^ b(r+3)` of column `c` plus the key byte, rows modulo 4 (41
R146, R150). -/
def aesEncRef (s k : Block) : Block :=
  blk ((List.range 16).map fun i =>
    byteAt (bytes128 k) i ^^^ gmul (shiftedByte s (i % 4) (i / 4)) 2 ^^^ gmul (shiftedByte s (i % 4 + 1) (i / 4)) 3
      ^^^ shiftedByte s (i % 4 + 2) (i / 4) ^^^ shiftedByte s (i % 4 + 3) (i / 4))

/-- InvMixColumns by bytes: byte `r + 4c` is `0e*b(r) ^ 0b*b(r+1) ^ 0d*b(r+2) ^ 09*b(r+3)` of column `c`, rows modulo 4
(40 R129). -/
def invMixRef (k : Block) : Block :=
  let b := fun r c => byteAt (bytes128 k) (4 * c + r % 4)
  blk ((List.range 16).map fun i =>
    gmul (b (i % 4) (i / 4)) 0x0e ^^^ gmul (b (i % 4 + 1) (i / 4)) 0x0b ^^^ gmul (b (i % 4 + 2) (i / 4)) 0x0d
      ^^^ gmul (b (i % 4 + 3) (i / 4)) 0x09)

/-- `E(K, x)`: the first key addition, `nr - 1` rounds, the last round (41 R154). -/
def aesBlkRef (ek : Schedule) (nr : BitVec 4) (x : Block) : Block :=
  aesEncLastRef
    ((List.range (nr.toNat - 1)).foldl (fun s i => aesEncRef s (roundKey ek (i + 1))) (x ^^^ roundKey ek 0))
    (roundKey ek nr.toNat)

/-! ### The field and GHASH -/

/-- The product bit by bit: `a << i` for every set bit `i` of `b` (42 R169). -/
def clmulRef (a b : Block) : BitVec 255 :=
  (List.range 128).foldl (fun p i => if b.getLsbD i then p ^^^ (a.setWidth 255 <<< i) else p) 0

/-- `P = 2^128 + 0x87` (42 R168). -/
def modulus : BitVec 255 := 0x100000000000000000000000000000087

/-- Long division by `P`: bits 254 down to 128 are cleared in turn (42 R170). -/
def gfRedRef (p : BitVec 255) : Block :=
  ((List.range 127).foldl (fun q k => if q.getLsbD (254 - k) then q ^^^ (modulus <<< (126 - k)) else q) p).extractLsb' 0 128

/-- One step of the right-shift product on `(Z, V)`, for bit `i` of `X` counted from the left (42 R174). -/
def shiftStep (X : Block) (zv : Block × Block) (i : Nat) : Block × Block :=
  (if X.getLsbD (127 - i) then zv.1 ^^^ zv.2 else zv.1,
   if zv.2.getLsbD 0 then (zv.2 >>> 1) ^^^ 0xe1000000000000000000000000000000 else zv.2 >>> 1)

/-- The right-shift product of the GCM standard (42 R174). -/
def blockMulRef (X Y : Block) : Block := ((List.range 128).foldl (shiftStep X) (0, Y)).1

/-- Block `i` of a byte string, its missing bytes zero (42 R178). -/
def blockAt (S : List Byte) (i : Nat) : Block := blk ((List.range 16).map fun k => byteAt S (16 * i + k))

/-- `GHASH(H, X0, S)` (42 R178, R180). -/
def ghashRef (h x : Block) (S : List Byte) : Block :=
  (List.range ((S.length + 15) / 16)).foldl (fun x i => blockMulRef (x ^^^ blockAt S i) h) x

/-- The length block of byte counts `a` and `c` as a number: bit lengths, 64 bits each, `a` first (42 R181). -/
def lengthRef (a c : Nat) : Block := BitVec.ofNat 128 (8 * a * 2 ^ 64 + 8 * c)

/-! ### Counter mode and GCM -/

/-- The number a byte string spells, most significant byte first (00 R13). -/
def beNat (B : List Byte) : Nat := B.foldl (fun n b => 256 * n + b.toNat) 0

/-- `CB(Y0, i)` (43 R191). -/
def cbRef (y : Block) (i : Nat) : Block :=
  BitVec.ofNat 128 (y.toNat / 2 ^ 32 * 2 ^ 32 + (y.toNat + i) % 2 ^ 32)

/-- The counter-mode equation (43 R200) over a block encryption `E`. -/
def ctrWith (E : Block → Block) (y0 : Block) (D : List Byte) : List Byte :=
  (List.range D.length).map fun i => byteAt D i ^^^ byteAt (bytes128 (E (cbRef y0 (i / 16 + 1)))) (i % 16)

/-- The counter-mode equation under an AES schedule (43 R200). -/
def ctrRef (ek : Schedule) (nr : BitVec 4) (y0 : Block) (D : List Byte) : List Byte := ctrWith (aesBlkRef ek nr) y0 D

/-- The initial counter block of a non-empty IV (43 R194, R195). -/
def y0Ref (h : Block) (iv : List Byte) : Block :=
  if iv.length = 12 then BitVec.ofNat 128 (beNat iv * 2 ^ 32 + 1)
  else blockMulRef (ghashRef h 0 iv ^^^ BitVec.ofNat 128 (8 * iv.length)) h

/-- The tag of AAD `A` and ciphertext `C` (46 R278). -/
def gcmTagRef (ek : Schedule) (nr : BitVec 4) (iv A C : List Byte) : Block :=
  let h := aesBlkRef ek nr 0
  ghashRef h 0 (pad16 A ++ pad16 C ++ be64 (BitVec.ofNat 64 (8 * A.length)) ++ be64 (BitVec.ofNat 64 (8 * C.length)))
    ^^^ aesBlkRef ek nr (y0Ref h iv)

/-- Encryption and decryption alike: the payload under the keystream of the IV (46 R278, R281). -/
def gcmCipherRef (ek : Schedule) (nr : BitVec 4) (iv P : List Byte) : List Byte :=
  ctrRef ek nr (y0Ref (aesBlkRef ek nr 0) iv) P

/-! ### The operands of the commands -/

/-- A `PROCESS` chain of `n` entries read at `DESC_PTR` holds exactly the two sub-descriptors of a GCM operation, in
either order (47 R304 to R307). -/
def GcmChain (n : Nat) (s : State) (enc auth : DEntry) : Prop :=
  chainOk s 64 n = true ∧ enc.alg = 3 ∧ auth.alg = 4
    ∧ ((chainAt s 64 n).map decodeD = [enc, auth] ∨ (chainAt s 64 n).map decodeD = [auth, enc])

/-- The session and the bounds a GCM operation must meet (47 R303, R306, R309 (a) to (c)). -/
def GcmChecks (s : State) (enc auth : DEntry) : Prop :=
  inRange s s.regs.sid = true ∧ (sessionOf s).used = true ∧ (sessionOf s).tag = .gcm
    ∧ enc.offset.toNat + enc.length.toNat ≤ s.regs.bufLen.toNat
    ∧ auth.offset.toNat + auth.length.toNat ≤ s.regs.bufLen.toNat
    ∧ auth.inject.toNat + 16 ≤ s.regs.bufLen.toNat

/-- The IV is generated and its twelve bytes lie in the buffer (47 R309 (d), R310). -/
def GeneratedIvOk (s : State) (enc : DEntry) : Prop :=
  ivGenerated enc = true ∧ enc.ivlen.toNat = 12 ∧ enc.inject.toNat + 12 ≤ s.regs.bufLen.toNat

/-- The IV is explicit or lies in the buffer, with 1 to 16 bytes (47 R309 (d), R310). -/
def GivenIvOk (s : State) (enc : DEntry) : Prop :=
  ivGenerated enc = false ∧ 1 ≤ enc.ivlen.toNat ∧ enc.ivlen.toNat ≤ 16
    ∧ (ivExplicit enc = true ∨ enc.inject.toNat + enc.ivlen.toNat ≤ s.regs.bufLen.toNat)

/-- Both regions fit the staging memory (44 R213). -/
def StagingFits (s : State) (enc auth : DEntry) : Prop :=
  enc.length.toNat ≤ s.cfg.stageCap ∧ auth.length.toNat ≤ s.cfg.stageCap

/-- The IV bytes of an operation whose IV is not generated (44 R219, R221). -/
def givenIv (s : State) (enc : DEntry) : List Byte :=
  if ivExplicit enc then (bytes128 enc.iv).take enc.ivlen.toNat else bufAt s enc.inject.toNat enc.ivlen.toNat

/-- The generated IV (44 R222). -/
def generatedIv (s : State) : List Byte := be32 (sessionOf s).nonce ++ be64 (sessionOf s).counter

/-- Payload (and output) and AAD answer (20 R80, R81). -/
def StagedOk (s : State) (enc auth : DEntry) : Prop :=
  bufOk s enc.offset.toNat enc.length.toNat = true ∧ bufOk s auth.offset.toNat auth.length.toNat = true

/-- Every region of the buffer a GCM operation reads or writes answers: payload (and output), AAD, tag and, where the IV
is not explicit, IV (20 R80, R81). -/
def RegionsOk (s : State) (enc auth : DEntry) : Prop :=
  StagedOk s enc auth ∧ bufOk s auth.inject.toNat 16 = true
    ∧ (ivExplicit enc = false → bufOk s enc.inject.toNat enc.ivlen.toNat = true)

/-- The IV of an operation is no legal one for a GCM session (47 R309 (d), R310). -/
def BadIv (s : State) (enc : DEntry) : Prop :=
  (ivGenerated enc = true ∧ (enc.ivlen.toNat ≠ 12 ∨ s.regs.bufLen.toNat < enc.inject.toNat + 12))
    ∨ (ivGenerated enc = false
        ∧ (enc.ivlen.toNat = 0 ∨ 16 < enc.ivlen.toNat
            ∨ (ivExplicit enc = false ∧ s.regs.bufLen.toNat < enc.inject.toNat + enc.ivlen.toNat)))

/-- One of the checks V1 to V8 fails on a chain of `n` entries (47 R303 to R310). -/
def Malformed (n : Nat) (s : State) : Prop :=
  let ds := (chainAt s 64 n).map decodeD
  let gcm := (sessionOf s).tag = Tag.gcm
  (inRange s s.regs.sid = false ∨ (sessionOf s).used = false)
    ∨ (∃ d ∈ ds, isRecognised d.alg = false)
    ∨ ds.countP (fun d => isEncAlg d.alg) ≠ 1
    ∨ (∃ enc ∈ ds, isEncAlg enc.alg = true
        ∧ (tagOfCode enc.alg ≠ some (sessionOf s).tag
            ∨ (gcm ∧ ds.countP (fun d => isAuthAlg d.alg) ≠ 1)
            ∨ (¬gcm ∧ ds.countP (fun d => isAuthAlg d.alg) ≠ 0)
            ∨ (¬gcm ∧ enc.length.toNat % 16 ≠ 0)
            ∨ s.regs.bufLen.toNat < enc.offset.toNat + enc.length.toNat
            ∨ (gcm ∧ BadIv s enc)))
    ∨ (∃ auth ∈ ds, isAuthAlg auth.alg = true ∧ gcm
        ∧ (s.regs.bufLen.toNat < auth.offset.toNat + auth.length.toNat
            ∨ s.regs.bufLen.toNat < auth.inject.toNat + 16))

/-- The one encryption sub-descriptor of a valid operation on a CBC or XTS session (47 R303 to R309). -/
def CbcXtsChecks (n : Nat) (s : State) (enc : DEntry) : Prop :=
  chainOk s 64 n = true ∧ (chainAt s 64 n).map decodeD = [enc]
    ∧ inRange s s.regs.sid = true ∧ (sessionOf s).used = true
    ∧ ((sessionOf s).tag = .cbc ∨ (sessionOf s).tag = .xts) ∧ tagOfCode enc.alg = some (sessionOf s).tag
    ∧ enc.length.toNat % 16 = 0 ∧ enc.offset.toNat + enc.length.toNat ≤ s.regs.bufLen.toNat

/-- A valid `NEWSESSION` chain of `n` entries: every algorithm recognised, `e` its only encryption entry, of tag `t`
(45 R239). -/
def KeyChain (n : Nat) (s : State) (t : Tag) (e : KEntry) : Prop :=
  chainOk s 32 n = true ∧ (∀ k ∈ (chainAt s 32 n).map decodeK, isRecognised k.alg = true)
    ∧ ((chainAt s 32 n).map decodeK).filter (fun k => isEncAlg k.alg) = [e] ∧ tagOfCode e.alg = some t

/-- Every slot of the table but the sentinel is used (45 R240). -/
def TableFull (s : State) : Prop := ∀ k, 1 ≤ k → k < s.cap.toNat → (slotOf s.slots k).used = true

/-- `j` is the least unused index of the table from 1 on (45 R240). -/
def LeastFree (s : State) (j : BitVec 32) : Prop :=
  1 ≤ j.toNat ∧ j.toNat < s.cap.toNat ∧ (getSlot s j).used = false
    ∧ ∀ k, 1 ≤ k → k < j.toNat → (slotOf s.slots k).used = true

/-- The slot `SALLOC` chooses and the capacity after it (45 R240, R244). -/
def Chosen (s : State) (j cap : BitVec 32) : Prop :=
  (LeastFree s j ∧ cap = s.cap)
    ∨ (TableFull s ∧ 2 * s.cap.toNat ≤ s.cfg.maxCap ∧ j = s.cap ∧ cap.toNat = 2 * s.cap.toNat)

/-- Whether the lease asks the context provider (45 R246), and the state after asking. -/
def leased (s : State) (j : BitVec 32) : State := if (getSlot s j).ctx = 0 then afterLease s else s

/-- The handle slot `j` holds after the lease, 0 for a denial (45 R246). -/
def leasedCtx (s : State) (j : BitVec 32) : Handle := if (getSlot s j).ctx = 0 then leaseAnswer s else (getSlot s j).ctx

/-- The slots of `t` are those of `s` but for slot `j`, which holds `v`. -/
def SlotIs (s t : State) (j : Nat) (v : Slot) : Prop :=
  ∀ k, slotOf t.slots k = if k = j then v else slotOf s.slots k

/-! ### What a command leaves -/

/-- The only way a PROCESS ends: call-scoped state zero, status posted (47 R330, R331; 60 R346). -/
def afterProcess (e : Status) (s : State) : State :=
  { s with
      work := .zero, stage := .zero, chain := .zero, authOk := false, ctxActive := false, phase := .idle,
      regs := { s.regs with code := e, busy := false, done := true } }

/-- The end of a NEWSESSION: call-scoped state zero, SID and status posted (45 R250, 60 R346). -/
def afterNewSession (e : Status) (sid : BitVec 32) (s : State) : State :=
  { s with
      chain := .zero, keys := .zero, ctxActive := false, phase := .idle,
      regs := { s.regs with sid := sid, code := e, busy := false, done := true } }

/-- The end of a FREESESSION: status posted (45 R256, 60 R346). -/
def afterFreeSession (e : Status) (s : State) : State :=
  { s with phase := .idle, regs := { s.regs with code := e, busy := false, done := true } }

/-- What address `x` reads as once the bytes `B` are stored from `a` upward over a memory that reads as `f` (20 R63). -/
def stored (f : Nat → Byte) (a : Nat) (B : List Byte) (x : Nat) : Byte :=
  if a ≤ x ∧ x < a + B.length then byteAt B (x - a) else f x

/-- The host address of offset `off` of the buffer (30 R103). -/
def bufAddr (s : State) (off : BitVec 32) : Nat := s.regs.bufPtr.toNat + off.toNat

end Sys2Proof.Machine
end

