-- ==== Sys2Proof/Certificates/Slice0/Obligations.lean ====
section
/-! DEFINITION. The statements for the provers, each a rule of spec/ or a consequence of several. -/

open Sys2Proof Sys2Proof.Machine

/-! ### Encoding -/

/-- 30 R119: the worked encodings, command words and entries of formats K and D, decode and encode as written. -/
def Obligations.WorkedEncodings : Prop :=
  let key : KEntry := { alg := 3, klen := 128, keyPtr := 0x1000, nonce := 0xaabbccdd }
  let keyBytes : List Byte := [3, 0, 0, 0, 0x80, 0, 0, 0, 0, 0x10, 0, 0, 0, 0, 0, 0, 0xaa, 0xbb, 0xcc, 0xdd] ++ zeros 12
  let enc : DEntry := { alg := 3, flags := 3, offset := 16, length := 16, inject := 0, ivlen := 12, iv := 0 }
  let encBytes : List Byte :=
    [3, 0, 0, 0, 3, 0, 0, 0, 0x10, 0, 0, 0, 0x10, 0, 0, 0, 0, 0, 0, 0, 0x0c, 0, 0, 0] ++ zeros 8 ++ zeros 16 ++ zeros 16
  let auth : DEntry := { alg := 4, flags := 0, offset := 0, length := 0, inject := 32, ivlen := 0, iv := 0 }
  let authBytes : List Byte := [4, 0, 0, 0, 0, 0, 0, 0, 0, 0, 0, 0, 0, 0, 0, 0, 0x20, 0, 0, 0] ++ zeros 44
  decode { format := .c, bytes := [0x01, 0x02, 0x00, 0x00] } = .ok (.newsession 2)
    ∧ decodeCommand 0x00000201 = .ok (.newsession 2) ∧ (encode (.newsession 2)).bytes = toLe32 0x00000201
    ∧ decodeCommand 0x00000002 = .ok .freesession ∧ (encode .freesession).bytes = toLe32 0x00000002
    ∧ decodeCommand 0x00000203 = .ok (.process 2) ∧ (encode (.process 2)).bytes = toLe32 0x00000203
    ∧ decodeK keyBytes = key ∧ encodeK key = keyBytes
    ∧ decodeD encBytes = enc ∧ encodeD enc = encBytes
    ∧ decodeD authBytes = auth ∧ encodeD auth = authBytes

/-- 30 R85 to R87, R105: the decoder gives back every well-formed instruction from its encoding. -/
def Obligations.DecodeEncodeAgree : Prop :=
  ∀ i : Instr, i.wf = true → decode (encode i) = .ok i

/-- 30 R93, R98, 20 R67: the entries of formats K and D come back from their 32 and 64 bytes, every field at every
value. -/
def Obligations.EntriesRoundTrip : Prop :=
  (∀ e : KEntry, (encodeK e).length = 32 ∧ decodeK (encodeK e) = e)
    ∧ ∀ e : DEntry, (encodeD e).length = 64 ∧ decodeD (encodeD e) = e

/-- 30 R86, R87, R105, R106: whatever decodes is well-formed; a code decodes only to the instruction it encodes; a
command word is four bytes, its first byte the opcode and its second `N`. -/
def Obligations.DecoderAcceptsTheTableOnly : Prop :=
  ∀ (f : Fetched) (i : Instr), decode f = .ok i →
    i.wf = true
      ∧ (f.format = .u → encode i = f)
      ∧ (f.format = .c → f.bytes.length = 4
          ∧ ((byteAt f.bytes 0 = 1 ∧ i = .newsession (byteAt f.bytes 1).toNat)
              ∨ (byteAt f.bytes 0 = 2 ∧ i = .freesession)
              ∨ (byteAt f.bytes 0 = 3 ∧ i = .process (byteAt f.bytes 1).toNat)))

/-- 30 R113, R89: the fields the spec calls ignored have no effect: bits 31:16 of the command word, `N` of
FREESESSION, bytes 20 to 31 of format K, bytes 24 to 31 and 48 to 63 of format D, bits 31:3 of `flags`. -/
def Obligations.IgnoredFields : Prop :=
  (∀ v w : BitVec 32, v.extractLsb' 0 16 = w.extractLsb' 0 16 → decodeCommand v = decodeCommand w)
    ∧ (∀ w : BitVec 32, w.extractLsb' 0 8 = 2 → decodeCommand w = .ok .freesession)
    ∧ (∀ A B : List Byte, (∀ i, i < 20 → byteAt A i = byteAt B i) → decodeK A = decodeK B)
    ∧ (∀ A B : List Byte, A.length = 64 → B.length = 64 → (∀ i, i < 24 → byteAt A i = byteAt B i) →
        (∀ i, 32 ≤ i → i < 48 → byteAt A i = byteAt B i) → decodeD A = decodeD B)
    ∧ ∀ (d : DEntry) (v : BitVec 32), v.extractLsb' 0 3 = d.flags.extractLsb' 0 3 →
        isEncrypt { d with flags := v } = isEncrypt d ∧ ivExplicit { d with flags := v } = ivExplicit d
          ∧ ivPresent { d with flags := v } = ivPresent d

/-! ### Steps, registers, memory -/

/-- 30 R88, R105, R106; log 1, log 2, and outside phase IDLE log 29: a step runs exactly the decoded instruction: the
code on the internal bus, or the command word the host stores to CMD, as 32 bits or as the low half of 64, when
neither BUSY nor DONE stands in its way, the command's memory being the engine's from then on (log 30); a code outside
the table is refused; with nothing on the bus and nothing waiting nothing happens. -/
def Obligations.StepRunsDecodedInstruction : Prop :=
  (∀ (s : State) (c : Byte) (i : Instr), s.bus = some c → decode { format := .u, bytes := [c] } = .ok i →
      step s = exec i { s with bus := none })
    ∧ (∀ (s : State) (c : Byte), s.bus = some c → (∀ row ∈ microTable, row.1 ≠ c) →
        step s = .refused .unknownMicroOp)
    ∧ (∀ (s : State) (w high : List Byte) (rest : List Input) (i : Instr), s.cfg.wf = true → s.bus = none →
        (high = [] ∨ high.length = 4) →
        s.inputs = .store (BitVec.ofNat 64 s.cfg.engineBase) (w ++ high) :: rest →
        s.regs.busy = false → s.regs.done = false → decode { format := .c, bytes := w } = .ok i →
        step s = exec i (setBusy (claim i { s with inputs := rest })))
    ∧ ∀ s : State, s.bus = none → s.inputs = [] → step s = .next s

/-- 30 R112: an accepted command word with another opcode changes nothing but the status (in a phase other than IDLE:
log 29). -/
def Obligations.IllegalOpcode : Prop :=
  ∀ (s : State) (w : BitVec 32), s.regs.busy = false → s.regs.done = false →
    w.extractLsb' 0 8 ≠ 0x01 → w.extractLsb' 0 8 ≠ 0x02 → w.extractLsb' 0 8 ≠ 0x03 →
    regWrite32 0x00 w s
      = .next { s with regs := { s.regs with code := .invalidArgument, busy := false, done := true } }

/-- 10 R28: CMD takes its opcode from `w[7:0]` and `N` from `w[15:8]`, reads as 0, starts the command when neither
BUSY nor DONE is set and is ignored otherwise (in a phase other than IDLE: log 29). 20 R73, 70 R392, log 30: with the
write the chain, the buffer (PROCESS) and the key bytes (NEWSESSION) become the engine's, beside what it owns. -/
def Obligations.CommandRegister : Prop :=
  (∀ w : BitVec 32,
      (w.extractLsb' 0 8 = 0x01 → decodeCommand w = .ok (.newsession (w.toNat / 256 % 256)))
        ∧ (w.extractLsb' 0 8 = 0x02 → decodeCommand w = .ok .freesession)
        ∧ (w.extractLsb' 0 8 = 0x03 → decodeCommand w = .ok (.process (w.toNat / 256 % 256))))
    ∧ (∀ r : Regs, regRead32 0x00 r = 0)
    ∧ (∀ (s : State) (w : BitVec 32) (i : Instr), s.regs.busy = false → s.regs.done = false →
        decodeCommand w = .ok i → regWrite32 0x00 w s = exec i (setBusy (claim i s)))
    ∧ (∀ (s : State) (w : BitVec 32), s.regs.busy = true ∨ s.regs.done = true → regWrite32 0x00 w s = .next s)
    ∧ ∀ s : State,
        let chain := fun size : Nat => ({ base := s.regs.descPtr.toNat, size := size, buffer := false } : Region)
        let buffer : Region := { base := s.regs.bufPtr.toNat, size := s.regs.bufLen.toNat, buffer := true }
        claim .freesession s = s
          ∧ (∀ n, claim (.process n) s = { s with owned := chain (64 * n) :: buffer :: s.owned })
          ∧ (∀ n, (∀ t e, KeyChain n s t e → legalKeyLength t e.klen.toNat = false) → chainOk s 32 n = true →
              claim (.newsession n) s = { s with owned := chain (32 * n) :: s.owned })
          ∧ ∀ n t e, KeyChain n s t e → legalKeyLength t e.klen.toNat = true →
              claim (.newsession n) s
                = { s with
                      owned := chain (32 * n)
                        :: { base := e.keyPtr.toNat, size := e.klen.toNat / 8, buffer := false } :: s.owned }

/-- 10 R29, 60 R340, R349: the layout of STATUS, the acknowledgement by writing 1 to bit 1, and every other bit
ignored. 70 R392; log 22, log 30: a load of STATUS, of 32 or 64 bits, returns the word and, when DONE is 1 and only
then, gives the memory the engine owns back to the host; the reset input does so too. -/
def Obligations.StatusRegister : Prop :=
  (∀ r : Regs, (regRead32 0x08 r).toNat
      = (if r.busy then 1 else 0) + (if r.done then 2 else 0)
        + 16 * (match r.code with
                | .success => 0 | .invalidArgument => 1 | .resourceExhausted => 2
                | .resourceUnavailable => 3 | .authenticationFailure => 4))
    ∧ (∀ (s : State) (v : BitVec 32),
        regWrite32 0x08 v s = .next { s with regs := { s.regs with done := s.regs.done && !v.getLsbD 1 } })
    ∧ (∀ s : State, s.cfg.wf = true →
        let status := BitVec.ofNat 64 (s.cfg.engineBase + 0x08)
        let word := toLe32 (regRead32 0x08 s.regs)
        let owned := if s.regs.done then [] else s.owned
        hostLoad status 4 s = .next { s with rdata := word, owned := owned }
          ∧ hostLoad status 8 s = .next { s with rdata := word ++ [0, 0, 0, 0], owned := owned })
    ∧ ∀ s : State, ∃ t, hostAct .reset s = .next t ∧ t.owned = []

/-- 10 R30 to R35: the operand registers and CTRL take what the host stores, 64 bits or either 32-bit half, ignore it
while BUSY, and read back little-endian; the upper half of a 32-bit register's cell and the reserved cell store
nothing and read 0 (the halves of a 64-bit access, and where a load returns its bytes: log 22). -/
def Obligations.OperandRegisters : Prop :=
  ∀ s : State, s.cfg.wf = true →
    let at_ := fun off => BitVec.ofNat 64 (s.cfg.engineBase + off)
    (s.regs.busy = false →
      (∀ v : Addr, hostStore (at_ 0x18) (toLe64 v) s = .next { s with regs := { s.regs with descPtr := v } }
          ∧ hostStore (at_ 0x20) (toLe64 v) s = .next { s with regs := { s.regs with bufPtr := v } })
        ∧ ∀ v : BitVec 32,
            hostStore (at_ 0x10) (toLe32 v) s = .next { s with regs := { s.regs with sid := v } }
              ∧ hostStore (at_ 0x28) (toLe32 v) s = .next { s with regs := { s.regs with bufLen := v } }
              ∧ hostStore (at_ 0x30) (toLe32 v) s = .next { s with regs := { s.regs with ie := v.getLsbD 0 } }
              ∧ hostStore (at_ 0x18) (toLe32 v) s
                  = .next { s with regs := { s.regs with descPtr := s.regs.descPtr.extractLsb' 32 32 ++ v } }
              ∧ hostStore (at_ 0x1c) (toLe32 v) s
                  = .next { s with regs := { s.regs with descPtr := v ++ s.regs.descPtr.extractLsb' 0 32 } }
              ∧ hostStore (at_ 0x20) (toLe32 v) s
                  = .next { s with regs := { s.regs with bufPtr := s.regs.bufPtr.extractLsb' 32 32 ++ v } }
              ∧ hostStore (at_ 0x24) (toLe32 v) s
                  = .next { s with regs := { s.regs with bufPtr := v ++ s.regs.bufPtr.extractLsb' 0 32 } })
      ∧ (s.regs.busy = true → ∀ (off : Nat) (v : BitVec 32), off ∈ [0x10, 0x18, 0x1c, 0x20, 0x24, 0x28, 0x30] →
          hostStore (at_ off) (toLe32 v) s = .next s)
      ∧ (∀ (off : Nat) (v : BitVec 32), off ∈ [0x04, 0x0c, 0x14, 0x2c, 0x34, 0x38, 0x3c] →
          hostStore (at_ off) (toLe32 v) s = .next s
            ∧ hostLoad (at_ off) 4 s = .next { s with rdata := [0, 0, 0, 0] })
      ∧ hostLoad (at_ 0x10) 4 s = .next { s with rdata := toLe32 s.regs.sid }
      ∧ hostLoad (at_ 0x18) 8 s = .next { s with rdata := toLe64 s.regs.descPtr }
      ∧ hostLoad (at_ 0x20) 8 s = .next { s with rdata := toLe64 s.regs.bufPtr }
      ∧ hostLoad (at_ 0x28) 4 s = .next { s with rdata := toLe32 s.regs.bufLen }
      ∧ hostLoad (at_ 0x30) 4 s = .next { s with rdata := [if s.regs.ie then 1 else 0, 0, 0, 0] }

/-- 10 R35, 60 R353: an access that touches the register block and is no aligned 32- or 64-bit access inside it is
refused, for loads and stores alike (one that only overlaps the block, or has no bytes: log 22). -/
def Obligations.MalformedAccessRefused : Prop :=
  ∀ (s : State) (addr : Addr) (data : List Byte) (n : Nat), n = data.length →
    addr.toNat < s.cfg.engineBase + 64 → s.cfg.engineBase < addr.toNat + n →
    ¬((n = 4 ∨ n = 8) ∧ s.cfg.engineBase ≤ addr.toNat ∧ addr.toNat + n ≤ s.cfg.engineBase + 64
        ∧ (addr.toNat - s.cfg.engineBase) % n = 0) →
    hostStore addr data s = .refused .malformedRegisterAccess
      ∧ hostLoad addr n s = .refused .malformedRegisterAccess

/-- 20 R62, R63: `MemRead` gives the bytes in address order; `MemWrite` stores them and changes no other byte; neither
makes an access for no bytes, and neither has a meaning past 2^64 or where the platform fails it (20 R64; the failing
ranges: log 7). A step that takes a host load or store outside the register block does the same through the host port
(20 R60, 10 R44; the bytes loaded stand in `rdata`, an access of no bytes at the block's first byte is one: log 22)
unless it would write a byte of the chain, the key or the buffer that the engine owns, or read one of that buffer:
then it is refused (20 R73, 70 R392, log 30). -/
def Obligations.MemoryAccess : Prop :=
  ∀ (s : State) (a n : Nat) (B : List Byte), B.length = n → Memory.wf s.mem = true →
    (n = 0 → a ≤ 2 ^ 64 → memRead s a n = .ok [] ∧ memWrite s a B = .ok s)
      ∧ (n ≠ 0 → 2 ^ 64 < a + n →
          memRead s a n = .refuse .addressPastEnd ∧ memWrite s a B = .refuse .addressPastEnd)
      ∧ (n ≠ 0 → a + n ≤ 2 ^ 64 → accessFails s.cfg a n = true →
          memRead s a n = .refuse .hostAccessFailed ∧ memWrite s a B = .refuse .hostAccessFailed)
      ∧ (accessOk s.cfg a n = true → a + n ≤ 2 ^ 64 →
          (∃ R, memRead s a n = .ok R ∧ R.length = n ∧ ∀ i, i < n → byteAt R i = byteOf s.mem (a + i))
            ∧ ∃ t, memWrite s a B = .ok t ∧ t = { s with mem := t.mem } ∧ Memory.wf t.mem = true
                ∧ ∀ x, byteOf t.mem x = stored (byteOf s.mem) a B x)
      ∧ ∀ (addr : Addr) (rest : List Input), s.bus = none → addr.toNat = a →
          (a + n ≤ s.cfg.engineBase ∨ s.cfg.engineBase + 64 ≤ a) →
          let load := step { s with inputs := .load addr n :: rest }
          let store := step { s with inputs := .store addr B :: rest }
          let barred := fun r : Region => ∃ x, a ≤ x ∧ x < a + n ∧ r.base ≤ x ∧ x < r.base + r.size
          ((∃ r ∈ s.owned, r.buffer = true ∧ barred r) → load = .refused .ownedByEngine)
            ∧ ((∃ r ∈ s.owned, barred r) → store = .refused .ownedByEngine)
            ∧ ((∀ r ∈ s.owned, r.buffer = true → ¬barred r) →
                (accessOk s.cfg a n = true →
                    ∃ R, load = .next { s with inputs := rest, rdata := R } ∧ R.length = n
                      ∧ ∀ i, i < n → byteAt R i = byteOf s.mem (a + i))
                  ∧ (accessOk s.cfg a n = false → RefusesAccess load))
            ∧ ((∀ r ∈ s.owned, ¬barred r) →
                (accessOk s.cfg a n = true →
                    ∃ t, store = .next t ∧ t = { s with inputs := rest, mem := t.mem } ∧ Memory.wf t.mem = true
                      ∧ ∀ x, byteOf t.mem x = stored (byteOf s.mem) a B x)
                  ∧ (accessOk s.cfg a n = false → RefusesAccess store))

/-- 10 R40, R35: whether a host load answers and what it returns depends on the registers, host memory, the parameters
and the memory the engine owns alone, never on a session, a working register, the staging memory, a latch or a flag;
and it changes nothing but the returned data (field `rdata`: log 22) and the memory owned (field `owned`: log 30). -/
def Obligations.HostSeesNoKeyMaterial : Prop :=
  ∀ (s t : State) (addr : Addr) (n : Nat) (rest rest' : List Input), s.bus = none → t.bus = none →
    s.inputs = .load addr n :: rest → t.inputs = .load addr n :: rest' →
    t.regs = s.regs → t.mem = s.mem → t.cfg = s.cfg → t.owned = s.owned →
    ∀ s', step s = .next s' →
      s' = { s with inputs := rest, rdata := s'.rdata, owned := s'.owned }
        ∧ ∃ t', step t = .next t' ∧ t'.rdata = s'.rdata ∧ t'.owned = s'.owned

/-! ### Reset and invariants -/

/-- 10 R47, 70 R380, R383: after reset every piece of engine state has its reset value, and host memory is not
changed. -/
def Obligations.ResetValues : Prop :=
  ∀ s : State, ∃ t, hostAct .reset s = .next t
      ∧ t.work = { h := 0, x := 0, t := 0, y0 := 0, y := 0, ks0 := 0, ks1 := 0, ks2 := 0, ks3 := 0, tag := 0, tagin := 0 }
      ∧ t.phase = .idle ∧ phaseCode t.phase = 0 ∧ t.authOk = false ∧ t.ctxActive = false
      ∧ regRead32 0x00 t.regs = 0 ∧ regRead32 0x08 t.regs = 0 ∧ t.regs.busy = false ∧ t.regs.done = false
      ∧ t.regs.code = .success ∧ t.regs.sid = 0 ∧ t.regs.descPtr = 0 ∧ t.regs.bufPtr = 0 ∧ t.regs.bufLen = 0
      ∧ regRead32 0x30 t.regs = 0 ∧ t.regs.ie = false
      ∧ t.cap = BitVec.ofNat 32 s.cfg.initCap
      ∧ (∀ j, slotOf t.slots j
          = { id := 0, used := false, tag := .none, rounds := 0, ek := zeroSchedule, dk := zeroSchedule,
              xk := zeroSchedule, nonce := 0, counter := 0, ctx := 0 })
      ∧ t.stage = { d := [], dlen := 0, a := [], alen := 0, o := [], iv := [], ivlen := 0 }
      ∧ t.chain = { n := 0, entries := [], enc := 0, auth := 0 }
      ∧ t.keys.key = [] ∧ t.keys.w = [] ∧ t.mem = s.mem

/-- 10 R38, R46, R47: the state after reset meets the invariant, under every legal choice of parameters (log 4). -/
def Obligations.ResetSatisfiesInv : Prop :=
  IdleInv State.reset ∧ ∀ c : Config, c.wf = true → IdleInv (State.resetWith c)

/-- 10 R38, R46, 47 R330: every step keeps the invariant of the idle engine: the slots are as R38 says, the capacity
is `INIT_CAP` doubled, call-scoped state is zero, memory and slots are canonical (log 5, log 27), the bus is empty
(log 2). -/
def Obligations.InvKept : Prop :=
  ∀ s t : State, IdleInv s → step s = .next t → IdleInv t

/-- 20 R60, 10 R36; log 2: every step, of the host or of a micro-operation, from a state with canonical memory and
slots leads to one, and changes no parameter (log 4, log 5, log 27). -/
def Obligations.CanonicalKept : Prop :=
  ∀ s t : State, s.cfg.wf = true → Canonical s → step s = .next t → Canonical t ∧ t.cfg = s.cfg

/-- 60 R350: the interrupt output is `IE and DONE`; completion asserts it when enabled, the acknowledgement and
clearing IE negate it. -/
def Obligations.IrqLine : Prop :=
  ∀ s : State, irq s = (s.regs.ie && s.regs.done)
    ∧ (∀ e, irq (complete e s) = s.regs.ie)
    ∧ irq (acknowledge s) = false
    ∧ ∀ v : BitVec 32, v.getLsbD 0 = false → s.regs.busy = false →
        ∃ t, regWrite32 0x30 v s = .next t ∧ irq t = false

/-- 60 R346, R353, 30 R88: an accepted command word completes, with DONE set, BUSY clear and the engine idle, or is
refused for one of the four situations without a meaning (started in a phase other than IDLE: log 29); and a step sets
DONE only by a store to CMD that is not ignored, or by a micro-operation on the bus that raises a status (log 1, log
2, log 14). -/
def Obligations.CommandCompletes : Prop :=
  (∀ (s : State) (w : BitVec 32), s.regs.busy = false → s.regs.done = false →
      (∃ t, regWrite32 0x00 w s = .next t ∧ t.regs.done = true ∧ t.regs.busy = false
          ∧ (s.phase = .idle → t.phase = .idle))
        ∨ ∃ r, regWrite32 0x00 w s = .refused r
            ∧ r ∈ [.cbcXtsDataPath, .counterExhausted, .addressPastEnd, .hostAccessFailed])
    ∧ ∀ s t : State, step s = .next t → t.regs.done = true →
        s.regs.done = true
          ∨ (s.bus = none ∧ s.regs.busy = false
              ∧ ∃ data rest, s.inputs = .store (BitVec.ofNat 64 s.cfg.engineBase) data :: rest)
          ∨ ∃ c i, s.bus = some c ∧ decode { format := .u, bytes := [c] } = .ok i
              ∧ i ∈ [.tagvfy, .slookup, .salloc, .sgrow, .stagein]

/-- 10 R30 to R34: no instruction writes DESC_PTR, BUF_PTR, BUF_LEN or CTRL, the parameters, the inputs, the bus, the
returned data or what the engine owns (log 30); SID is written by NEWSESSION alone (by SALLOC and SGROW too when they
raise, for they then end the NEWSESSION: log 14). -/
def Obligations.EngineWritesNoOperandRegister : Prop :=
  ∀ (i : Instr) (s t : State), exec i s = .next t →
    t.regs.descPtr = s.regs.descPtr ∧ t.regs.bufPtr = s.regs.bufPtr ∧ t.regs.bufLen = s.regs.bufLen
      ∧ t.regs.ie = s.regs.ie ∧ t.cfg = s.cfg ∧ t.inputs = s.inputs ∧ t.bus = s.bus ∧ t.rdata = s.rdata
      ∧ t.owned = s.owned
      ∧ ((∀ n, i ≠ .newsession n) → i ≠ .salloc → i ≠ .sgrow → t.regs.sid = s.regs.sid)

/-! ### AES and the key schedule -/

/-- 41 R142: the S-box is the inverse in GF(2^8), with 0 for 0, under the affine map. -/
def Obligations.SboxAlgebraic : Prop :=
  ∀ a : Byte, ∃ b : Byte, (a = 0 → b = 0) ∧ (a ≠ 0 → gmul a b = 1)
    ∧ sbox a = b ^^^ b.rotateLeft 1 ^^^ b.rotateLeft 2 ^^^ b.rotateLeft 3 ^^^ b.rotateLeft 4 ^^^ 0x63

/-- 41 R150, R144 to R147: AESENC puts the round by bytes of port `a` under the key of port `b` into the result port
and changes nothing else (ports: log 3). -/
def Obligations.AesencRound : Prop :=
  ∀ s : State, exec .aesenc s = .next { s with ports := { s.ports with r := aesEncRef s.ports.a s.ports.b } }

/-- 41 R151: AESENCLAST puts the last round by bytes into the result port and changes nothing else (ports: log 3). -/
def Obligations.AesenclastRound : Prop :=
  ∀ s : State, exec .aesenclast s = .next { s with ports := { s.ports with r := aesEncLastRef s.ports.a s.ports.b } }

/-- 41 R154: AESBLK puts the cipher of port `a` under the schedule of the session in SID into the result port and
changes nothing else (port and session: log 3; an id out of range or a slot not in use: log 28); for a round count the
rules do not give, some value (log 9). -/
def Obligations.AesblkCipher : Prop :=
  ∀ s : State,
    (legalRounds (sessionOf s).rounds = true →
      exec .aesblk s
        = .next { s with ports := { s.ports with r := aesBlkRef (sessionOf s).ek (sessionOf s).rounds s.ports.a } })
      ∧ (legalRounds (sessionOf s).rounds = false →
          ∃ v, exec .aesblk s = .next { s with ports := { s.ports with r := v } })

/-- 41 R158, R159: AESBLK4 leaves in KS0 to KS3 what AESBLK gives for ports `a` to `d`, each lane independent of the
others, and changes nothing else; a legal round count gives the cipher of each (ports and session: log 3; an id out of
range or a slot not in use: log 28; another round count: log 9). -/
def Obligations.Aesblk4Lanes : Prop :=
  ∀ s : State, ∃ k0 k1 k2 k3 : Block,
    exec .aesblk4 s = .next { s with work := { s.work with ks0 := k0, ks1 := k1, ks2 := k2, ks3 := k3 } }
      ∧ (∀ (x k : Block), (x, k) ∈ [(s.ports.a, k0), (s.ports.b, k1), (s.ports.c, k2), (s.ports.d, k3)] →
          exec .aesblk { s with ports := { s.ports with a := x } }
              = .next { s with ports := { s.ports with a := x, r := k } }
            ∧ (legalRounds (sessionOf s).rounds = true →
                k = aesBlkRef (sessionOf s).ek (sessionOf s).rounds x))

/-- 40 R125, R120: KEYEXP on 16, 24 or 32 key bytes leaves the word array that satisfies the recurrence, its round
keys, zero above the last, and the round count in the key latch (log 3), and changes nothing else; on another length
it leaves some values there (log 10). -/
def Obligations.KeyexpRecurrence : Prop :=
  ∀ s : State, ∃ w rk nr,
    exec .keyexp s = .next { s with keys := { s.keys with w := w, rk := rk, nr := nr } }
      ∧ (s.keys.key.length = 16 ∨ s.keys.key.length = 24 ∨ s.keys.key.length = 32 →
          let nk := s.keys.key.length / 4
          nr.toNat = nk + 6 ∧ w.length = 4 * (nr.toNat + 1)
            ∧ (∀ i, i < nk → w.getD i 0 = be32At s.keys.key (4 * i))
            ∧ (∀ i, nk ≤ i → i < 4 * (nr.toNat + 1) →
                w.getD i 0 = w.getD (i - nk) 0
                  ^^^ (if i % nk = 0 then subWord (rotWord (w.getD (i - 1) 0)) ^^^ rcon (i / nk)
                       else if 6 < nk ∧ i % nk = 4 then subWord (w.getD (i - 1) 0)
                       else w.getD (i - 1) 0))
            ∧ ∀ r, r ≤ 14 → roundKey rk r
                = if r ≤ nr.toNat
                  then w.getD (4 * r) 0 ++ w.getD (4 * r + 1) 0 ++ w.getD (4 * r + 2) 0 ++ w.getD (4 * r + 3) 0
                  else 0)

/-- 40 R128, R129, R132: DECKEY leaves the schedule of the equivalent inverse cipher in the key latch (log 3), zero
above the last round, and changes nothing else; for another round count it leaves some schedule there (log 11). -/
def Obligations.DeckeySchedule : Prop :=
  ∀ s : State, ∃ dk, exec .deckey s = .next { s with keys := { s.keys with dk := dk } }
    ∧ (legalRounds s.keys.nr = true →
        roundKey dk 0 = roundKey s.keys.rk s.keys.nr.toNat
          ∧ roundKey dk s.keys.nr.toNat = roundKey s.keys.rk 0
          ∧ (∀ i, 1 ≤ i → i < s.keys.nr.toNat →
              roundKey dk i = invMixRef (roundKey s.keys.rk (s.keys.nr.toNat - i)))
          ∧ ∀ i, s.keys.nr.toNat < i → roundKey dk i = 0)

/-! ### GHASH -/

/-- 42 R166: REFLECT reverses all 128 bits of port `a` into the result port and changes nothing else (ports: log 3). -/
def Obligations.ReflectBits : Prop :=
  ∀ s : State, ∃ r : Block, exec .reflect s = .next { s with ports := { s.ports with r := r } }
    ∧ ∀ i, i < 128 → r.getLsbD i = s.ports.a.getLsbD (127 - i)

/-- 42 R169: the three-multiplication product CLMUL leaves in port `p` is the schoolbook carry-less product, and
nothing else changes (ports: log 3). -/
def Obligations.ClmulSchoolbook : Prop :=
  ∀ s : State, exec .clmul s = .next { s with ports := { s.ports with p := clmulRef s.ports.a s.ports.b } }

/-- 42 R170: the fixed-shift reduction GFRED leaves in the result port is the remainder of the long division by the
modulus, and nothing else changes (ports: log 3). -/
def Obligations.GfredLongDivision : Prop :=
  ∀ s : State, exec .gfred s = .next { s with ports := { s.ports with r := gfRedRef s.ports.p } }

/-- 42 R172: GFMUL is the schoolbook product reduced by long division; 0 annuls, 1 is neutral, it commutes and
distributes; nothing but the result port changes (ports: log 3). -/
def Obligations.GfmulFieldProduct : Prop :=
  (∀ s : State, exec .gfmul s
      = .next { s with ports := { s.ports with r := gfRedRef (clmulRef s.ports.a s.ports.b) } })
    ∧ ∀ a b c : Block, gfMul a 0 = 0 ∧ gfMul a 1 = a ∧ gfMul a b = gfMul b a
        ∧ gfMul a (b ^^^ c) = gfMul a b ^^^ gfMul a c

/-- 42 R174, R176: the reflected product GHFOLD folds with is the right-shift product of the GCM standard: X takes `(X
^ B) • H` with `B` in port `a` (log 3) and nothing else changes. -/
def Obligations.GhfoldRightShift : Prop :=
  ∀ s : State, exec .ghfold s
    = .next { s with work := { s.work with x := blockMulRef (s.work.x ^^^ s.ports.a) s.work.h } }

/-- 42 R178: GHBYTES folds the zero-padded blocks of the byte string of port `str` in order; nothing but X changes
(port: log 3). -/
def Obligations.GhbytesFold : Prop :=
  ∀ s : State, exec .ghbytes s = .next { s with work := { s.work with x := ghashRef s.work.h s.work.x s.ports.str } }

/-- 42 R181: GHLEN folds the block of the two bit lengths, AAD first; nothing but X changes (ports: log 3). -/
def Obligations.GhlenBlock : Prop :=
  ∀ s : State, exec .ghlen s
    = .next { s with work := { s.work with
                x := blockMulRef (s.work.x ^^^ lengthRef s.ports.alen.toNat s.ports.clen.toNat) s.work.h } }

/-! ### Counter mode and tags -/

/-- 43 R190: INC32 adds 1 to the low 32 bits of port `a` modulo 2^32, the upper 96 bits unchanged, into the result
port; nothing else changes (ports: log 3). -/
def Obligations.Inc32Counter : Prop :=
  ∀ s : State, ∃ r : Block, exec .inc32 s = .next { s with ports := { s.ports with r := r } }
    ∧ r.toNat = s.ports.a.toNat / 2 ^ 32 * 2 ^ 32 + (s.ports.a.toNat + 1) % 2 ^ 32

/-- 43 R193 to R195: Y0GEN leaves the initial counter block in Y0, clears X for an IV that is not 12 bytes, and
changes nothing else; for the empty IV the value is open (log 12). -/
def Obligations.Y0genIv : Prop :=
  ∀ s : State,
    (s.stage.ivlen.toNat = 12 →
        exec .y0gen s = .next { s with work := { s.work with y0 := y0Ref s.work.h (ivOf s.stage) } })
      ∧ (s.stage.ivlen.toNat ≠ 12 → s.stage.ivlen.toNat ≠ 0 →
          exec .y0gen s = .next { s with work := { s.work with y0 := y0Ref s.work.h (ivOf s.stage), x := 0 } })
      ∧ (s.stage.ivlen.toNat = 0 → ∃ y, exec .y0gen s = .next { s with work := { s.work with y0 := y, x := 0 } })

/-- 43 R198 to R200, 46 R277: with `E` what AESBLK gives, CTRXOR leaves in S.O the payload under the keystream of
`CB(Y0, 1)`, `CB(Y0, 2)`, ..., in Y the last counter used, in KS0 to KS3 the lanes of the last four-lane iteration
(unchanged without one), KS0 then taking each single block that follows; on encrypt it folds the output into X;
nothing else changes (session: log 3; an id out of range or a slot not in use: log 28; direction: log 20; another
round count: log 9). -/
def Obligations.CtrxorKeystream : Prop :=
  ∀ s : State,
    let w := s.work
    let n := s.stage.dlen.toNat
    let four := n / 64
    let blocks := (n + 15) / 16
    ∃ E : Block → Block,
      (∀ x, exec .aesblk { s with ports := { s.ports with a := x } }
          = .next { s with ports := { s.ports with a := x, r := E x } })
        ∧ (legalRounds (sessionOf s).rounds = true →
            ∀ x, E x = aesBlkRef (sessionOf s).ek (sessionOf s).rounds x)
        ∧ (let o := ctrWith E w.y0 (payloadOf s.stage)
            let key := fun i => E (cbRef w.y0 i)
            o.length = n
              ∧ exec .ctrxor s
                  = .next { s with
                              stage := { s.stage with o := o },
                              work := { w with
                                          x := if isEncrypt (encOf s) then ghashRef w.h w.x o else w.x,
                                          y := cbRef w.y0 blocks,
                                          ks0 := if 4 * four < blocks then key blocks
                                                 else if 0 < four then key (4 * four - 3) else w.ks0,
                                          ks1 := if 0 < four then key (4 * four - 2) else w.ks1,
                                          ks2 := if 0 < four then key (4 * four - 1) else w.ks2,
                                          ks3 := if 0 < four then key (4 * four) else w.ks3 } })

/-- 46 R282: TAGGEN, code 0x50, puts `X ^ T` into TAG and changes nothing else. -/
def Obligations.TaggenXor : Prop :=
  encode .taggen = { format := .u, bytes := [0x50] }
    ∧ ∀ s : State, exec .taggen s = .next { s with work := { s.work with tag := s.work.x ^^^ s.work.t } }

/-- 46 R284, R285, 47 R330, R331; log 14: TAGVFY on equal tags sets auth_ok and changes nothing else; on a difference
in any bit it takes the exception AuthenticationFailure: call-scoped state scrubbed, status posted, every session,
every other register and all of memory as before. -/
def Obligations.TagvfyVerdict : Prop :=
  ∀ s : State,
    (s.work.tag = s.work.tagin → exec .tagvfy s = .next { s with authOk := true })
      ∧ (∀ k, s.work.tag.getLsbD k ≠ s.work.tagin.getLsbD k →
          exec .tagvfy s = .next (afterProcess .authenticationFailure s))

/-! ### Sessions -/

/-- 45 R236; log 3, log 14: SLOOKUP answers an id from 1 to `cap - 1` with the index, and changes nothing but port
`j`; for another id it takes the exception InvalidArgument of the command it serves. -/
def Obligations.SlookupRange : Prop :=
  ∀ s : State,
    (1 ≤ s.regs.sid.toNat → s.regs.sid.toNat < s.cap.toNat →
        exec .slookup s = .next { s with ports := { s.ports with j := s.regs.sid } })
      ∧ (s.regs.sid.toNat = 0 ∨ s.cap.toNat ≤ s.regs.sid.toNat →
          exec .slookup s
            = .next (if s.phase = .validate then afterProcess .invalidArgument s
                     else afterFreeSession .invalidArgument s))

/-- 45 R240; log 3, log 14: SALLOC takes the least unused index, or grows a full table, gives the slot its index as id
and changes nothing else but `cap` on growth and port `j`; with no room it takes the exception ResourceExhausted. -/
def Obligations.SallocLeastFree : Prop :=
  ∀ s : State, s.cfg.wf = true → Canonical s →
    (∀ j cap : BitVec 32, Chosen s j cap →
        ∃ t, exec .salloc s = .next t
          ∧ t = { s with slots := t.slots, cap := cap, ports := { s.ports with j := j } }
          ∧ SlotIs s t j.toNat { getSlot s j with id := j })
      ∧ (TableFull s → s.cfg.maxCap < 2 * s.cap.toNat →
          exec .salloc s = .next (afterNewSession .resourceExhausted 0 s))

/-- 45 R244; log 3, log 14: SGROW doubles `cap`, answers the old capacity in port `j` and changes nothing else; past
MAX_CAP it takes the exception ResourceExhausted. -/
def Obligations.SgrowDoubles : Prop :=
  ∀ s : State, s.cfg.wf = true →
    (2 * s.cap.toNat ≤ s.cfg.maxCap →
        ∃ cap : BitVec 32, cap.toNat = 2 * s.cap.toNat
          ∧ exec .sgrow s = .next { s with cap := cap, ports := { s.ports with j := s.cap } })
      ∧ (s.cfg.maxCap < 2 * s.cap.toNat →
          exec .sgrow s = .next (afterNewSession .resourceExhausted 0 s))

/-- 45 R255; log 3, and for an index that is 0 or not below `cap` log 28: SCLEAR zeroes every field of the slot in
port `j` but `id` and `ctx`, and changes nothing else. -/
def Obligations.SclearSlot : Prop :=
  ∀ s : State, Canonical s →
    ∃ t, exec .sclear s = .next t ∧ t = { s with slots := t.slots }
      ∧ SlotIs s t s.ports.j.toNat
          { id := (getSlot s s.ports.j).id, used := false, tag := .none, rounds := 0, ek := zeroSchedule,
            dk := zeroSchedule, xk := zeroSchedule, nonce := 0, counter := 0, ctx := (getSlot s s.ports.j).ctx }

/-- 45 R262, R263; log 3, and for a slot that is no used GCM session log 28: CTRFAI puts the counter of the slot in
port `j` into port `cnt`, the counter becomes one greater, and nothing else changes; at 2^64 - 1 it is refused. -/
def Obligations.CtrfaiCounts : Prop :=
  ∀ s : State, Canonical s →
    ((getSlot s s.ports.j).counter.toNat ≠ 2 ^ 64 - 1 →
        ∃ t c, exec .ctrfai s = .next t
          ∧ t = { s with slots := t.slots, ports := { s.ports with cnt := (getSlot s s.ports.j).counter } }
          ∧ c.toNat = (getSlot s s.ports.j).counter.toNat + 1
          ∧ SlotIs s t s.ports.j.toNat { getSlot s s.ports.j with counter := c })
      ∧ ((getSlot s s.ports.j).counter.toNat = 2 ^ 64 - 1 → exec .ctrfai s = .refused .counterExhausted)

/-- 45 R250, R239 to R247, 40 R130: NEWSESSION on a valid chain, a slot chosen, a handle held or granted and a legal
key length creates the session: the slot holds its id, tag, schedules, nonce, a counter of 0 and the handle; SID is
its id; status Success; nothing else changes but `cap` on growth and the provider's answer taken (log 8). -/
def Obligations.NewsessionCreates : Prop :=
  ∀ (n : Nat) (s : State) (t : Tag) (e : KEntry) (j cap : BitVec 32), s.cfg.wf = true → Canonical s →
    KeyChain n s t e → Chosen s j cap → leasedCtx s j ≠ 0 → legalKeyLength t e.klen.toNat = true →
    accessOk s.cfg e.keyPtr.toNat (e.klen.toNat / 8) = true →
    let key := readBytes s.mem e.keyPtr.toNat (e.klen.toNat / 8)
    let half := if t = .xts then e.klen.toNat / 16 else e.klen.toNat / 8
    ∃ u, exec (.newsession n) s = .next u
      ∧ u = afterNewSession .success j { leased s j with slots := u.slots, cap := cap }
      ∧ SlotIs s u j.toNat
          { id := j, used := true, tag := t, rounds := keyExpRounds (key.take half), ek := keyExp (key.take half),
            dk := decKey (keyExp (key.take half)) (keyExpRounds (key.take half)),
            xk := if t = .xts then keyExp (key.drop half) else zeroSchedule,
            nonce := if t = .gcm then e.nonce else 0, counter := 0, ctx := leasedCtx s j }

/-- 45 R239, R244, R246, R248, R250, 60 R348: the four ways NEWSESSION fails, in their order, and what each leaves:
SID 0 and the status; a chosen slot keeps its id and, after an illegal key length, its handle; growth stays (the
provider's answer: log 8). A chain or key that the bus does not answer is refused (20 R62, R64, log 7). -/
def Obligations.NewsessionFailures : Prop :=
  ∀ (n : Nat) (s : State), s.cfg.wf = true → Canonical s →
    (chainOk s 32 n = false → RefusesAccess (exec (.newsession n) s))
      ∧ (chainOk s 32 n = true →
        ((∃ k ∈ (chainAt s 32 n).map decodeK, isRecognised k.alg = false)
          ∨ ((chainAt s 32 n).map decodeK).countP (fun k => isEncAlg k.alg) ≠ 1) →
        exec (.newsession n) s = .next (afterNewSession .invalidArgument 0 s))
      ∧ ∀ (t : Tag) (e : KEntry), KeyChain n s t e →
          (TableFull s → s.cfg.maxCap < 2 * s.cap.toNat →
              exec (.newsession n) s = .next (afterNewSession .resourceExhausted 0 s))
            ∧ ∀ j cap : BitVec 32, Chosen s j cap →
                (leasedCtx s j = 0 →
                    ∃ u, exec (.newsession n) s = .next u
                      ∧ u = afterNewSession .resourceUnavailable 0 { afterLease s with slots := u.slots, cap := cap }
                      ∧ SlotIs s u j.toNat { getSlot s j with id := j })
                  ∧ (leasedCtx s j ≠ 0 → legalKeyLength t e.klen.toNat = false →
                      ∃ u, exec (.newsession n) s = .next u
                        ∧ u = afterNewSession .invalidArgument 0 { leased s j with slots := u.slots, cap := cap }
                        ∧ SlotIs s u j.toNat
                            { id := j, used := false, tag := .none, rounds := 0, ek := zeroSchedule,
                              dk := zeroSchedule, xk := zeroSchedule, nonce := 0, counter := 0, ctx := leasedCtx s j })
                  ∧ (leasedCtx s j ≠ 0 → legalKeyLength t e.klen.toNat = true →
                      accessOk s.cfg e.keyPtr.toNat (e.klen.toNat / 8) = false →
                      RefusesAccess (exec (.newsession n) s))

/-- 45 R250, R259: no NEWSESSION, failed or successful, changes a slot of the table that is in use, and `cap` never
falls. -/
def Obligations.NewsessionKeepsSessions : Prop :=
  ∀ (n : Nat) (s t : State), s.cfg.wf = true → Canonical s → exec (.newsession n) s = .next t →
    s.cap.toNat ≤ t.cap.toNat
      ∧ ∀ k, 1 ≤ k → k < s.cap.toNat → (slotOf s.slots k).used = true → slotOf t.slots k = slotOf s.slots k

/-- 45 R256, R255, R236: FREESESSION on an id in range clears the slot but for `id` and `ctx` and posts Success; on
any other id it posts InvalidArgument and changes nothing else. -/
def Obligations.FreesessionClears : Prop :=
  ∀ s : State, Canonical s →
    (1 ≤ s.regs.sid.toNat → s.regs.sid.toNat < s.cap.toNat →
        ∃ t, exec .freesession s = .next t ∧ t = afterFreeSession .success { s with slots := t.slots }
          ∧ SlotIs s t s.regs.sid.toNat
              { id := (sessionOf s).id, used := false, tag := .none, rounds := 0, ek := zeroSchedule,
                dk := zeroSchedule, xk := zeroSchedule, nonce := 0, counter := 0, ctx := (sessionOf s).ctx })
      ∧ (s.regs.sid.toNat = 0 ∨ s.cap.toNat ≤ s.regs.sid.toNat →
          exec .freesession s = .next (afterFreeSession .invalidArgument s))

/-! ### Staging and PROCESS -/

/-- 44 R212, R213; log 14, and for sub-descriptors validation has not accepted log 28 (an empty region past 2^64: log
15): STAGEIN copies payload and AAD into the staging memory and goes on to DERIVE_IV, changing nothing else; a region
longer than STAGE_CAP takes the exception ResourceExhausted; a region the bus does not answer is refused (20 R62, R64,
log 7). -/
def Obligations.StageinCopies : Prop :=
  ∀ s : State,
    let enc := encOf s
    let auth := authOf s
    (StagingFits s enc auth → bufOk s enc.offset.toNat enc.length.toNat = true →
        bufOk s auth.offset.toNat auth.length.toNat = true →
        exec .stagein s
          = .next { s with
                      stage := { s.stage with
                                   d := bufAt s enc.offset.toNat enc.length.toNat, dlen := enc.length,
                                   a := bufAt s auth.offset.toNat auth.length.toNat, alen := auth.length },
                      phase := .deriveIv })
      ∧ (¬StagingFits s enc auth → exec .stagein s = .next (afterProcess .resourceExhausted s))
      ∧ (StagingFits s enc auth →
          (bufOk s enc.offset.toNat enc.length.toNat = false ∨ bufOk s auth.offset.toNat auth.length.toNat = false) →
          RefusesAccess (exec .stagein s))

/-- 44 R218, R219, R221, R222, 45 R263: IVDERIVE takes the IV from the descriptor, from the buffer, or generates it
from nonce and counter, storing its twelve bytes at `enc.inject` and counting; nothing else changes; with the counter
at 2^64 - 1 the generation is refused (session: log 3; an id out of range, a slot not in use or a sub-descriptor that
validation has not accepted: log 28; an IV longer than 16 bytes: log 13; an empty IV past 2^64: log 15), and so is a
region the bus does not answer (20 R62, R64, log 7). -/
def Obligations.IvderiveSources : Prop :=
  ∀ s : State, Canonical s →
    let enc := encOf s
    (ivExplicit enc = true →
        ∃ iv, exec .ivderive s
            = .next { s with stage := { s.stage with iv := iv, ivlen := enc.ivlen }, phase := .execute }
          ∧ (enc.ivlen.toNat ≤ 16 → iv = (bytes128 enc.iv).take enc.ivlen.toNat))
      ∧ (ivExplicit enc = false → (isEncrypt enc = false ∨ ivPresent enc = true) →
          bufOk s enc.inject.toNat enc.ivlen.toNat = true →
          exec .ivderive s
            = .next { s with
                        stage := { s.stage with iv := bufAt s enc.inject.toNat enc.ivlen.toNat, ivlen := enc.ivlen },
                        phase := .execute })
      ∧ (ivGenerated enc = true → (sessionOf s).counter.toNat ≠ 2 ^ 64 - 1 →
          bufOk s enc.inject.toNat 12 = true →
          ∃ t c, exec .ivderive s = .next t
            ∧ t = { s with
                      mem := t.mem, slots := t.slots,
                      stage := { s.stage with iv := generatedIv s, ivlen := 12 }, phase := .execute }
            ∧ (∀ x, byteOf t.mem x = stored (byteOf s.mem) (bufAddr s enc.inject) (generatedIv s) x)
            ∧ c.toNat = (sessionOf s).counter.toNat + 1
            ∧ SlotIs s t s.regs.sid.toNat { sessionOf s with counter := c })
      ∧ (ivGenerated enc = true → (sessionOf s).counter.toNat = 2 ^ 64 - 1 →
          exec .ivderive s = .refused .counterExhausted)
      ∧ (ivGenerated enc = true → (sessionOf s).counter.toNat ≠ 2 ^ 64 - 1 →
          bufOk s enc.inject.toNat 12 = false → RefusesAccess (exec .ivderive s))
      ∧ (ivExplicit enc = false → ivGenerated enc = false → bufOk s enc.inject.toNat enc.ivlen.toNat = false →
          RefusesAccess (exec .ivderive s))

/-- 47 R325, R326: WRBACK, code 0x72, stores the output at `enc.offset` and, on encrypt, then the tag at
`auth.inject`, and goes on to RELEASE; no other byte of memory and nothing else changes; a region the bus does not
answer is refused (20 R62, R64, log 7; an empty output past 2^64: log 15; sub-descriptors validation has not accepted:
log 28). -/
def Obligations.WrbackWrites : Prop :=
  encode .wrback = { format := .u, bytes := [0x72] }
    ∧ ∀ s : State, Canonical s →
        let enc := encOf s
        let auth := authOf s
        let out := stored (byteOf s.mem) (bufAddr s enc.offset) (outputOf s.stage)
        (bufOk s enc.offset.toNat s.stage.dlen.toNat = true →
            (isEncrypt enc = true → bufOk s auth.inject.toNat 16 = true) →
            ∃ t, exec .wrback s = .next t ∧ t = { s with mem := t.mem, phase := .release }
              ∧ ∀ x, byteOf t.mem x
                  = if isEncrypt enc then stored out (bufAddr s auth.inject) (bytes128 s.work.tag) x else out x)
          ∧ ((bufOk s enc.offset.toNat s.stage.dlen.toNat = false
                ∨ (isEncrypt enc = true ∧ bufOk s auth.inject.toNat 16 = false)) →
              RefusesAccess (exec .wrback s))

/-- 47 R330: SCRUB, code 0x73, zeroes the staging memory, the working registers, the latches, auth_ok and ctx_active,
and changes nothing else. -/
def Obligations.ScrubZeroes : Prop :=
  encode .scrub = { format := .u, bytes := [0x73] }
    ∧ ∀ s : State,
        exec .scrub s
          = .next { s with
                      ctxActive := false, authOk := false,
                      stage := { d := [], dlen := 0, a := [], alen := 0, o := [], iv := [], ivlen := 0 },
                      work := { h := 0, x := 0, t := 0, y0 := 0, y := 0, ks0 := 0, ks1 := 0, ks2 := 0, ks3 := 0,
                                tag := 0, tagin := 0 },
                      chain := { n := 0, entries := [], enc := 0, auth := 0 } }

/-- 46 R278, 47 R300 to R331, 44 R222: PROCESS on a valid GCM encryption whose regions the bus answers (an empty one
past 2^64: log 15), the IV given or generated, stores ciphertext and tag as the GCM equations have them (the generated
IV before them), counts a generation, leaves the call-scoped state zero, posts Success, and changes nothing else. -/
def Obligations.ProcessEncrypts : Prop :=
  ∀ (n : Nat) (s : State) (enc auth : DEntry),
    GcmChain n s enc auth → GcmChecks s enc auth → StagingFits s enc auth → RegionsOk s enc auth → Canonical s →
    legalRounds (sessionOf s).rounds = true → isEncrypt enc = true →
    let ek := (sessionOf s).ek
    let nr := (sessionOf s).rounds
    let P := bufAt s enc.offset.toNat enc.length.toNat
    let A := bufAt s auth.offset.toNat auth.length.toNat
    let out := fun iv f x =>
      stored (stored f (bufAddr s enc.offset) (gcmCipherRef ek nr iv P)) (bufAddr s auth.inject)
        (bytes128 (gcmTagRef ek nr iv A (gcmCipherRef ek nr iv P))) x
    (GivenIvOk s enc →
        ∃ t, exec (.process n) s = .next t ∧ t = afterProcess .success { s with mem := t.mem }
          ∧ ∀ x, byteOf t.mem x = out (givenIv s enc) (byteOf s.mem) x)
      ∧ (GeneratedIvOk s enc → (sessionOf s).counter.toNat ≠ 2 ^ 64 - 1 →
          ∃ t c, exec (.process n) s = .next t
            ∧ t = afterProcess .success { s with mem := t.mem, slots := t.slots }
            ∧ (∀ x, byteOf t.mem x
                = out (generatedIv s) (stored (byteOf s.mem) (bufAddr s enc.inject) (generatedIv s)) x)
            ∧ c.toNat = (sessionOf s).counter.toNat + 1
            ∧ SlotIs s t s.regs.sid.toNat { sessionOf s with counter := c })

/-- 46 R281, R284, R285, 47 R300 to R331: PROCESS on a valid GCM decryption whose regions the bus answers (an empty
one past 2^64: log 15) stores the plaintext when the tag in the buffer is the one the GCM equations give, and
otherwise posts AuthenticationFailure and leaves memory and sessions as they were; either way the call-scoped state is
zero and nothing else changes. -/
def Obligations.ProcessDecrypts : Prop :=
  ∀ (n : Nat) (s : State) (enc auth : DEntry),
    GcmChain n s enc auth → GcmChecks s enc auth → GivenIvOk s enc → StagingFits s enc auth → RegionsOk s enc auth →
    Canonical s → legalRounds (sessionOf s).rounds = true → isEncrypt enc = false →
    let ek := (sessionOf s).ek
    let nr := (sessionOf s).rounds
    let C := bufAt s enc.offset.toNat enc.length.toNat
    let A := bufAt s auth.offset.toNat auth.length.toNat
    let iv := givenIv s enc
    (blk (bufAt s auth.inject.toNat 16) = gcmTagRef ek nr iv A C →
        ∃ t, exec (.process n) s = .next t ∧ t = afterProcess .success { s with mem := t.mem }
          ∧ ∀ x, byteOf t.mem x = stored (byteOf s.mem) (bufAddr s enc.offset) (gcmCipherRef ek nr iv C) x)
      ∧ (blk (bufAt s auth.inject.toNat 16) ≠ gcmTagRef ek nr iv A C →
          exec (.process n) s = .next (afterProcess .authenticationFailure s))

/-- 47 R302 to R311: a PROCESS that fails one of the checks V1 to V8 posts InvalidArgument and has no side effect: no
memory, no session and no register but the status changes. -/
def Obligations.ProcessInvalid : Prop :=
  ∀ (n : Nat) (s : State), chainOk s 64 n = true → Malformed n s →
    exec (.process n) s = .next (afterProcess .invalidArgument s)

/-- 44 R213, 47 R316, R312 (e), 45 R263, 20 R62, R64: a valid GCM operation with a region longer than STAGE_CAP posts
ResourceExhausted without side effects. Refused are: a chain the bus does not answer, a valid operation on a CBC or
XTS session, a generating encryption with the counter at 2^64 - 1, and a valid GCM operation of which the bus does not
answer the payload, the AAD, the IV, the tag or the output (log 7; an empty region past 2^64 is no access: log 15). -/
def Obligations.ProcessExhaustedOrRefused : Prop :=
  ∀ (n : Nat) (s : State) (enc auth : DEntry),
    (chainOk s 64 n = false → RefusesAccess (exec (.process n) s))
      ∧ (CbcXtsChecks n s enc → exec (.process n) s = .refused .cbcXtsDataPath)
      ∧ (GcmChain n s enc auth → GcmChecks s enc auth → (GivenIvOk s enc ∨ GeneratedIvOk s enc) →
          (¬StagingFits s enc auth → exec (.process n) s = .next (afterProcess .resourceExhausted s))
            ∧ (StagingFits s enc auth → ¬StagedOk s enc auth → RefusesAccess (exec (.process n) s))
            ∧ (StagingFits s enc auth → StagedOk s enc auth → GeneratedIvOk s enc →
                (sessionOf s).counter.toNat = 2 ^ 64 - 1 → exec (.process n) s = .refused .counterExhausted)
            ∧ (StagingFits s enc auth → ¬RegionsOk s enc auth →
                (GivenIvOk s enc ∨ (sessionOf s).counter.toNat ≠ 2 ^ 64 - 1) →
                RefusesAccess (exec (.process n) s)))

/-- 47 R326 (d), R333, 20 R81: whatever a PROCESS with a GCM chain does, it changes no byte of memory outside the
output, the tag and, on a generating encryption, the IV; no slot but the session's own, and of that only the counter;
on decrypt neither tag nor IV bytes nor any slot; and without Success no byte at all. -/
def Obligations.ProcessFrame : Prop :=
  ∀ (n : Nat) (s t : State) (enc auth : DEntry), Canonical s → GcmChain n s enc auth →
    exec (.process n) s = .next t →
    (∀ x, byteOf t.mem x ≠ byteOf s.mem x →
        t.regs.code = .success
          ∧ ((bufAddr s enc.offset ≤ x ∧ x < bufAddr s enc.offset + enc.length.toNat)
              ∨ (isEncrypt enc = true ∧ bufAddr s auth.inject ≤ x ∧ x < bufAddr s auth.inject + 16)
              ∨ (ivGenerated enc = true ∧ bufAddr s enc.inject ≤ x ∧ x < bufAddr s enc.inject + 12)))
      ∧ (∀ k, k ≠ s.regs.sid.toNat ∨ ivGenerated enc = false → slotOf t.slots k = slotOf s.slots k)
      ∧ (∃ c, slotOf t.slots s.regs.sid.toNat = { sessionOf s with counter := c })
      ∧ t.cap = s.cap

/-- 46 R288, R278, R281: for every schedule, IV, AAD and payload, decrypting what GCMENC left in S.O under the tag it
left in TAG succeeds and gives the payload back, whatever else stands in the working registers (another round count:
log 9; an empty IV: log 12; those free values are functions of their operands). -/
def Obligations.GcmRoundTrip : Prop :=
  ∀ (s : State) (j : BitVec 32) (w : Work) (o : List Byte),
    let e := gcmEnc j s
    e.authOk = true ∧
      ∃ t, gcmDec j { s with
                        stage := { s.stage with d := e.stage.o, o := o }, work := { w with tagin := e.work.tag } }
            = .ok t
        ∧ t.authOk = true ∧ outputOf t.stage = payloadOf s.stage

/-- 20 R69, R81: no instruction but PROCESS, IVDERIVE and WRBACK changes a byte of memory. -/
def Obligations.OthersLeaveMemory : Prop :=
  ∀ (i : Instr) (s t : State), (∀ n, i ≠ .process n) → i ≠ .ivderive → i ≠ .wrback → exec i s = .next t →
    ∀ x, byteOf t.mem x = byteOf s.mem x

/-- 70 R385, R386: from reset, whatever the host has put into the registers and memory and whatever the context
provider answers (log 8), PROCESS posts InvalidArgument, so does FREESESSION when `INIT_CAP` is 1, and a NEWSESSION
that succeeds returns id 1. -/
def Obligations.FirstCommandAfterReset : Prop :=
  ∀ (c : Config) (r : Regs) (m : List Host.Cell) (answers : List Handle) (n : Nat) (t : State), c.wf = true →
    let s := { State.resetWith c with regs := r, mem := m, provider := answers }
    (exec (.process n) s = .next t → t.regs.code = .invalidArgument)
      ∧ (c.initCap = 1 → exec .freesession s = .next t → t.regs.code = .invalidArgument)
      ∧ (exec (.newsession n) s = .next t → t.regs.code = .success → t.regs.sid = 1 ∧ (slotOf t.slots 1).used = true)
end

