-- ==== Sys2Proof/Laws/Cells.lean ====
section
/-! SUPPORT. Read after write, and the canonical form, for sparse arrays and for host memory. -/

namespace Sys2Proof.Machine

variable {α : Type} [DecidableEq α] {d : α}

theorem cellsWf_cons {hi lo k : Nat} {x : α} {rest : List (Nat × α)} :
    cellsWf d hi lo ((k, x) :: rest) = true ↔ lo ≤ k ∧ k < hi ∧ x ≠ d ∧ cellsWf d hi (k + 1) rest = true := by
  simp [cellsWf, and_assoc]

theorem cellsWf_mono {hi lo lo' : Nat} {l : List (Nat × α)} (h : lo' ≤ lo) (hw : cellsWf d hi lo l = true) :
    cellsWf d hi lo' l = true := by
  cases l with
  | nil => rfl
  | cons p rest =>
    obtain ⟨k, x⟩ := p
    rw [cellsWf_cons] at hw ⊢
    exact ⟨by omega, hw.2⟩

/-- Below the first index a canonical list reads as the default. -/
theorem cellRead_below {hi lo a : Nat} {l : List (Nat × α)} (hw : cellsWf d hi lo l = true) (h : a < lo) :
    cellRead d l a = d := by
  induction l generalizing lo with
  | nil => rfl
  | cons p rest ih =>
    obtain ⟨k, x⟩ := p
    rw [cellsWf_cons] at hw
    rw [cellRead, if_neg (by omega)]
    exact ih hw.2.2.2 (by omega)

theorem cellRead_cellWrite_same {hi lo : Nat} {l : List (Nat × α)} (hw : cellsWf d hi lo l = true) (a : Nat) (v : α) :
    cellRead d (cellWrite d l a v) a = v := by
  induction l generalizing lo with
  | nil =>
    by_cases h : v = d <;> simp [cellWrite, cellRead, h]
  | cons p rest ih =>
    obtain ⟨k, x⟩ := p
    have hw' := cellsWf_cons.1 hw
    rcases Nat.lt_trichotomy a k with h | h | h
    · by_cases hv : v = d
      · rw [cellWrite, if_pos h, if_pos hv, cellRead_below (lo := k) (hi := hi) _ h, hv]
        exact cellsWf_cons.2 ⟨le_rfl, hw'.2⟩
      · rw [cellWrite, if_pos h, if_neg hv, cellRead, if_pos rfl]
    · by_cases hv : v = d
      · rw [cellWrite, if_neg (by omega), if_pos h, if_pos hv, cellRead_below hw'.2.2.2 (by omega), hv]
      · rw [cellWrite, if_neg (by omega), if_pos h, if_neg hv, cellRead, if_pos rfl]
    · rw [cellWrite, if_neg (by omega), if_neg (by omega), cellRead, if_neg (by omega)]
      exact ih hw'.2.2.2

theorem cellRead_cellWrite_other (l : List (Nat × α)) {a b : Nat} (h : b ≠ a) (v : α) :
    cellRead d (cellWrite d l a v) b = cellRead d l b := by
  induction l with
  | nil => by_cases hv : v = d <;> simp [cellWrite, cellRead, hv, h]
  | cons p rest ih =>
    obtain ⟨k, x⟩ := p
    rcases Nat.lt_trichotomy a k with h1 | h1 | h1
    · by_cases hv : v = d
      · rw [cellWrite, if_pos h1, if_pos hv]
      · rw [cellWrite, if_pos h1, if_neg hv, cellRead, if_neg h]
    · subst h1
      by_cases hv : v = d
      · rw [cellWrite, if_neg (by omega), if_pos rfl, if_pos hv, cellRead, if_neg h]
      · rw [cellWrite, if_neg (by omega), if_pos rfl, if_neg hv, cellRead, if_neg h, cellRead, if_neg h]
    · rw [cellWrite, if_neg (by omega), if_neg (by omega), cellRead, cellRead, ih]

/-- Every write keeps the canonical form. -/
theorem cellWrite_keeps_wf {hi lo a : Nat} {l : List (Nat × α)} (hw : cellsWf d hi lo l = true) (h1 : lo ≤ a)
    (h2 : a < hi) (v : α) : cellsWf d hi lo (cellWrite d l a v) = true := by
  induction l generalizing lo with
  | nil =>
    by_cases hv : v = d
    · simp [cellWrite, hv, cellsWf]
    · simp [cellWrite, hv, cellsWf, h1, h2]
  | cons p rest ih =>
    obtain ⟨k, x⟩ := p
    have hw' := cellsWf_cons.1 hw
    rcases Nat.lt_trichotomy a k with h | h | h
    · by_cases hv : v = d
      · rw [cellWrite, if_pos h, if_pos hv]
        exact hw
      · rw [cellWrite, if_pos h, if_neg hv, cellsWf_cons]
        exact ⟨h1, h2, hv, cellsWf_cons.2 ⟨h, hw'.2⟩⟩
    · by_cases hv : v = d
      · rw [cellWrite, if_neg (by omega), if_pos h, if_pos hv]
        exact cellsWf_mono (by omega) hw'.2.2.2
      · rw [cellWrite, if_neg (by omega), if_pos h, if_neg hv, cellsWf_cons]
        exact ⟨h1, h2, hv, h ▸ hw'.2.2.2⟩
    · rw [cellWrite, if_neg (by omega), if_neg (by omega), cellsWf_cons]
      exact ⟨hw'.1, hw'.2.1, hw'.2.2.1, ih hw'.2.2.2 (by omega)⟩

/-! ### Host memory -/

theorem readBytes_length (m : List Host.Cell) (a n : Nat) : (readBytes m a n).length = n := by
  simp [readBytes]

theorem writeBytes_keeps_wf {m : List Host.Cell} (hw : Memory.wf m = true) (a : Nat) (B : List Byte)
    (h : a + B.length ≤ 2 ^ 64) : Memory.wf (writeBytes m a B) = true := by
  induction B generalizing m a with
  | nil => exact hw
  | cons b rest ih =>
    simp only [List.length_cons] at h
    exact ih (cellWrite_keeps_wf hw (Nat.zero_le a) (by omega) b) (a + 1) (by omega)

/-- A byte outside the stored region keeps its value (20 R63). -/
theorem byteOf_writeBytes_outside (m : List Host.Cell) (a : Nat) (B : List Byte) {x : Nat}
    (h : x < a ∨ a + B.length ≤ x) : byteOf (writeBytes m a B) x = byteOf m x := by
  induction B generalizing m a with
  | nil => rfl
  | cons b rest ih =>
    simp only [List.length_cons] at h
    rw [writeBytes, ih _ _ (by omega)]
    exact cellRead_cellWrite_other m (by omega) b

/-- A stored byte reads back (20 R63). -/
theorem byteOf_writeBytes_inside {m : List Host.Cell} (hw : Memory.wf m = true) (a : Nat) (B : List Byte)
    (hb : a + B.length ≤ 2 ^ 64) {i : Nat} (h : i < B.length) :
    byteOf (writeBytes m a B) (a + i) = byteAt B i := by
  induction B generalizing m a i with
  | nil => simp at h
  | cons b rest ih =>
    simp only [List.length_cons] at h hb
    have hw' : Memory.wf (cellWrite unlistedByte m a b) = true :=
      cellWrite_keeps_wf hw (Nat.zero_le a) (by omega) b
    cases i with
    | zero =>
      rw [writeBytes, byteOf_writeBytes_outside _ _ _ (by omega)]
      exact cellRead_cellWrite_same hw a b
    | succ i =>
      have := ih hw' (a + 1) (by omega) (i := i) (by omega)
      rw [writeBytes, show a + (i + 1) = a + 1 + i by omega, this]
      rfl

theorem slotOf_cellWrite_same {sl : List (Nat × Slot)} {hi : Nat} (hw : cellsWf Slot.zero hi 0 sl = true) (j : Nat)
    (v : Slot) : slotOf (cellWrite Slot.zero sl j v) j = v := cellRead_cellWrite_same hw j v

theorem slotOf_cellWrite_other (sl : List (Nat × Slot)) {j k : Nat} (h : k ≠ j) (v : Slot) :
    slotOf (cellWrite Slot.zero sl j v) k = slotOf sl k := cellRead_cellWrite_other sl h v

end Sys2Proof.Machine
end

