-- ==== Sys2Proof/Laws/State.lean ====
section
/-! SUPPORT. What each named update of the state does to each field: one lemma per field per update, true by `rfl`, so
that no proof unfolds a record update. -/

namespace Sys2Proof.Machine

variable (s : State)

@[simp] theorem complete_work (e : Status) : (complete e s).work = s.work := rfl
@[simp] theorem complete_phase (e : Status) : (complete e s).phase = s.phase := rfl
@[simp] theorem complete_authOk (e : Status) : (complete e s).authOk = s.authOk := rfl
@[simp] theorem complete_ctxActive (e : Status) : (complete e s).ctxActive = s.ctxActive := rfl
@[simp] theorem complete_regs (e : Status) : (complete e s).regs = { s.regs with code := e, busy := false, done := true } := rfl
@[simp] theorem complete_cap (e : Status) : (complete e s).cap = s.cap := rfl
@[simp] theorem complete_slots (e : Status) : (complete e s).slots = s.slots := rfl
@[simp] theorem complete_stage (e : Status) : (complete e s).stage = s.stage := rfl
@[simp] theorem complete_chain (e : Status) : (complete e s).chain = s.chain := rfl
@[simp] theorem complete_keys (e : Status) : (complete e s).keys = s.keys := rfl
@[simp] theorem complete_ports (e : Status) : (complete e s).ports = s.ports := rfl
@[simp] theorem complete_bus (e : Status) : (complete e s).bus = s.bus := rfl
@[simp] theorem complete_inputs (e : Status) : (complete e s).inputs = s.inputs := rfl
@[simp] theorem complete_rdata (e : Status) : (complete e s).rdata = s.rdata := rfl
@[simp] theorem complete_owned (e : Status) : (complete e s).owned = s.owned := rfl
@[simp] theorem complete_provider (e : Status) : (complete e s).provider = s.provider := rfl
@[simp] theorem complete_draws (e : Status) : (complete e s).draws = s.draws := rfl
@[simp] theorem complete_cfg (e : Status) : (complete e s).cfg = s.cfg := rfl
@[simp] theorem complete_mem (e : Status) : (complete e s).mem = s.mem := rfl

@[simp] theorem setBusy_work : (setBusy s).work = s.work := rfl
@[simp] theorem setBusy_phase : (setBusy s).phase = s.phase := rfl
@[simp] theorem setBusy_authOk : (setBusy s).authOk = s.authOk := rfl
@[simp] theorem setBusy_ctxActive : (setBusy s).ctxActive = s.ctxActive := rfl
@[simp] theorem setBusy_regs : (setBusy s).regs = { s.regs with busy := true } := rfl
@[simp] theorem setBusy_cap : (setBusy s).cap = s.cap := rfl
@[simp] theorem setBusy_slots : (setBusy s).slots = s.slots := rfl
@[simp] theorem setBusy_stage : (setBusy s).stage = s.stage := rfl
@[simp] theorem setBusy_chain : (setBusy s).chain = s.chain := rfl
@[simp] theorem setBusy_keys : (setBusy s).keys = s.keys := rfl
@[simp] theorem setBusy_ports : (setBusy s).ports = s.ports := rfl
@[simp] theorem setBusy_bus : (setBusy s).bus = s.bus := rfl
@[simp] theorem setBusy_inputs : (setBusy s).inputs = s.inputs := rfl
@[simp] theorem setBusy_rdata : (setBusy s).rdata = s.rdata := rfl
@[simp] theorem setBusy_owned : (setBusy s).owned = s.owned := rfl
@[simp] theorem setBusy_provider : (setBusy s).provider = s.provider := rfl
@[simp] theorem setBusy_draws : (setBusy s).draws = s.draws := rfl
@[simp] theorem setBusy_cfg : (setBusy s).cfg = s.cfg := rfl
@[simp] theorem setBusy_mem : (setBusy s).mem = s.mem := rfl

@[simp] theorem acknowledge_work : (acknowledge s).work = s.work := rfl
@[simp] theorem acknowledge_phase : (acknowledge s).phase = s.phase := rfl
@[simp] theorem acknowledge_authOk : (acknowledge s).authOk = s.authOk := rfl
@[simp] theorem acknowledge_ctxActive : (acknowledge s).ctxActive = s.ctxActive := rfl
@[simp] theorem acknowledge_regs : (acknowledge s).regs = { s.regs with done := false } := rfl
@[simp] theorem acknowledge_cap : (acknowledge s).cap = s.cap := rfl
@[simp] theorem acknowledge_slots : (acknowledge s).slots = s.slots := rfl
@[simp] theorem acknowledge_stage : (acknowledge s).stage = s.stage := rfl
@[simp] theorem acknowledge_chain : (acknowledge s).chain = s.chain := rfl
@[simp] theorem acknowledge_keys : (acknowledge s).keys = s.keys := rfl
@[simp] theorem acknowledge_ports : (acknowledge s).ports = s.ports := rfl
@[simp] theorem acknowledge_bus : (acknowledge s).bus = s.bus := rfl
@[simp] theorem acknowledge_inputs : (acknowledge s).inputs = s.inputs := rfl
@[simp] theorem acknowledge_rdata : (acknowledge s).rdata = s.rdata := rfl
@[simp] theorem acknowledge_owned : (acknowledge s).owned = s.owned := rfl
@[simp] theorem acknowledge_provider : (acknowledge s).provider = s.provider := rfl
@[simp] theorem acknowledge_draws : (acknowledge s).draws = s.draws := rfl
@[simp] theorem acknowledge_cfg : (acknowledge s).cfg = s.cfg := rfl
@[simp] theorem acknowledge_mem : (acknowledge s).mem = s.mem := rfl

@[simp] theorem setAuthOk_work (v : Bool) : (setAuthOk v s).work = s.work := rfl
@[simp] theorem setAuthOk_phase (v : Bool) : (setAuthOk v s).phase = s.phase := rfl
@[simp] theorem setAuthOk_authOk (v : Bool) : (setAuthOk v s).authOk = v := rfl
@[simp] theorem setAuthOk_ctxActive (v : Bool) : (setAuthOk v s).ctxActive = s.ctxActive := rfl
@[simp] theorem setAuthOk_regs (v : Bool) : (setAuthOk v s).regs = s.regs := rfl
@[simp] theorem setAuthOk_cap (v : Bool) : (setAuthOk v s).cap = s.cap := rfl
@[simp] theorem setAuthOk_slots (v : Bool) : (setAuthOk v s).slots = s.slots := rfl
@[simp] theorem setAuthOk_stage (v : Bool) : (setAuthOk v s).stage = s.stage := rfl
@[simp] theorem setAuthOk_chain (v : Bool) : (setAuthOk v s).chain = s.chain := rfl
@[simp] theorem setAuthOk_keys (v : Bool) : (setAuthOk v s).keys = s.keys := rfl
@[simp] theorem setAuthOk_ports (v : Bool) : (setAuthOk v s).ports = s.ports := rfl
@[simp] theorem setAuthOk_bus (v : Bool) : (setAuthOk v s).bus = s.bus := rfl
@[simp] theorem setAuthOk_inputs (v : Bool) : (setAuthOk v s).inputs = s.inputs := rfl
@[simp] theorem setAuthOk_rdata (v : Bool) : (setAuthOk v s).rdata = s.rdata := rfl
@[simp] theorem setAuthOk_owned (v : Bool) : (setAuthOk v s).owned = s.owned := rfl
@[simp] theorem setAuthOk_provider (v : Bool) : (setAuthOk v s).provider = s.provider := rfl
@[simp] theorem setAuthOk_draws (v : Bool) : (setAuthOk v s).draws = s.draws := rfl
@[simp] theorem setAuthOk_cfg (v : Bool) : (setAuthOk v s).cfg = s.cfg := rfl
@[simp] theorem setAuthOk_mem (v : Bool) : (setAuthOk v s).mem = s.mem := rfl

@[simp] theorem setCtxActive_work (v : Bool) : (setCtxActive v s).work = s.work := rfl
@[simp] theorem setCtxActive_phase (v : Bool) : (setCtxActive v s).phase = s.phase := rfl
@[simp] theorem setCtxActive_authOk (v : Bool) : (setCtxActive v s).authOk = s.authOk := rfl
@[simp] theorem setCtxActive_ctxActive (v : Bool) : (setCtxActive v s).ctxActive = v := rfl
@[simp] theorem setCtxActive_regs (v : Bool) : (setCtxActive v s).regs = s.regs := rfl
@[simp] theorem setCtxActive_cap (v : Bool) : (setCtxActive v s).cap = s.cap := rfl
@[simp] theorem setCtxActive_slots (v : Bool) : (setCtxActive v s).slots = s.slots := rfl
@[simp] theorem setCtxActive_stage (v : Bool) : (setCtxActive v s).stage = s.stage := rfl
@[simp] theorem setCtxActive_chain (v : Bool) : (setCtxActive v s).chain = s.chain := rfl
@[simp] theorem setCtxActive_keys (v : Bool) : (setCtxActive v s).keys = s.keys := rfl
@[simp] theorem setCtxActive_ports (v : Bool) : (setCtxActive v s).ports = s.ports := rfl
@[simp] theorem setCtxActive_bus (v : Bool) : (setCtxActive v s).bus = s.bus := rfl
@[simp] theorem setCtxActive_inputs (v : Bool) : (setCtxActive v s).inputs = s.inputs := rfl
@[simp] theorem setCtxActive_rdata (v : Bool) : (setCtxActive v s).rdata = s.rdata := rfl
@[simp] theorem setCtxActive_owned (v : Bool) : (setCtxActive v s).owned = s.owned := rfl
@[simp] theorem setCtxActive_provider (v : Bool) : (setCtxActive v s).provider = s.provider := rfl
@[simp] theorem setCtxActive_draws (v : Bool) : (setCtxActive v s).draws = s.draws := rfl
@[simp] theorem setCtxActive_cfg (v : Bool) : (setCtxActive v s).cfg = s.cfg := rfl
@[simp] theorem setCtxActive_mem (v : Bool) : (setCtxActive v s).mem = s.mem := rfl

@[simp] theorem setPhase_work (p : Phase) : (setPhase p s).work = s.work := rfl
@[simp] theorem setPhase_phase (p : Phase) : (setPhase p s).phase = p := rfl
@[simp] theorem setPhase_authOk (p : Phase) : (setPhase p s).authOk = s.authOk := rfl
@[simp] theorem setPhase_ctxActive (p : Phase) : (setPhase p s).ctxActive = s.ctxActive := rfl
@[simp] theorem setPhase_regs (p : Phase) : (setPhase p s).regs = s.regs := rfl
@[simp] theorem setPhase_cap (p : Phase) : (setPhase p s).cap = s.cap := rfl
@[simp] theorem setPhase_slots (p : Phase) : (setPhase p s).slots = s.slots := rfl
@[simp] theorem setPhase_stage (p : Phase) : (setPhase p s).stage = s.stage := rfl
@[simp] theorem setPhase_chain (p : Phase) : (setPhase p s).chain = s.chain := rfl
@[simp] theorem setPhase_keys (p : Phase) : (setPhase p s).keys = s.keys := rfl
@[simp] theorem setPhase_ports (p : Phase) : (setPhase p s).ports = s.ports := rfl
@[simp] theorem setPhase_bus (p : Phase) : (setPhase p s).bus = s.bus := rfl
@[simp] theorem setPhase_inputs (p : Phase) : (setPhase p s).inputs = s.inputs := rfl
@[simp] theorem setPhase_rdata (p : Phase) : (setPhase p s).rdata = s.rdata := rfl
@[simp] theorem setPhase_owned (p : Phase) : (setPhase p s).owned = s.owned := rfl
@[simp] theorem setPhase_provider (p : Phase) : (setPhase p s).provider = s.provider := rfl
@[simp] theorem setPhase_draws (p : Phase) : (setPhase p s).draws = s.draws := rfl
@[simp] theorem setPhase_cfg (p : Phase) : (setPhase p s).cfg = s.cfg := rfl
@[simp] theorem setPhase_mem (p : Phase) : (setPhase p s).mem = s.mem := rfl

@[simp] theorem setSid_work (v : BitVec 32) : (setSid v s).work = s.work := rfl
@[simp] theorem setSid_phase (v : BitVec 32) : (setSid v s).phase = s.phase := rfl
@[simp] theorem setSid_authOk (v : BitVec 32) : (setSid v s).authOk = s.authOk := rfl
@[simp] theorem setSid_ctxActive (v : BitVec 32) : (setSid v s).ctxActive = s.ctxActive := rfl
@[simp] theorem setSid_regs (v : BitVec 32) : (setSid v s).regs = { s.regs with sid := v } := rfl
@[simp] theorem setSid_cap (v : BitVec 32) : (setSid v s).cap = s.cap := rfl
@[simp] theorem setSid_slots (v : BitVec 32) : (setSid v s).slots = s.slots := rfl
@[simp] theorem setSid_stage (v : BitVec 32) : (setSid v s).stage = s.stage := rfl
@[simp] theorem setSid_chain (v : BitVec 32) : (setSid v s).chain = s.chain := rfl
@[simp] theorem setSid_keys (v : BitVec 32) : (setSid v s).keys = s.keys := rfl
@[simp] theorem setSid_ports (v : BitVec 32) : (setSid v s).ports = s.ports := rfl
@[simp] theorem setSid_bus (v : BitVec 32) : (setSid v s).bus = s.bus := rfl
@[simp] theorem setSid_inputs (v : BitVec 32) : (setSid v s).inputs = s.inputs := rfl
@[simp] theorem setSid_rdata (v : BitVec 32) : (setSid v s).rdata = s.rdata := rfl
@[simp] theorem setSid_owned (v : BitVec 32) : (setSid v s).owned = s.owned := rfl
@[simp] theorem setSid_provider (v : BitVec 32) : (setSid v s).provider = s.provider := rfl
@[simp] theorem setSid_draws (v : BitVec 32) : (setSid v s).draws = s.draws := rfl
@[simp] theorem setSid_cfg (v : BitVec 32) : (setSid v s).cfg = s.cfg := rfl
@[simp] theorem setSid_mem (v : BitVec 32) : (setSid v s).mem = s.mem := rfl

@[simp] theorem putSlot_work (j : BitVec 32) (v : Slot) : (putSlot j v s).work = s.work := rfl
@[simp] theorem putSlot_phase (j : BitVec 32) (v : Slot) : (putSlot j v s).phase = s.phase := rfl
@[simp] theorem putSlot_authOk (j : BitVec 32) (v : Slot) : (putSlot j v s).authOk = s.authOk := rfl
@[simp] theorem putSlot_ctxActive (j : BitVec 32) (v : Slot) : (putSlot j v s).ctxActive = s.ctxActive := rfl
@[simp] theorem putSlot_regs (j : BitVec 32) (v : Slot) : (putSlot j v s).regs = s.regs := rfl
@[simp] theorem putSlot_cap (j : BitVec 32) (v : Slot) : (putSlot j v s).cap = s.cap := rfl
@[simp] theorem putSlot_slots (j : BitVec 32) (v : Slot) : (putSlot j v s).slots = cellWrite Slot.zero s.slots j.toNat v := rfl
@[simp] theorem putSlot_stage (j : BitVec 32) (v : Slot) : (putSlot j v s).stage = s.stage := rfl
@[simp] theorem putSlot_chain (j : BitVec 32) (v : Slot) : (putSlot j v s).chain = s.chain := rfl
@[simp] theorem putSlot_keys (j : BitVec 32) (v : Slot) : (putSlot j v s).keys = s.keys := rfl
@[simp] theorem putSlot_ports (j : BitVec 32) (v : Slot) : (putSlot j v s).ports = s.ports := rfl
@[simp] theorem putSlot_bus (j : BitVec 32) (v : Slot) : (putSlot j v s).bus = s.bus := rfl
@[simp] theorem putSlot_inputs (j : BitVec 32) (v : Slot) : (putSlot j v s).inputs = s.inputs := rfl
@[simp] theorem putSlot_rdata (j : BitVec 32) (v : Slot) : (putSlot j v s).rdata = s.rdata := rfl
@[simp] theorem putSlot_owned (j : BitVec 32) (v : Slot) : (putSlot j v s).owned = s.owned := rfl
@[simp] theorem putSlot_provider (j : BitVec 32) (v : Slot) : (putSlot j v s).provider = s.provider := rfl
@[simp] theorem putSlot_draws (j : BitVec 32) (v : Slot) : (putSlot j v s).draws = s.draws := rfl
@[simp] theorem putSlot_cfg (j : BitVec 32) (v : Slot) : (putSlot j v s).cfg = s.cfg := rfl
@[simp] theorem putSlot_mem (j : BitVec 32) (v : Slot) : (putSlot j v s).mem = s.mem := rfl

@[simp] theorem scrub_work : (scrub s).work = Work.zero := rfl
@[simp] theorem scrub_phase : (scrub s).phase = s.phase := rfl
@[simp] theorem scrub_authOk : (scrub s).authOk = false := rfl
@[simp] theorem scrub_ctxActive : (scrub s).ctxActive = false := rfl
@[simp] theorem scrub_regs : (scrub s).regs = s.regs := rfl
@[simp] theorem scrub_cap : (scrub s).cap = s.cap := rfl
@[simp] theorem scrub_slots : (scrub s).slots = s.slots := rfl
@[simp] theorem scrub_stage : (scrub s).stage = Staging.zero := rfl
@[simp] theorem scrub_chain : (scrub s).chain = ChainLatch.zero := rfl
@[simp] theorem scrub_keys : (scrub s).keys = s.keys := rfl
@[simp] theorem scrub_ports : (scrub s).ports = s.ports := rfl
@[simp] theorem scrub_bus : (scrub s).bus = s.bus := rfl
@[simp] theorem scrub_inputs : (scrub s).inputs = s.inputs := rfl
@[simp] theorem scrub_rdata : (scrub s).rdata = s.rdata := rfl
@[simp] theorem scrub_owned : (scrub s).owned = s.owned := rfl
@[simp] theorem scrub_provider : (scrub s).provider = s.provider := rfl
@[simp] theorem scrub_draws : (scrub s).draws = s.draws := rfl
@[simp] theorem scrub_cfg : (scrub s).cfg = s.cfg := rfl
@[simp] theorem scrub_mem : (scrub s).mem = s.mem := rfl

@[simp] theorem setResult_work (r : Block) : (setResult r s).work = s.work := rfl
@[simp] theorem setResult_phase (r : Block) : (setResult r s).phase = s.phase := rfl
@[simp] theorem setResult_authOk (r : Block) : (setResult r s).authOk = s.authOk := rfl
@[simp] theorem setResult_ctxActive (r : Block) : (setResult r s).ctxActive = s.ctxActive := rfl
@[simp] theorem setResult_regs (r : Block) : (setResult r s).regs = s.regs := rfl
@[simp] theorem setResult_cap (r : Block) : (setResult r s).cap = s.cap := rfl
@[simp] theorem setResult_slots (r : Block) : (setResult r s).slots = s.slots := rfl
@[simp] theorem setResult_stage (r : Block) : (setResult r s).stage = s.stage := rfl
@[simp] theorem setResult_chain (r : Block) : (setResult r s).chain = s.chain := rfl
@[simp] theorem setResult_keys (r : Block) : (setResult r s).keys = s.keys := rfl
@[simp] theorem setResult_ports (r : Block) : (setResult r s).ports = { s.ports with r := r } := rfl
@[simp] theorem setResult_bus (r : Block) : (setResult r s).bus = s.bus := rfl
@[simp] theorem setResult_inputs (r : Block) : (setResult r s).inputs = s.inputs := rfl
@[simp] theorem setResult_rdata (r : Block) : (setResult r s).rdata = s.rdata := rfl
@[simp] theorem setResult_owned (r : Block) : (setResult r s).owned = s.owned := rfl
@[simp] theorem setResult_provider (r : Block) : (setResult r s).provider = s.provider := rfl
@[simp] theorem setResult_draws (r : Block) : (setResult r s).draws = s.draws := rfl
@[simp] theorem setResult_cfg (r : Block) : (setResult r s).cfg = s.cfg := rfl
@[simp] theorem setResult_mem (r : Block) : (setResult r s).mem = s.mem := rfl

@[simp] theorem setIndex_work (j : BitVec 32) : (setIndex j s).work = s.work := rfl
@[simp] theorem setIndex_phase (j : BitVec 32) : (setIndex j s).phase = s.phase := rfl
@[simp] theorem setIndex_authOk (j : BitVec 32) : (setIndex j s).authOk = s.authOk := rfl
@[simp] theorem setIndex_ctxActive (j : BitVec 32) : (setIndex j s).ctxActive = s.ctxActive := rfl
@[simp] theorem setIndex_regs (j : BitVec 32) : (setIndex j s).regs = s.regs := rfl
@[simp] theorem setIndex_cap (j : BitVec 32) : (setIndex j s).cap = s.cap := rfl
@[simp] theorem setIndex_slots (j : BitVec 32) : (setIndex j s).slots = s.slots := rfl
@[simp] theorem setIndex_stage (j : BitVec 32) : (setIndex j s).stage = s.stage := rfl
@[simp] theorem setIndex_chain (j : BitVec 32) : (setIndex j s).chain = s.chain := rfl
@[simp] theorem setIndex_keys (j : BitVec 32) : (setIndex j s).keys = s.keys := rfl
@[simp] theorem setIndex_ports (j : BitVec 32) : (setIndex j s).ports = { s.ports with j := j } := rfl
@[simp] theorem setIndex_bus (j : BitVec 32) : (setIndex j s).bus = s.bus := rfl
@[simp] theorem setIndex_inputs (j : BitVec 32) : (setIndex j s).inputs = s.inputs := rfl
@[simp] theorem setIndex_rdata (j : BitVec 32) : (setIndex j s).rdata = s.rdata := rfl
@[simp] theorem setIndex_owned (j : BitVec 32) : (setIndex j s).owned = s.owned := rfl
@[simp] theorem setIndex_provider (j : BitVec 32) : (setIndex j s).provider = s.provider := rfl
@[simp] theorem setIndex_draws (j : BitVec 32) : (setIndex j s).draws = s.draws := rfl
@[simp] theorem setIndex_cfg (j : BitVec 32) : (setIndex j s).cfg = s.cfg := rfl
@[simp] theorem setIndex_mem (j : BitVec 32) : (setIndex j s).mem = s.mem := rfl

@[simp] theorem setTagIn_work (v : Block) : (setTagIn v s).work = { s.work with tagin := v } := rfl
@[simp] theorem setTagIn_phase (v : Block) : (setTagIn v s).phase = s.phase := rfl
@[simp] theorem setTagIn_authOk (v : Block) : (setTagIn v s).authOk = s.authOk := rfl
@[simp] theorem setTagIn_ctxActive (v : Block) : (setTagIn v s).ctxActive = s.ctxActive := rfl
@[simp] theorem setTagIn_regs (v : Block) : (setTagIn v s).regs = s.regs := rfl
@[simp] theorem setTagIn_cap (v : Block) : (setTagIn v s).cap = s.cap := rfl
@[simp] theorem setTagIn_slots (v : Block) : (setTagIn v s).slots = s.slots := rfl
@[simp] theorem setTagIn_stage (v : Block) : (setTagIn v s).stage = s.stage := rfl
@[simp] theorem setTagIn_chain (v : Block) : (setTagIn v s).chain = s.chain := rfl
@[simp] theorem setTagIn_keys (v : Block) : (setTagIn v s).keys = s.keys := rfl
@[simp] theorem setTagIn_ports (v : Block) : (setTagIn v s).ports = s.ports := rfl
@[simp] theorem setTagIn_bus (v : Block) : (setTagIn v s).bus = s.bus := rfl
@[simp] theorem setTagIn_inputs (v : Block) : (setTagIn v s).inputs = s.inputs := rfl
@[simp] theorem setTagIn_rdata (v : Block) : (setTagIn v s).rdata = s.rdata := rfl
@[simp] theorem setTagIn_owned (v : Block) : (setTagIn v s).owned = s.owned := rfl
@[simp] theorem setTagIn_provider (v : Block) : (setTagIn v s).provider = s.provider := rfl
@[simp] theorem setTagIn_draws (v : Block) : (setTagIn v s).draws = s.draws := rfl
@[simp] theorem setTagIn_cfg (v : Block) : (setTagIn v s).cfg = s.cfg := rfl
@[simp] theorem setTagIn_mem (v : Block) : (setTagIn v s).mem = s.mem := rfl

@[simp] theorem setIv_work (B : List Byte) (n : BitVec 32) : (setIv B n s).work = s.work := rfl
@[simp] theorem setIv_phase (B : List Byte) (n : BitVec 32) : (setIv B n s).phase = Phase.execute := rfl
@[simp] theorem setIv_authOk (B : List Byte) (n : BitVec 32) : (setIv B n s).authOk = s.authOk := rfl
@[simp] theorem setIv_ctxActive (B : List Byte) (n : BitVec 32) : (setIv B n s).ctxActive = s.ctxActive := rfl
@[simp] theorem setIv_regs (B : List Byte) (n : BitVec 32) : (setIv B n s).regs = s.regs := rfl
@[simp] theorem setIv_cap (B : List Byte) (n : BitVec 32) : (setIv B n s).cap = s.cap := rfl
@[simp] theorem setIv_slots (B : List Byte) (n : BitVec 32) : (setIv B n s).slots = s.slots := rfl
@[simp] theorem setIv_stage (B : List Byte) (n : BitVec 32) : (setIv B n s).stage = { s.stage with iv := B, ivlen := n } := rfl
@[simp] theorem setIv_chain (B : List Byte) (n : BitVec 32) : (setIv B n s).chain = s.chain := rfl
@[simp] theorem setIv_keys (B : List Byte) (n : BitVec 32) : (setIv B n s).keys = s.keys := rfl
@[simp] theorem setIv_ports (B : List Byte) (n : BitVec 32) : (setIv B n s).ports = s.ports := rfl
@[simp] theorem setIv_bus (B : List Byte) (n : BitVec 32) : (setIv B n s).bus = s.bus := rfl
@[simp] theorem setIv_inputs (B : List Byte) (n : BitVec 32) : (setIv B n s).inputs = s.inputs := rfl
@[simp] theorem setIv_rdata (B : List Byte) (n : BitVec 32) : (setIv B n s).rdata = s.rdata := rfl
@[simp] theorem setIv_owned (B : List Byte) (n : BitVec 32) : (setIv B n s).owned = s.owned := rfl
@[simp] theorem setIv_provider (B : List Byte) (n : BitVec 32) : (setIv B n s).provider = s.provider := rfl
@[simp] theorem setIv_draws (B : List Byte) (n : BitVec 32) : (setIv B n s).draws = s.draws := rfl
@[simp] theorem setIv_cfg (B : List Byte) (n : BitVec 32) : (setIv B n s).cfg = s.cfg := rfl
@[simp] theorem setIv_mem (B : List Byte) (n : BitVec 32) : (setIv B n s).mem = s.mem := rfl

@[simp] theorem latchKey_work (t : Tag) (key : List Byte) : (latchKey t key s).work = s.work := rfl
@[simp] theorem latchKey_phase (t : Tag) (key : List Byte) : (latchKey t key s).phase = s.phase := rfl
@[simp] theorem latchKey_authOk (t : Tag) (key : List Byte) : (latchKey t key s).authOk = s.authOk := rfl
@[simp] theorem latchKey_ctxActive (t : Tag) (key : List Byte) : (latchKey t key s).ctxActive = s.ctxActive := rfl
@[simp] theorem latchKey_regs (t : Tag) (key : List Byte) : (latchKey t key s).regs = s.regs := rfl
@[simp] theorem latchKey_cap (t : Tag) (key : List Byte) : (latchKey t key s).cap = s.cap := rfl
@[simp] theorem latchKey_slots (t : Tag) (key : List Byte) : (latchKey t key s).slots = s.slots := rfl
@[simp] theorem latchKey_stage (t : Tag) (key : List Byte) : (latchKey t key s).stage = s.stage := rfl
@[simp] theorem latchKey_chain (t : Tag) (key : List Byte) : (latchKey t key s).chain = s.chain := rfl
@[simp] theorem latchKey_keys (t : Tag) (key : List Byte) : (latchKey t key s).keys = { s.keys with key := key, w := keyExpWords (dataKey t key) } := rfl
@[simp] theorem latchKey_ports (t : Tag) (key : List Byte) : (latchKey t key s).ports = s.ports := rfl
@[simp] theorem latchKey_bus (t : Tag) (key : List Byte) : (latchKey t key s).bus = s.bus := rfl
@[simp] theorem latchKey_inputs (t : Tag) (key : List Byte) : (latchKey t key s).inputs = s.inputs := rfl
@[simp] theorem latchKey_rdata (t : Tag) (key : List Byte) : (latchKey t key s).rdata = s.rdata := rfl
@[simp] theorem latchKey_owned (t : Tag) (key : List Byte) : (latchKey t key s).owned = s.owned := rfl
@[simp] theorem latchKey_provider (t : Tag) (key : List Byte) : (latchKey t key s).provider = s.provider := rfl
@[simp] theorem latchKey_draws (t : Tag) (key : List Byte) : (latchKey t key s).draws = s.draws := rfl
@[simp] theorem latchKey_cfg (t : Tag) (key : List Byte) : (latchKey t key s).cfg = s.cfg := rfl
@[simp] theorem latchKey_mem (t : Tag) (key : List Byte) : (latchKey t key s).mem = s.mem := rfl

@[simp] theorem claim_work (i : Instr) : (claim i s).work = s.work := rfl
@[simp] theorem claim_phase (i : Instr) : (claim i s).phase = s.phase := rfl
@[simp] theorem claim_authOk (i : Instr) : (claim i s).authOk = s.authOk := rfl
@[simp] theorem claim_ctxActive (i : Instr) : (claim i s).ctxActive = s.ctxActive := rfl
@[simp] theorem claim_regs (i : Instr) : (claim i s).regs = s.regs := rfl
@[simp] theorem claim_cap (i : Instr) : (claim i s).cap = s.cap := rfl
@[simp] theorem claim_slots (i : Instr) : (claim i s).slots = s.slots := rfl
@[simp] theorem claim_stage (i : Instr) : (claim i s).stage = s.stage := rfl
@[simp] theorem claim_chain (i : Instr) : (claim i s).chain = s.chain := rfl
@[simp] theorem claim_keys (i : Instr) : (claim i s).keys = s.keys := rfl
@[simp] theorem claim_ports (i : Instr) : (claim i s).ports = s.ports := rfl
@[simp] theorem claim_bus (i : Instr) : (claim i s).bus = s.bus := rfl
@[simp] theorem claim_inputs (i : Instr) : (claim i s).inputs = s.inputs := rfl
@[simp] theorem claim_rdata (i : Instr) : (claim i s).rdata = s.rdata := rfl
@[simp] theorem claim_owned (i : Instr) : (claim i s).owned = ownedBy i s ++ s.owned := rfl
@[simp] theorem claim_provider (i : Instr) : (claim i s).provider = s.provider := rfl
@[simp] theorem claim_draws (i : Instr) : (claim i s).draws = s.draws := rfl
@[simp] theorem claim_cfg (i : Instr) : (claim i s).cfg = s.cfg := rfl
@[simp] theorem claim_mem (i : Instr) : (claim i s).mem = s.mem := rfl

@[simp] theorem engineReset_work : (engineReset s).work = Work.zero := rfl
@[simp] theorem engineReset_phase : (engineReset s).phase = Phase.idle := rfl
@[simp] theorem engineReset_authOk : (engineReset s).authOk = false := rfl
@[simp] theorem engineReset_ctxActive : (engineReset s).ctxActive = false := rfl
@[simp] theorem engineReset_regs : (engineReset s).regs = Regs.zero := rfl
@[simp] theorem engineReset_cap : (engineReset s).cap = BitVec.ofNat 32 s.cfg.initCap := rfl
@[simp] theorem engineReset_slots : (engineReset s).slots = [] := rfl
@[simp] theorem engineReset_stage : (engineReset s).stage = Staging.zero := rfl
@[simp] theorem engineReset_chain : (engineReset s).chain = ChainLatch.zero := rfl
@[simp] theorem engineReset_keys : (engineReset s).keys = KeyLatch.zero := rfl
@[simp] theorem engineReset_ports : (engineReset s).ports = Ports.zero := rfl
@[simp] theorem engineReset_bus : (engineReset s).bus = none := rfl
@[simp] theorem engineReset_inputs : (engineReset s).inputs = s.inputs := rfl
@[simp] theorem engineReset_rdata : (engineReset s).rdata = s.rdata := rfl
@[simp] theorem engineReset_owned : (engineReset s).owned = [] := rfl
@[simp] theorem engineReset_provider : (engineReset s).provider = s.provider := rfl
@[simp] theorem engineReset_draws : (engineReset s).draws = s.draws := rfl
@[simp] theorem engineReset_cfg : (engineReset s).cfg = s.cfg := rfl
@[simp] theorem engineReset_mem : (engineReset s).mem = s.mem := rfl

@[simp] theorem release_regs (c : Command) : (release c s).regs = s.regs := by cases c <;> rfl
@[simp] theorem release_cap (c : Command) : (release c s).cap = s.cap := by cases c <;> rfl
@[simp] theorem release_slots (c : Command) : (release c s).slots = s.slots := by cases c <;> rfl
@[simp] theorem release_ports (c : Command) : (release c s).ports = s.ports := by cases c <;> rfl
@[simp] theorem release_bus (c : Command) : (release c s).bus = s.bus := by cases c <;> rfl
@[simp] theorem release_inputs (c : Command) : (release c s).inputs = s.inputs := by cases c <;> rfl
@[simp] theorem release_rdata (c : Command) : (release c s).rdata = s.rdata := by cases c <;> rfl
@[simp] theorem release_owned (c : Command) : (release c s).owned = s.owned := by cases c <;> rfl
@[simp] theorem release_provider (c : Command) : (release c s).provider = s.provider := by cases c <;> rfl
@[simp] theorem release_draws (c : Command) : (release c s).draws = s.draws := by cases c <;> rfl
@[simp] theorem release_cfg (c : Command) : (release c s).cfg = s.cfg := by cases c <;> rfl
@[simp] theorem release_mem (c : Command) : (release c s).mem = s.mem := by cases c <;> rfl
@[simp] theorem release_phase (c : Command) : (release c s).phase = .idle := by cases c <;> rfl

@[simp] theorem endCommand_cap (c : Command) : (endCommand c s).cap = s.cap := by cases c <;> rfl
@[simp] theorem takeError_cap (c : Command) (e : Status) : (takeError c e s).cap = s.cap := by cases c <;> rfl
@[simp] theorem afterLease_cap : (afterLease s).cap = s.cap := by unfold afterLease; split <;> rfl
@[simp] theorem endCommand_slots (c : Command) : (endCommand c s).slots = s.slots := by cases c <;> rfl
@[simp] theorem takeError_slots (c : Command) (e : Status) : (takeError c e s).slots = s.slots := by cases c <;> rfl
@[simp] theorem afterLease_slots : (afterLease s).slots = s.slots := by unfold afterLease; split <;> rfl
@[simp] theorem endCommand_ports (c : Command) : (endCommand c s).ports = s.ports := by cases c <;> rfl
@[simp] theorem takeError_ports (c : Command) (e : Status) : (takeError c e s).ports = s.ports := by cases c <;> rfl
@[simp] theorem afterLease_ports : (afterLease s).ports = s.ports := by unfold afterLease; split <;> rfl
@[simp] theorem endCommand_bus (c : Command) : (endCommand c s).bus = s.bus := by cases c <;> rfl
@[simp] theorem takeError_bus (c : Command) (e : Status) : (takeError c e s).bus = s.bus := by cases c <;> rfl
@[simp] theorem afterLease_bus : (afterLease s).bus = s.bus := by unfold afterLease; split <;> rfl
@[simp] theorem endCommand_inputs (c : Command) : (endCommand c s).inputs = s.inputs := by cases c <;> rfl
@[simp] theorem takeError_inputs (c : Command) (e : Status) : (takeError c e s).inputs = s.inputs := by cases c <;> rfl
@[simp] theorem afterLease_inputs : (afterLease s).inputs = s.inputs := by unfold afterLease; split <;> rfl
@[simp] theorem endCommand_rdata (c : Command) : (endCommand c s).rdata = s.rdata := by cases c <;> rfl
@[simp] theorem takeError_rdata (c : Command) (e : Status) : (takeError c e s).rdata = s.rdata := by cases c <;> rfl
@[simp] theorem afterLease_rdata : (afterLease s).rdata = s.rdata := by unfold afterLease; split <;> rfl
@[simp] theorem endCommand_owned (c : Command) : (endCommand c s).owned = s.owned := by cases c <;> rfl
@[simp] theorem takeError_owned (c : Command) (e : Status) : (takeError c e s).owned = s.owned := by cases c <;> rfl
@[simp] theorem afterLease_owned : (afterLease s).owned = s.owned := by unfold afterLease; split <;> rfl
@[simp] theorem endCommand_provider (c : Command) : (endCommand c s).provider = s.provider := by cases c <;> rfl
@[simp] theorem takeError_provider (c : Command) (e : Status) : (takeError c e s).provider = s.provider := by cases c <;> rfl
@[simp] theorem endCommand_draws (c : Command) : (endCommand c s).draws = s.draws := by cases c <;> rfl
@[simp] theorem takeError_draws (c : Command) (e : Status) : (takeError c e s).draws = s.draws := by cases c <;> rfl
@[simp] theorem endCommand_cfg (c : Command) : (endCommand c s).cfg = s.cfg := by cases c <;> rfl
@[simp] theorem takeError_cfg (c : Command) (e : Status) : (takeError c e s).cfg = s.cfg := by cases c <;> rfl
@[simp] theorem afterLease_cfg : (afterLease s).cfg = s.cfg := by unfold afterLease; split <;> rfl
@[simp] theorem endCommand_mem (c : Command) : (endCommand c s).mem = s.mem := by cases c <;> rfl
@[simp] theorem takeError_mem (c : Command) (e : Status) : (takeError c e s).mem = s.mem := by cases c <;> rfl
@[simp] theorem afterLease_mem : (afterLease s).mem = s.mem := by unfold afterLease; split <;> rfl
@[simp] theorem afterLease_work : (afterLease s).work = s.work := by unfold afterLease; split <;> rfl
@[simp] theorem afterLease_phase : (afterLease s).phase = s.phase := by unfold afterLease; split <;> rfl
@[simp] theorem afterLease_authOk : (afterLease s).authOk = s.authOk := by unfold afterLease; split <;> rfl
@[simp] theorem afterLease_ctxActive : (afterLease s).ctxActive = s.ctxActive := by unfold afterLease; split <;> rfl
@[simp] theorem afterLease_regs : (afterLease s).regs = s.regs := by unfold afterLease; split <;> rfl
@[simp] theorem afterLease_stage : (afterLease s).stage = s.stage := by unfold afterLease; split <;> rfl
@[simp] theorem afterLease_chain : (afterLease s).chain = s.chain := by unfold afterLease; split <;> rfl
@[simp] theorem afterLease_keys : (afterLease s).keys = s.keys := by unfold afterLease; split <;> rfl
@[simp] theorem endCommand_phase (c : Command) : (endCommand c s).phase = .idle := by cases c <;> rfl
@[simp] theorem takeError_phase (c : Command) (e : Status) : (takeError c e s).phase = .idle := by cases c <;> rfl
@[simp] theorem endCommand_regs (c : Command) :
    (endCommand c s).regs = { s.regs with code := .success, busy := false, done := true } := by cases c <;> rfl
@[simp] theorem takeError_regs (c : Command) (e : Status) :
    (takeError c e s).regs
      = { s.regs with sid := if c = .newSession then 0 else s.regs.sid, code := e, busy := false, done := true } := by
  cases c <;> rfl

@[simp] theorem giveBack_work (off : Nat) : (giveBack off s).work = s.work := by unfold giveBack; split <;> rfl
@[simp] theorem giveBack_phase (off : Nat) : (giveBack off s).phase = s.phase := by unfold giveBack; split <;> rfl
@[simp] theorem giveBack_authOk (off : Nat) : (giveBack off s).authOk = s.authOk := by unfold giveBack; split <;> rfl
@[simp] theorem giveBack_ctxActive (off : Nat) : (giveBack off s).ctxActive = s.ctxActive := by unfold giveBack; split <;> rfl
@[simp] theorem giveBack_regs (off : Nat) : (giveBack off s).regs = s.regs := by unfold giveBack; split <;> rfl
@[simp] theorem giveBack_cap (off : Nat) : (giveBack off s).cap = s.cap := by unfold giveBack; split <;> rfl
@[simp] theorem giveBack_slots (off : Nat) : (giveBack off s).slots = s.slots := by unfold giveBack; split <;> rfl
@[simp] theorem giveBack_stage (off : Nat) : (giveBack off s).stage = s.stage := by unfold giveBack; split <;> rfl
@[simp] theorem giveBack_chain (off : Nat) : (giveBack off s).chain = s.chain := by unfold giveBack; split <;> rfl
@[simp] theorem giveBack_keys (off : Nat) : (giveBack off s).keys = s.keys := by unfold giveBack; split <;> rfl
@[simp] theorem giveBack_ports (off : Nat) : (giveBack off s).ports = s.ports := by unfold giveBack; split <;> rfl
@[simp] theorem giveBack_bus (off : Nat) : (giveBack off s).bus = s.bus := by unfold giveBack; split <;> rfl
@[simp] theorem giveBack_inputs (off : Nat) : (giveBack off s).inputs = s.inputs := by unfold giveBack; split <;> rfl
@[simp] theorem giveBack_rdata (off : Nat) : (giveBack off s).rdata = s.rdata := by unfold giveBack; split <;> rfl
@[simp] theorem giveBack_provider (off : Nat) : (giveBack off s).provider = s.provider := by unfold giveBack; split <;> rfl
@[simp] theorem giveBack_draws (off : Nat) : (giveBack off s).draws = s.draws := by unfold giveBack; split <;> rfl
@[simp] theorem giveBack_cfg (off : Nat) : (giveBack off s).cfg = s.cfg := by unfold giveBack; split <;> rfl
@[simp] theorem giveBack_mem (off : Nat) : (giveBack off s).mem = s.mem := by unfold giveBack; split <;> rfl
@[simp] theorem giveBack_owned (off : Nat) :
    (giveBack off s).owned = if off = 0x08 && s.regs.done then [] else s.owned := by unfold giveBack; split <;> rfl

@[simp] theorem getSlot_def (j : BitVec 32) : getSlot s j = slotOf s.slots j.toNat := rfl

end Sys2Proof.Machine
end

