-- ==== Sys2Proof/Laws/Host.lean ====
section
/-! SUPPORT. What a host access to memory can do, and which memory the engine owns (20_memory.md R73, 70 R392). -/

namespace Sys2Proof.Machine

variable (s : State)

/-- A region meets an access when some byte lies in both. -/
theorem Region.meets_iff (r : Region) (a n : Nat) :
    r.meets a n = true ↔ ∃ x, a ≤ x ∧ x < a + n ∧ r.base ≤ x ∧ x < r.base + r.size := by
  simp only [Region.meets, decide_eq_true_eq]
  exact ⟨fun h => ⟨max a r.base, by omega, by omega, by omega, by omega⟩, fun ⟨x, _⟩ => by omega⟩

/-- A store is barred exactly when it would write a byte of an owned region. -/
theorem storeBarred_iff (a n : Nat) :
    storeBarred s a n = true
      ↔ ∃ r ∈ s.owned, ∃ x, a ≤ x ∧ x < a + n ∧ r.base ≤ x ∧ x < r.base + r.size := by
  simp [storeBarred, Region.meets_iff]

/-- A load is barred exactly when it would read a byte of an owned buffer. -/
theorem loadBarred_iff (a n : Nat) :
    loadBarred s a n = true
      ↔ ∃ r ∈ s.owned, r.buffer = true ∧ ∃ x, a ≤ x ∧ x < a + n ∧ r.base ≤ x ∧ x < r.base + r.size := by
  simp [loadBarred, Region.meets_iff]

/-- All a host store outside the register block can do. -/
theorem hostStore_memory (addr : Addr) (data : List Byte)
    (h : touchesBlock s.cfg addr.toNat data.length = false) :
    hostStore addr data s
      = if storeBarred s addr.toNat data.length then .refused .ownedByEngine
        else plainOutcome (memWrite s addr.toNat data) := by
  simp [hostStore, h]

/-- All a host load outside the register block can do. -/
theorem hostLoad_memory (addr : Addr) (n : Nat) (h : touchesBlock s.cfg addr.toNat n = false) :
    hostLoad addr n s
      = if loadBarred s addr.toNat n then .refused .ownedByEngine
        else plainOutcome ((memRead s addr.toNat n).bind fun b => .ok { s with rdata := b }) := by
  simp [hostLoad, h]

end Sys2Proof.Machine
end

