-- ==== Sys2Proof/Laws/Ops.lean ====
section
/-! SUPPORT. One lemma per shared operation of Machine/Ops.lean that says all it can do: a proof cites it and never unfolds
the operation. -/

namespace Sys2Proof.Machine

/-! ### Actions -/

@[simp] theorem bind_ok {α β : Type} (a : α) (f : α → Act β) : (Act.ok a).bind f = f a := rfl

@[simp] theorem bind_raise {α β : Type} (e : Status) (s : State) (f : α → Act β) :
    (Act.raise e s : Act α).bind f = .raise e s := rfl

@[simp] theorem bind_refuse {α β : Type} (r : Refusal) (f : α → Act β) : (Act.refuse r : Act α).bind f = .refuse r := rfl

theorem bind_eq_ok {α β : Type} {x : Act α} {f : α → Act β} {b : β} (h : x.bind f = .ok b) :
    ∃ a, x = .ok a ∧ f a = .ok b := by
  cases x with
  | ok a => exact ⟨a, rfl, h⟩
  | raise e s => cases h
  | refuse r => cases h

theorem bind_eq_raise {α β : Type} {x : Act α} {f : α → Act β} {e : Status} {t : State} (h : x.bind f = .raise e t) :
    x = .raise e t ∨ ∃ a, x = .ok a ∧ f a = .raise e t := by
  cases x with
  | ok a => exact .inr ⟨a, rfl, h⟩
  | raise e' s => cases h; exact .inl rfl
  | refuse r => cases h

/-- A command answers a next state when its action ends normally or raises, never on a refusal. -/
theorem finish_next {c : Command} {a : Act State} {t : State} (h : finish c a = .next t) :
    (∃ u, a = .ok u ∧ t = endCommand c u) ∨ ∃ e u, a = .raise e u ∧ t = takeError c e u := by
  cases a with
  | ok u => cases h; exact .inl ⟨u, rfl, rfl⟩
  | raise e u => cases h; exact .inr ⟨e, u, rfl, rfl⟩
  | refuse r => cases h

/-- The same for a micro-operation, which on its normal path ends no command. -/
theorem settle_next {c : Command} {a : Act State} {t : State} (h : settle c a = .next t) :
    a = .ok t ∨ ∃ e u, a = .raise e u ∧ t = takeError c e u := by
  cases a with
  | ok u => cases h; exact .inl rfl
  | raise e u => cases h; exact .inr ⟨e, u, rfl, rfl⟩
  | refuse r => cases h

/-- What follows an access that is refused does not run. -/
theorem bind_refusesAccess {α β : Type} {x : Act α} {f : α → Act β}
    (h : x = .refuse .addressPastEnd ∨ x = .refuse .hostAccessFailed) :
    x.bind f = .refuse .addressPastEnd ∨ x.bind f = .refuse .hostAccessFailed := by
  rcases h with rfl | rfl
  · exact .inl rfl
  · exact .inr rfl

theorem finish_refusesAccess (c : Command) {a : Act State}
    (h : a = .refuse .addressPastEnd ∨ a = .refuse .hostAccessFailed) : RefusesAccess (finish c a) := by
  rcases h with rfl | rfl
  · exact .inl rfl
  · exact .inr rfl

theorem settle_refusesAccess (c : Command) {a : Act State}
    (h : a = .refuse .addressPastEnd ∨ a = .refuse .hostAccessFailed) : RefusesAccess (settle c a) := by
  rcases h with rfl | rfl
  · exact .inl rfl
  · exact .inr rfl

/-! ### Host memory -/

theorem accessOk_end {c : Config} {a n : Nat} (h : accessOk c a n = true) (hn : n ≠ 0) : a + n ≤ 2 ^ 64 := by
  simp [accessOk, hn] at h; exact h.1

/-- An access inside one that answers answers too. -/
theorem accessOk_within {c : Config} {a n a' n' : Nat} (h : accessOk c a n = true) (h1 : a ≤ a')
    (h2 : a' + n' ≤ a + n) : accessOk c a' n' = true := by
  by_cases hn' : n' = 0
  · simp [accessOk, hn']
  · have hn : n ≠ 0 := by omega
    simp only [accessOk, hn, hn', decide_false, Bool.false_or, Bool.and_eq_true, decide_eq_true_eq, Bool.not_eq_true',
      accessFails, List.any_eq_false] at h ⊢
    refine ⟨by omega, fun r hr => ?_⟩
    have := h.2 r hr
    simp only [not_and] at this ⊢
    omega

theorem memRead_answers {s : State} {a n : Nat} (h : accessOk s.cfg a n = true) :
    memRead s a n = .ok (readBytes s.mem a n) := by
  by_cases hn : n = 0
  · subst hn; simp [memRead, readBytes]
  · have he := accessOk_end h hn
    simp [accessOk, hn] at h
    rw [memRead, if_neg hn, if_neg (by omega), if_neg (by simp [h.2])]

/-- A read answers the bytes in address order, or is refused; it raises nothing. -/
theorem memRead_ok {s : State} {a n : Nat} {B : List Byte} (h : memRead s a n = .ok B) :
    accessOk s.cfg a n = true ∧ B = readBytes s.mem a n := by
  unfold memRead at h
  split at h
  · rename_i hn; subst hn; cases h; simp [accessOk, readBytes]
  · split at h
    · cases h
    · split at h
      · cases h
      · rename_i hn h1 h2
        cases h
        exact ⟨by simp only [gt_iff_lt, Nat.not_lt] at h1; simp [accessOk, hn, h2]; omega, rfl⟩

theorem memRead_no_raise {s : State} {a n : Nat} {e : Status} {t : State} : memRead s a n ≠ .raise e t := by
  unfold memRead; split <;> (try split) <;> (try split) <;> simp

/-- An access that does not answer is past 2^64 or touches a failing range. -/
theorem accessOk_false {c : Config} {a n : Nat} (h : accessOk c a n = false) :
    n ≠ 0 ∧ (2 ^ 64 < a + n ∨ (a + n ≤ 2 ^ 64 ∧ accessFails c a n = true)) := by
  simp only [accessOk, Bool.or_eq_false_iff, decide_eq_false_iff_not, Bool.and_eq_false_iff, Bool.not_eq_false'] at h
  refine ⟨h.1, ?_⟩
  by_cases h1 : 2 ^ 64 < a + n
  · exact .inl h1
  · exact .inr ⟨by omega, h.2.resolve_left (by omega)⟩

/-- A read that is not answered is refused. -/
theorem memRead_refuses {s : State} {a n : Nat} (h : accessOk s.cfg a n = false) :
    memRead s a n = .refuse .addressPastEnd ∨ memRead s a n = .refuse .hostAccessFailed := by
  obtain ⟨hn, h | ⟨h1, h2⟩⟩ := accessOk_false h
  · exact .inl (by rw [memRead, if_neg hn, if_pos h])
  · exact .inr (by rw [memRead, if_neg hn, if_neg (by omega), if_pos h2])

/-- A write that is not answered is refused. -/
theorem memWrite_refuses {s : State} {a : Nat} {B : List Byte} (h : accessOk s.cfg a B.length = false) :
    memWrite s a B = .refuse .addressPastEnd ∨ memWrite s a B = .refuse .hostAccessFailed := by
  obtain ⟨hn, h | ⟨h1, h2⟩⟩ := accessOk_false h
  · exact .inl (by rw [memWrite, if_neg hn, if_pos h])
  · exact .inr (by rw [memWrite, if_neg hn, if_neg (by omega), if_pos h2])

theorem memWrite_answers {s : State} {a : Nat} {B : List Byte} (h : accessOk s.cfg a B.length = true) :
    memWrite s a B = .ok { s with mem := writeBytes s.mem a B } := by
  by_cases hn : B.length = 0
  · have : B = [] := List.eq_nil_of_length_eq_zero hn
    subst this; simp [memWrite, writeBytes]
  · have he := accessOk_end h hn
    simp [accessOk, hn] at h
    rw [memWrite, if_neg hn, if_neg (by omega), if_neg (by simp [h.2])]

/-- A write stores the bytes and changes no other field, or is refused; it raises nothing. -/
theorem memWrite_ok {s t : State} {a : Nat} {B : List Byte} (h : memWrite s a B = .ok t) :
    accessOk s.cfg a B.length = true ∧ t = { s with mem := writeBytes s.mem a B } := by
  unfold memWrite at h
  split at h
  · rename_i hn
    have : B = [] := List.eq_nil_of_length_eq_zero hn
    subst this; cases h; simp [accessOk, writeBytes]
  · split at h
    · cases h
    · split at h
      · cases h
      · rename_i hn h1 h2
        cases h
        exact ⟨by simp only [gt_iff_lt, Nat.not_lt] at h1; simp [accessOk, hn, h2]; omega, rfl⟩

theorem memWrite_no_raise {s : State} {a : Nat} {B : List Byte} {e : Status} {t : State} :
    memWrite s a B ≠ .raise e t := by
  unfold memWrite; split <;> (try split) <;> (try split) <;> simp

theorem writeBytes_canonical {s : State} {a : Nat} {B : List Byte} (hw : Memory.wf s.mem = true)
    (h : accessOk s.cfg a B.length = true) : Memory.wf (writeBytes s.mem a B) = true := by
  by_cases hn : B.length = 0
  · have : B = [] := List.eq_nil_of_length_eq_zero hn
    subst this; exact hw
  · exact writeBytes_keeps_wf hw a B (accessOk_end h hn)

/-- What every address reads as after a write (20 R63). -/
theorem byteOf_writeBytes {c : Config} {m : List Host.Cell} {a : Nat} {B : List Byte} (hw : Memory.wf m = true)
    (h : accessOk c a B.length = true) (x : Nat) : byteOf (writeBytes m a B) x = stored (byteOf m) a B x := by
  unfold stored
  by_cases hx : a ≤ x ∧ x < a + B.length
  · have he := accessOk_end h (by omega)
    obtain ⟨i, rfl⟩ : ∃ i, x = a + i := ⟨x - a, by omega⟩
    rw [if_pos hx, byteOf_writeBytes_inside hw a B he (by omega)]
    congr 1; omega
  · rw [if_neg hx, byteOf_writeBytes_outside m a B (by omega)]

theorem byteAt_readBytes (m : List Host.Cell) (a n : Nat) {i : Nat} (h : i < n) :
    byteAt (readBytes m a n) i = byteOf m (a + i) := by
  simp [byteAt, readBytes, h]

/-! ### Slots -/

theorem getSlot_putSlot_same {s : State} (hw : slotsWf s.slots = true) (j : BitVec 32) (v : Slot) :
    getSlot (putSlot j v s) j = v := slotOf_cellWrite_same hw _ v

theorem slotOf_putSlot {s : State} (hw : slotsWf s.slots = true) (j : BitVec 32) (v : Slot) :
    SlotIs s (putSlot j v s) j.toNat v := by
  intro k
  by_cases hk : k = j.toNat
  · subst hk; rw [if_pos rfl]; exact slotOf_cellWrite_same hw _ v
  · rw [if_neg hk]; exact slotOf_cellWrite_other _ hk v

theorem slotsWf_putSlot {s : State} (hw : slotsWf s.slots = true) (j : BitVec 32) (v : Slot) :
    slotsWf (putSlot j v s).slots = true :=
  cellWrite_keeps_wf hw (Nat.zero_le _) j.isLt v

theorem putSlot_eq (s : State) (j : BitVec 32) (v : Slot) :
    putSlot j v s = { s with slots := (putSlot j v s).slots } := rfl

theorem inRange_iff (s : State) (sid : BitVec 32) :
    inRange s sid = true ↔ 1 ≤ sid.toNat ∧ sid.toNat < s.cap.toNat := by simp [inRange]

/-! ### The chain -/

theorem fetchEntries_ok {s : State} {E k i : Nat} {es : List (List Byte)} (h : fetchEntries s E k i = .ok es) :
    (∀ m, i ≤ m → m < i + k → accessOk s.cfg (s.regs.descPtr.toNat + E * m) E = true)
      ∧ es = (List.range' i k).map fun m => readBytes s.mem (s.regs.descPtr.toNat + E * m) E := by
  induction k generalizing i es with
  | zero => cases h; exact ⟨by omega, rfl⟩
  | succ k ih =>
    obtain ⟨e, he, h⟩ := bind_eq_ok h
    obtain ⟨rest, hr, h⟩ := bind_eq_ok h
    cases h
    obtain ⟨ha, rfl⟩ := memRead_ok he
    obtain ⟨hb, rfl⟩ := ih hr
    refine ⟨fun m h1 h2 => ?_, by simp [List.range'_succ]⟩
    by_cases hm : m = i
    · subst hm; exact ha
    · exact hb m (by omega) (by omega)

theorem fetchEntries_no_raise {s t : State} {E k i : Nat} {e : Status} : fetchEntries s E k i ≠ .raise e t := by
  induction k generalizing i with
  | zero => simp [fetchEntries]
  | succ k ih =>
    intro h
    rcases bind_eq_raise h with h | ⟨a, _, h⟩
    · exact memRead_no_raise h
    · rcases bind_eq_raise h with h | ⟨b, _, h⟩
      · exact ih h
      · cases h

theorem fetchEntries_answers {s : State} {E k i : Nat}
    (h : ∀ m, i ≤ m → m < i + k → accessOk s.cfg (s.regs.descPtr.toNat + E * m) E = true) :
    fetchEntries s E k i = .ok ((List.range' i k).map fun m => readBytes s.mem (s.regs.descPtr.toNat + E * m) E) := by
  induction k generalizing i with
  | zero => rfl
  | succ k ih =>
    rw [fetchEntries, memRead_answers (h i (by omega) (by omega)), bind_ok, ih fun m h1 h2 => h m (by omega) (by omega)]
    simp [List.range'_succ]

/-- The chain fetch latches the entries (20 R78) when every read answers. -/
theorem fetchChain_answers {s : State} {E n : Nat} (h : chainOk s E n = true) :
    fetchChain E n s = .ok { s with chain := { s.chain with n := BitVec.ofNat 8 n, entries := chainAt s E n } } := by
  have h' : ∀ m, 0 ≤ m → m < 0 + n → accessOk s.cfg (s.regs.descPtr.toNat + E * m) E = true := by
    simp only [chainOk, List.all_eq_true, List.mem_range] at h
    intro m _ hm; exact h m (by omega)
  rw [fetchChain, fetchEntries_answers h', bind_ok]
  simp [chainAt, List.range_eq_range']

/-- The chain fetch latches the entries, or is refused; it raises nothing. -/
theorem fetchChain_ok {s t : State} {E n : Nat} (h : fetchChain E n s = .ok t) :
    chainOk s E n = true
      ∧ t = { s with chain := { s.chain with n := BitVec.ofNat 8 n, entries := chainAt s E n } } := by
  obtain ⟨es, he, h⟩ := bind_eq_ok h
  cases h
  obtain ⟨ha, rfl⟩ := fetchEntries_ok he
  refine ⟨?_, by simp [chainAt, List.range_eq_range']⟩
  simp only [chainOk, List.all_eq_true, List.mem_range]
  intro m hm; exact ha m (Nat.zero_le _) (by omega)

/-- A chain that is not answered is refused. -/
theorem fetchChain_refuses {s : State} {E n : Nat} (h : chainOk s E n = false) :
    fetchChain E n s = .refuse .addressPastEnd ∨ fetchChain E n s = .refuse .hostAccessFailed := by
  have key : ∀ k i, (∃ m, i ≤ m ∧ m < i + k ∧ accessOk s.cfg (s.regs.descPtr.toNat + E * m) E = false) →
      fetchEntries s E k i = .refuse .addressPastEnd ∨ fetchEntries s E k i = .refuse .hostAccessFailed := by
    intro k
    induction k with
    | zero => rintro i ⟨m, h1, h2, _⟩; omega
    | succ k ih =>
      rintro i ⟨m, h1, h2, h3⟩
      rw [fetchEntries]
      cases ha : accessOk s.cfg (s.regs.descPtr.toNat + E * i) E with
      | false => rcases memRead_refuses ha with h | h <;> simp [h]
      | true =>
        have hm : i ≠ m := by rintro rfl; rw [ha] at h3; cases h3
        rw [memRead_answers ha, bind_ok]
        rcases ih (i + 1) ⟨m, by omega, by omega, h3⟩ with h | h <;> simp [h]
  simp only [chainOk, List.all_eq_false, List.mem_range] at h
  obtain ⟨m, hm, h⟩ := h
  rcases key n 0 ⟨m, by omega, by omega, by simpa using h⟩ with h | h <;> simp [fetchChain, h]

theorem fetchChain_no_raise {s t : State} {E n : Nat} {e : Status} : fetchChain E n s ≠ .raise e t := by
  intro h
  rcases bind_eq_raise h with h | ⟨a, _, h⟩
  · exact fetchEntries_no_raise h
  · cases h

/-! ### Leaving a command -/

theorem takeError_process (e : Status) (s : State) : takeError .process e s = afterProcess e s := rfl

theorem takeError_newSession (e : Status) (s : State) : takeError .newSession e s = afterNewSession e 0 s := rfl

theorem takeError_freeSession (e : Status) (s : State) : takeError .freeSession e s = afterFreeSession e s := rfl

theorem endCommand_process (s : State) : endCommand .process s = afterProcess .success s := rfl

theorem endCommand_newSession (s : State) (j : BitVec 32) :
    endCommand .newSession (setSid j s) = afterNewSession .success j s := rfl

theorem endCommand_freeSession (s : State) : endCommand .freeSession s = afterFreeSession .success s := rfl

end Sys2Proof.Machine
end

