-- ==== Sys2Proof/Laws/PerInstr.lean ====
section
/-! SUPPORT. A fact of every instruction as syntax: the shape of its encoding. -/

namespace Sys2Proof.Laws

open Sys2Proof.Machine

/-- A host command (format C) is encoded in four bytes, the two upper ones zero, with an opcode byte of 1 to 3; a
micro-operation (format U) in one byte whose upper half is a family number of 30 R105. -/
def EncodedForm.Statement (i : Instr) : Prop :=
  ((encode i).format = .c ∧ (encode i).bytes.length = 4 ∧ 1 ≤ (byteAt (encode i).bytes 0).toNat
      ∧ (byteAt (encode i).bytes 0).toNat ≤ 3 ∧ byteAt (encode i).bytes 2 = 0 ∧ byteAt (encode i).bytes 3 = 0)
    ∨ ((encode i).format = .u ∧ (encode i).bytes.length = 1 ∧ 1 ≤ (byteAt (encode i).bytes 0).toNat / 16
        ∧ (byteAt (encode i).bytes 0).toNat / 16 ≤ 7)

/-- The bytes of a command word. -/
theorem encodedForm_command (opc : Byte) (n : Nat) (h1 : 1 ≤ opc.toNat) (h3 : opc.toNat ≤ 3) :
    (toLe32 (commandWord opc n)).length = 4 ∧ 1 ≤ (byteAt (toLe32 (commandWord opc n)) 0).toNat
      ∧ (byteAt (toLe32 (commandWord opc n)) 0).toNat ≤ 3 ∧ byteAt (toLe32 (commandWord opc n)) 2 = 0
      ∧ byteAt (toLe32 (commandWord opc n)) 3 = 0 := by
  have h0 : byteAt (toLe32 (commandWord opc n)) 0 = opc := by
    show (commandWord opc n).extractLsb' 0 8 = opc
    refine BitVec.eq_of_getLsbD_eq fun i hi => ?_
    erw [BitVec.getLsbD_extractLsb', BitVec.getLsbD_append]
    simp [hi]
  have h2 : (commandWord opc n).extractLsb' 16 8 = 0 := by
    refine BitVec.eq_of_getLsbD_eq fun i hi => ?_
    erw [BitVec.getLsbD_extractLsb', BitVec.getLsbD_append, BitVec.getLsbD_append]
    simp [hi, show ¬16 + i < 8 by omega, show ¬16 + i - 8 < 8 by omega]
  have h3' : (commandWord opc n).extractLsb' 24 8 = 0 := by
    refine BitVec.eq_of_getLsbD_eq fun i hi => ?_
    erw [BitVec.getLsbD_extractLsb', BitVec.getLsbD_append, BitVec.getLsbD_append]
    simp [hi, show ¬24 + i < 8 by omega, show ¬24 + i - 8 < 8 by omega]
  exact ⟨rfl, by rw [h0]; exact h1, by rw [h0]; exact h3, h2, h3'⟩

theorem EncodedForm.newsession (n : Nat) : EncodedForm.Statement (.newsession n) :=
  .inl ⟨rfl, encodedForm_command 0x01 n (by decide) (by decide)⟩
theorem EncodedForm.freesession : EncodedForm.Statement .freesession :=
  .inl ⟨rfl, encodedForm_command 0x02 0 (by decide) (by decide)⟩
theorem EncodedForm.process (n : Nat) : EncodedForm.Statement (.process n) :=
  .inl ⟨rfl, encodedForm_command 0x03 n (by decide) (by decide)⟩
theorem EncodedForm.keyexp : EncodedForm.Statement .keyexp := .inr ⟨rfl, rfl, by decide, by decide⟩
theorem EncodedForm.deckey : EncodedForm.Statement .deckey := .inr ⟨rfl, rfl, by decide, by decide⟩
theorem EncodedForm.aesenc : EncodedForm.Statement .aesenc := .inr ⟨rfl, rfl, by decide, by decide⟩
theorem EncodedForm.aesenclast : EncodedForm.Statement .aesenclast := .inr ⟨rfl, rfl, by decide, by decide⟩
theorem EncodedForm.aesblk : EncodedForm.Statement .aesblk := .inr ⟨rfl, rfl, by decide, by decide⟩
theorem EncodedForm.aesblk4 : EncodedForm.Statement .aesblk4 := .inr ⟨rfl, rfl, by decide, by decide⟩
theorem EncodedForm.reflect : EncodedForm.Statement .reflect := .inr ⟨rfl, rfl, by decide, by decide⟩
theorem EncodedForm.clmul : EncodedForm.Statement .clmul := .inr ⟨rfl, rfl, by decide, by decide⟩
theorem EncodedForm.gfred : EncodedForm.Statement .gfred := .inr ⟨rfl, rfl, by decide, by decide⟩
theorem EncodedForm.gfmul : EncodedForm.Statement .gfmul := .inr ⟨rfl, rfl, by decide, by decide⟩
theorem EncodedForm.ghfold : EncodedForm.Statement .ghfold := .inr ⟨rfl, rfl, by decide, by decide⟩
theorem EncodedForm.ghbytes : EncodedForm.Statement .ghbytes := .inr ⟨rfl, rfl, by decide, by decide⟩
theorem EncodedForm.ghlen : EncodedForm.Statement .ghlen := .inr ⟨rfl, rfl, by decide, by decide⟩
theorem EncodedForm.inc32 : EncodedForm.Statement .inc32 := .inr ⟨rfl, rfl, by decide, by decide⟩
theorem EncodedForm.y0gen : EncodedForm.Statement .y0gen := .inr ⟨rfl, rfl, by decide, by decide⟩
theorem EncodedForm.ctrxor : EncodedForm.Statement .ctrxor := .inr ⟨rfl, rfl, by decide, by decide⟩
theorem EncodedForm.taggen : EncodedForm.Statement .taggen := .inr ⟨rfl, rfl, by decide, by decide⟩
theorem EncodedForm.tagvfy : EncodedForm.Statement .tagvfy := .inr ⟨rfl, rfl, by decide, by decide⟩
theorem EncodedForm.slookup : EncodedForm.Statement .slookup := .inr ⟨rfl, rfl, by decide, by decide⟩
theorem EncodedForm.salloc : EncodedForm.Statement .salloc := .inr ⟨rfl, rfl, by decide, by decide⟩
theorem EncodedForm.sgrow : EncodedForm.Statement .sgrow := .inr ⟨rfl, rfl, by decide, by decide⟩
theorem EncodedForm.sclear : EncodedForm.Statement .sclear := .inr ⟨rfl, rfl, by decide, by decide⟩
theorem EncodedForm.ctrfai : EncodedForm.Statement .ctrfai := .inr ⟨rfl, rfl, by decide, by decide⟩
theorem EncodedForm.stagein : EncodedForm.Statement .stagein := .inr ⟨rfl, rfl, by decide, by decide⟩
theorem EncodedForm.ivderive : EncodedForm.Statement .ivderive := .inr ⟨rfl, rfl, by decide, by decide⟩
theorem EncodedForm.wrback : EncodedForm.Statement .wrback := .inr ⟨rfl, rfl, by decide, by decide⟩
theorem EncodedForm.scrub : EncodedForm.Statement .scrub := .inr ⟨rfl, rfl, by decide, by decide⟩

end Sys2Proof.Laws
end

