-- ==== Sys2Proof/Laws/Session.lean ====
section
/-! SUPPORT. What each operation of Machine/Session.lean can do, said once. -/

namespace Sys2Proof.Machine

/-! ### Slot choice and growth -/

theorem firstFree_some {sl : List (Nat × Slot)} {j k m : Nat} (h : firstFree sl j k = some m) :
    j ≤ m ∧ m < j + k ∧ (slotOf sl m).used = false ∧ ∀ i, j ≤ i → i < m → (slotOf sl i).used = true := by
  induction k generalizing j with
  | zero => cases h
  | succ k ih =>
    unfold firstFree at h
    split at h
    · rename_i hu
      obtain ⟨h1, h2, h3, h4⟩ := ih h
      refine ⟨by omega, by omega, h3, fun i hi hm => ?_⟩
      by_cases hij : i = j
      · subst hij; exact hu
      · exact h4 i (by omega) hm
    · rename_i hu
      cases h
      exact ⟨by omega, by omega, by simpa using hu, fun i hi hm => by omega⟩

theorem firstFree_none {sl : List (Nat × Slot)} {j k : Nat} (h : firstFree sl j k = none) :
    ∀ i, j ≤ i → i < j + k → (slotOf sl i).used = true := by
  induction k generalizing j with
  | zero => intro i hi hm; omega
  | succ k ih =>
    unfold firstFree at h
    split at h
    · rename_i hu
      intro i hi hm
      by_cases hij : i = j
      · subst hij; exact hu
      · exact ih h i (by omega) (by omega)
    · cases h

theorem firstFree_least {sl : List (Nat × Slot)} {j k m : Nat} (h1 : j ≤ m) (h2 : m < j + k)
    (hu : (slotOf sl m).used = false) (hl : ∀ i, j ≤ i → i < m → (slotOf sl i).used = true) :
    firstFree sl j k = some m := by
  induction k generalizing j with
  | zero => omega
  | succ k ih =>
    unfold firstFree
    by_cases hj : j = m
    · subst hj; simp [hu]
    · rw [if_pos (hl j (by omega) (by omega))]
      exact ih (by omega) (by omega) fun i hi hm => hl i (by omega) hm

theorem firstFree_full {sl : List (Nat × Slot)} {j k : Nat} (h : ∀ i, j ≤ i → i < j + k → (slotOf sl i).used = true) :
    firstFree sl j k = none := by
  induction k generalizing j with
  | zero => rfl
  | succ k ih =>
    unfold firstFree
    rw [if_pos (h j (by omega) (by omega))]
    exact ih fun i hi hm => h i (by omega) (by omega)

/-- SGROW doubles `cap` and answers the old one, or raises from the state it was given (45 R244). -/
theorem sgrow_ok {s : State} {r : BitVec 32 × State} (h : sgrow s = .ok r) :
    2 * s.cap.toNat ≤ s.cfg.maxCap ∧ r = (s.cap, { s with cap := BitVec.ofNat 32 (2 * s.cap.toNat) }) := by
  unfold sgrow at h
  split at h
  · cases h
  · rename_i hc; cases h; exact ⟨by omega, rfl⟩

theorem sgrow_raise {s t : State} {e : Status} (h : sgrow s = .raise e t) :
    s.cfg.maxCap < 2 * s.cap.toNat ∧ e = .resourceExhausted ∧ t = s := by
  unfold sgrow at h
  split at h
  · rename_i hc; cases h; exact ⟨hc, rfl, rfl⟩
  · cases h

theorem maxCap_lt {c : Config} (h : c.wf = true) : c.maxCap < 2 ^ 31 := by
  simp [Config.wf] at h; omega

theorem doubled_toNat {s : State} (hc : s.cfg.wf = true) (h : 2 * s.cap.toNat ≤ s.cfg.maxCap) :
    (BitVec.ofNat 32 (2 * s.cap.toNat)).toNat = 2 * s.cap.toNat := by
  have := maxCap_lt hc
  rw [BitVec.toNat_ofNat]; omega

/-- SALLOC answers the chosen slot, which gets its index as id, in a state that differs in that slot and perhaps `cap`
(45 R240). -/
theorem salloc_ok {s t : State} {j : BitVec 32} (hc : s.cfg.wf = true) (h : salloc s = .ok (j, t)) :
    ∃ cap, Chosen s j cap ∧ t = { putSlot j { getSlot s j with id := j } s with cap := cap } := by
  unfold salloc at h
  split at h
  · rename_i m hm
    obtain ⟨h1, h2, h3, h4⟩ := firstFree_some hm
    have hlt := s.cap.isLt
    have hm' : (BitVec.ofNat 32 m).toNat = m := by rw [BitVec.toNat_ofNat]; omega
    cases h
    refine ⟨s.cap, .inl ⟨⟨by omega, by omega, ?_, ?_⟩, rfl⟩, rfl⟩
    · simpa [getSlot, hm'] using h3
    · intro k hk hk'; exact h4 k hk (by omega)
  · rename_i hn
    obtain ⟨r, hr, h⟩ := bind_eq_ok h
    obtain ⟨hg, rfl⟩ := sgrow_ok hr
    cases h
    refine ⟨_, .inr ⟨?_, hg, rfl, doubled_toNat hc hg⟩, rfl⟩
    intro k hk hk'; exact firstFree_none hn k hk (by omega)

theorem salloc_raise {s t : State} {e : Status} (h : salloc s = .raise e t) :
    TableFull s ∧ s.cfg.maxCap < 2 * s.cap.toNat ∧ e = .resourceExhausted ∧ t = s := by
  unfold salloc at h
  split at h
  · cases h
  · rename_i hn
    rcases bind_eq_raise h with h | ⟨r, _, h⟩
    · obtain ⟨h1, h2, h3⟩ := sgrow_raise h
      exact ⟨fun k hk hk' => firstFree_none hn k hk (by omega), h1, h2, h3⟩
    · cases h

theorem salloc_answers {s : State} {j cap : BitVec 32} (h : Chosen s j cap) :
    salloc s = .ok (j, { putSlot j { getSlot s j with id := j } s with cap := cap }) := by
  rcases h with ⟨⟨h1, h2, h3, h4⟩, rfl⟩ | ⟨hf, hm, rfl, hcap⟩
  · have := firstFree_least (k := s.cap.toNat - 1) h1 (by omega) h3 h4
    simp only [salloc, this, BitVec.ofNat_toNat, BitVec.setWidth_eq]; rfl
  · have hn := firstFree_full (j := 1) (k := s.cap.toNat - 1) (sl := s.slots) fun i hi hi' => hf i hi (by omega)
    have hc : BitVec.ofNat 32 (2 * s.cap.toNat) = cap := by
      apply BitVec.eq_of_toNat_eq; rw [BitVec.toNat_ofNat, ← hcap, Nat.mod_eq_of_lt cap.isLt]
    simp only [salloc, hn, sgrow, Nat.not_lt.mpr hm, if_false, bind_ok, hc]; rfl

theorem salloc_full {s : State} (hf : TableFull s) (hm : s.cfg.maxCap < 2 * s.cap.toNat) :
    salloc s = .raise .resourceExhausted s := by
  have hn := firstFree_full (j := 1) (k := s.cap.toNat - 1) (sl := s.slots) fun i hi hi' => hf i hi (by omega)
  simp only [salloc, hn, sgrow, gt_iff_lt, hm, if_true, bind_raise]

/-! ### Lease and key setup -/

/-- The lease gives slot `j` a handle, asking the provider only when it holds none, or raises with the slot as it was (45
R246). -/
theorem lease_ok {s t : State} {j : BitVec 32} (h : lease j s = .ok t) :
    leasedCtx s j ≠ 0
      ∧ ((getSlot s j).ctx ≠ 0 ∧ t = s
          ∨ (getSlot s j).ctx = 0 ∧ t = putSlot j { getSlot s j with ctx := leaseAnswer s } (afterLease s)) := by
  unfold lease at h
  unfold leasedCtx
  split at h
  · rename_i hc
    split at h
    · cases h
    · rename_i ha; cases h; rw [if_pos hc]; exact ⟨ha, .inr ⟨hc, rfl⟩⟩
  · rename_i hc; cases h; rw [if_neg hc]; exact ⟨hc, .inl ⟨hc, rfl⟩⟩

theorem lease_raise {s t : State} {j : BitVec 32} {e : Status} (h : lease j s = .raise e t) :
    leasedCtx s j = 0 ∧ e = .resourceUnavailable ∧ t = afterLease s := by
  unfold lease at h
  unfold leasedCtx
  split at h
  · rename_i hc
    split at h
    · rename_i ha; cases h; rw [if_pos hc]; exact ⟨ha, rfl, rfl⟩
    · cases h
  · cases h

/-- Key setup reads the key and fills the slot, or clears it on an illegal key length (45 R247, R248). -/
theorem keySetup_ok {s u : State} {j : BitVec 32} {t : Tag} {e : KEntry} (h : keySetup j t e s = .ok u) :
    legalKeyLength t e.klen.toNat = true
      ∧ accessOk s.cfg e.keyPtr.toNat (e.klen.toNat / 8) = true
      ∧ u = putSlot j (sessionSlot t e.nonce (readBytes s.mem e.keyPtr.toNat (e.klen.toNat / 8)) (getSlot s j))
              (latchKey t (readBytes s.mem e.keyPtr.toNat (e.klen.toNat / 8)) s) := by
  unfold keySetup at h
  split at h
  · rename_i hl
    obtain ⟨B, hB, h⟩ := bind_eq_ok h
    obtain ⟨ha, rfl⟩ := memRead_ok hB
    cases h
    exact ⟨hl, ha, rfl⟩
  · cases h

theorem keySetup_raise {s u : State} {j : BitVec 32} {t : Tag} {e : KEntry} {er : Status}
    (h : keySetup j t e s = .raise er u) :
    legalKeyLength t e.klen.toNat = false ∧ er = .invalidArgument ∧ u = sclear j s := by
  unfold keySetup at h
  split at h
  · rcases bind_eq_raise h with h | ⟨B, _, h⟩
    · exact absurd h memRead_no_raise
    · cases h
  · rename_i hl; cases h; exact ⟨by simpa using hl, rfl, rfl⟩

/-- CTRFAI answers the counter and counts, or is refused; it raises nothing (45 R262, R263). -/
theorem ctrFai_ok {s : State} {j : BitVec 32} {r : BitVec 64 × State} (h : ctrFai j s = .ok r) :
    (getSlot s j).counter ≠ BitVec.allOnes 64
      ∧ r = ((getSlot s j).counter, putSlot j { getSlot s j with counter := (getSlot s j).counter + 1 } s) := by
  unfold ctrFai at h
  split at h
  · cases h
  · rename_i hc; cases h; exact ⟨hc, rfl⟩

theorem ctrFai_no_raise {s t : State} {j : BitVec 32} {e : Status} : ctrFai j s ≠ .raise e t := by
  unfold ctrFai; split <;> simp

theorem slookup_ok {s : State} {sid j : BitVec 32} (h : slookup sid s = .ok j) : inRange s sid = true ∧ j = sid := by
  unfold slookup at h
  split at h
  · rename_i hr; cases h; exact ⟨hr, rfl⟩
  · cases h

theorem slookup_raise {s t : State} {sid : BitVec 32} {e : Status} (h : slookup sid s = .raise e t) :
    inRange s sid = false ∧ e = .invalidArgument ∧ t = s := by
  unfold slookup at h
  split at h
  · cases h
  · rename_i hr; cases h; exact ⟨by simpa using hr, rfl, rfl⟩

/-! ### Chain validation -/

/-- Chain validation accepts exactly the chains whose algorithms are recognised and of which one encrypts (45 R239). -/
theorem sessionEntry_some {es : List (List Byte)} {t : Tag} {e : KEntry} :
    sessionEntry es = some (t, e)
      ↔ (∀ k ∈ es.map decodeK, isRecognised k.alg = true)
          ∧ (es.map decodeK).filter (fun k => isEncAlg k.alg) = [e] ∧ tagOfCode e.alg = some t := by
  unfold sessionEntry
  split
  · rename_i ha
    rw [List.all_eq_true] at ha
    split
    · rename_i e' he
      rw [he]
      constructor
      · intro h
        cases hq : tagOfCode e'.alg with
        | none => simp [hq] at h
        | some q => simp [hq] at h; obtain ⟨rfl, rfl⟩ := h; exact ⟨ha, rfl, hq⟩
      · rintro ⟨_, h2, h3⟩; simp at h2; subst h2; simp [h3]
    · rename_i hne
      constructor
      · intro h; cases h
      · rintro ⟨_, h2, _⟩; exact absurd h2 (hne e)
  · rename_i ha
    rw [List.all_eq_true] at ha
    constructor
    · intro h; cases h
    · rintro ⟨h1, _⟩; exact absurd h1 ha

/-- It rejects exactly the others. -/
theorem sessionEntry_none {es : List (List Byte)} :
    sessionEntry es = none
      ↔ (∃ k ∈ es.map decodeK, isRecognised k.alg = false)
          ∨ (es.map decodeK).countP (fun k => isEncAlg k.alg) ≠ 1 := by
  unfold sessionEntry
  split
  · rename_i ha
    rw [List.all_eq_true] at ha
    have hno : ¬∃ k ∈ es.map decodeK, isRecognised k.alg = false := by
      rintro ⟨k, hk, hf⟩; simp [ha k hk] at hf
    split
    · rename_i e he
      have hmem : e ∈ (es.map decodeK).filter (fun k => isEncAlg k.alg) := by rw [he]; simp
      have henc : isEncAlg e.alg = true := (List.mem_filter.mp hmem).2
      have hq : tagOfCode e.alg ≠ none := by
        intro hq; simp [isEncAlg, hq] at henc
      rw [List.countP_eq_length_filter, he]
      cases hq' : tagOfCode e.alg with
      | none => exact absurd hq' hq
      | some q => simpa using hno
    · rename_i hne
      refine ⟨fun _ => .inr ?_, fun _ => rfl⟩
      rw [List.countP_eq_length_filter]
      intro h1
      obtain ⟨e, he⟩ := List.length_eq_one_iff.mp h1
      exact hne e he
  · rename_i ha
    refine ⟨fun _ => .inl ?_, fun _ => rfl⟩
    by_contra hno
    apply ha
    rw [List.all_eq_true]
    intro k hk
    by_contra hf
    exact hno ⟨k, hk, by simpa using hf⟩

end Sys2Proof.Machine
end

