-- ==== Sys2Proof/Laws/Process.lean ====
section
/-! SUPPORT. What each phase of PROCESS can do, said once (Machine/Staging.lean, Gcm.lean, Process.lean). -/

namespace Sys2Proof.Machine

/-! ### Regions -/

/-- A GCM operation that passes validation has all its regions inside the buffer (47 R309): where the whole buffer
answers, they answer. -/
theorem regionsOk_of_buffer {s : State} {enc auth : DEntry} (hc : GcmChecks s enc auth)
    (hv : GivenIvOk s enc ∨ GeneratedIvOk s enc)
    (hb : accessOk s.cfg s.regs.bufPtr.toNat s.regs.bufLen.toNat = true) : RegionsOk s enc auth := by
  obtain ⟨_, _, _, h1, h2, h3⟩ := hc
  refine ⟨⟨?_, ?_⟩, ?_, fun hx => ?_⟩
  · exact accessOk_within hb (by omega) (by omega)
  · exact accessOk_within hb (by omega) (by omega)
  · exact accessOk_within hb (by omega) (by omega)
  · have : enc.inject.toNat + enc.ivlen.toNat ≤ s.regs.bufLen.toNat := by
      rcases hv with ⟨_, _, _, hi | hi⟩ | ⟨_, h12, hi⟩
      · rw [hx] at hi; cases hi
      · exact hi
      · omega
    exact accessOk_within hb (by omega) (by omega)

/-! ### Staging and IV -/

/-- STAGEIN copies both regions, or raises from the state it was given (44 R212). -/
theorem stageIn_ok {s t : State} (h : stageIn s = .ok t) :
    StagingFits s (encOf s) (authOf s)
      ∧ t = { s with
                stage := { s.stage with
                             d := bufAt s (encOf s).offset.toNat (encOf s).length.toNat, dlen := (encOf s).length,
                             a := bufAt s (authOf s).offset.toNat (authOf s).length.toNat, alen := (authOf s).length },
                phase := .deriveIv } := by
  unfold stageIn at h
  split at h
  · cases h
  · rename_i hc
    obtain ⟨d, hd, h⟩ := bind_eq_ok h
    obtain ⟨a, ha, h⟩ := bind_eq_ok h
    obtain ⟨_, rfl⟩ := memRead_ok hd
    obtain ⟨_, rfl⟩ := memRead_ok ha
    cases h
    exact ⟨by unfold StagingFits; omega, rfl⟩

theorem stageIn_raise {s t : State} {e : Status} (h : stageIn s = .raise e t) :
    ¬StagingFits s (encOf s) (authOf s) ∧ e = .resourceExhausted ∧ t = s := by
  unfold stageIn at h
  split at h
  · rename_i hc; cases h; exact ⟨by unfold StagingFits; omega, rfl, rfl⟩
  · rcases bind_eq_raise h with h | ⟨_, _, h⟩
    · exact absurd h memRead_no_raise
    · rcases bind_eq_raise h with h | ⟨_, _, h⟩
      · exact absurd h memRead_no_raise
      · cases h

theorem ivGenerated_iff (e : DEntry) :
    ivGenerated e = true ↔ ivExplicit e = false ∧ (isEncrypt e && !ivPresent e) = true := by
  unfold ivGenerated
  cases isEncrypt e <;> cases ivExplicit e <;> cases ivPresent e <;> decide

/-- IVDERIVE takes the IV from the descriptor, generates and stores it, or takes it from the buffer; nothing else (44
R218). -/
theorem ivDerive_ok {s t : State} {j : BitVec 32} (h : ivDerive j s = .ok t) :
    (ivExplicit (encOf s) = true
        ∧ t = setIv (explicitIv (encOf s).iv (encOf s).ivlen.toNat) (encOf s).ivlen s)
      ∨ (ivGenerated (encOf s) = true ∧ (getSlot s j).counter ≠ BitVec.allOnes 64
          ∧ ∃ u iv, u = putSlot j { getSlot s j with counter := (getSlot s j).counter + 1 } s
              ∧ iv = be32 (getSlot u j).nonce ++ be64 (getSlot s j).counter
              ∧ accessOk s.cfg (bufAddr s (encOf s).inject) iv.length = true
              ∧ t = setIv iv 12 { u with mem := writeBytes s.mem (bufAddr s (encOf s).inject) iv })
      ∨ (ivExplicit (encOf s) = false ∧ ivGenerated (encOf s) = false
          ∧ t = setIv (bufAt s (encOf s).inject.toNat (encOf s).ivlen.toNat) (encOf s).ivlen s) := by
  unfold ivDerive at h
  dsimp only at h
  split at h
  · rename_i hx; cases h; exact .inl ⟨hx, rfl⟩
  · rename_i hx
    split at h
    · rename_i hg
      obtain ⟨r, hr, h⟩ := bind_eq_ok h
      obtain ⟨hc, rfl⟩ := ctrFai_ok hr
      obtain ⟨u, hu, h⟩ := bind_eq_ok h
      obtain ⟨ha, rfl⟩ := memWrite_ok hu
      cases h
      exact .inr (.inl ⟨(ivGenerated_iff _).2 ⟨by simpa using hx, hg⟩, hc, _, _, rfl, rfl, ha, rfl⟩)
    · rename_i hg
      obtain ⟨iv, hi, h⟩ := bind_eq_ok h
      obtain ⟨_, rfl⟩ := memRead_ok hi
      cases h
      refine .inr (.inr ⟨by simpa using hx, ?_, rfl⟩)
      cases hgen : ivGenerated (encOf s) with
      | false => rfl
      | true => exact absurd ((ivGenerated_iff _).1 hgen).2 hg

theorem ivDerive_no_raise {s t : State} {j : BitVec 32} {e : Status} : ivDerive j s ≠ .raise e t := by
  intro h
  unfold ivDerive at h
  dsimp only at h
  split at h
  · cases h
  · split at h
    · rcases bind_eq_raise h with h | ⟨_, _, h⟩
      · exact ctrFai_no_raise h
      · rcases bind_eq_raise h with h | ⟨_, _, h⟩
        · exact memWrite_no_raise h
        · cases h
    · rcases bind_eq_raise h with h | ⟨_, _, h⟩
      · exact memRead_no_raise h
      · cases h

/-! ### Verification and write-back -/

theorem tagVfy_ok {s t : State} (h : tagVfy s = .ok t) : s.work.tag = s.work.tagin ∧ t = setAuthOk true s := by
  unfold tagVfy at h
  split at h
  · rename_i he; cases h; exact ⟨he, rfl⟩
  · cases h

theorem tagVfy_raise {s t : State} {e : Status} (h : tagVfy s = .raise e t) :
    s.work.tag ≠ s.work.tagin ∧ e = .authenticationFailure ∧ t = setAuthOk false s := by
  unfold tagVfy at h
  split at h
  · cases h
  · rename_i he; cases h; exact ⟨he, rfl, rfl⟩

/-- The memory WRBACK leaves: the output, then on encrypt the tag (47 R325). -/
def wrBackMem (s : State) : List Host.Cell :=
  let m := writeBytes s.mem (bufAddr s (encOf s).offset) (outputOf s.stage)
  if isEncrypt (encOf s) then writeBytes m (bufAddr s (authOf s).inject) (bytes128 s.work.tag) else m

/-- WRBACK stores the output and, on encrypt, the tag, and changes the phase; nothing else (47 R325). -/
theorem wrBack_ok {s t : State} (h : wrBack s = .ok t) :
    accessOk s.cfg (bufAddr s (encOf s).offset) (outputOf s.stage).length = true
      ∧ (isEncrypt (encOf s) = true → accessOk s.cfg (bufAddr s (authOf s).inject) (bytes128 s.work.tag).length = true)
      ∧ t = { s with mem := wrBackMem s, phase := .release } := by
  unfold wrBack at h
  obtain ⟨u, hu, h⟩ := bind_eq_ok h
  obtain ⟨ha, hu⟩ := memWrite_ok hu
  have hmem : u.mem = writeBytes s.mem (bufAddr s (encOf s).offset) (outputOf s.stage) := by rw [hu]; rfl
  have hu' : u = { s with mem := u.mem } := by rw [hu]
  unfold wrBackMem
  dsimp only
  rw [← hmem]
  clear hu hmem
  split at h
  · rename_i he
    rw [if_pos he]
    obtain ⟨v, hv, h⟩ := bind_eq_ok h
    obtain ⟨hb, rfl⟩ := memWrite_ok hv
    cases h
    rw [hu'] at hb ⊢
    exact ⟨ha, fun _ => hb, rfl⟩
  · rename_i he
    rw [if_neg he]
    cases h
    refine ⟨ha, fun hf => absurd hf he, ?_⟩
    rw [hu']; rfl

theorem wrBack_no_raise {s t : State} {e : Status} : wrBack s ≠ .raise e t := by
  intro h
  unfold wrBack at h
  rcases bind_eq_raise h with h | ⟨_, _, h⟩
  · exact memWrite_no_raise h
  · split at h
    · rcases bind_eq_raise h with h | ⟨_, _, h⟩
      · exact memWrite_no_raise h
      · cases h
    · cases h

/-! ### Validation -/

/-- The one element of a list with property `p` is the one `findIdx` finds. -/
theorem getD_findIdx {α : Type} {p : α → Bool} {l : List α} (d : α) (h : l.countP p = 1) {x : α} (hx : x ∈ l)
    (hp : p x = true) : l.getD (l.findIdx p) d = x := by
  induction l with
  | nil => cases hx
  | cons y l ih =>
    by_cases hy : p y = true
    · simp only [List.findIdx_cons, hy, cond_true, List.getD_cons_zero]
      rw [List.countP_cons_of_pos hy] at h
      have h0 : l.countP p = 0 := by omega
      rcases List.mem_cons.mp hx with rfl | hx
      · rfl
      · exact absurd hp (List.countP_eq_zero.mp h0 x hx)
    · have hy' : p y = false := by simpa using hy
      rw [List.countP_cons_of_neg hy] at h
      simp only [List.findIdx_cons, hy', cond_false, List.getD_cons_succ]
      rcases List.mem_cons.mp hx with rfl | hx
      · exact absurd hp hy
      · exact ih h hx

theorem validate_ok {s t : State} (h : validate s = .ok t) :
    checksPass s = true ∧ (sessionOf s).tag = .gcm
      ∧ t = { s with
                chain := { s.chain with enc := BitVec.ofNat 8 (encIndex (descriptors s)),
                                        auth := BitVec.ofNat 8 (authIndex (descriptors s)) },
                phase := .stage } := by
  unfold validate at h
  split at h
  · rename_i hp
    split at h
    · rename_i ht; cases h; exact ⟨hp, ht, rfl⟩
    · cases h
  · cases h

theorem validate_raise {s t : State} {e : Status} (h : validate s = .raise e t) :
    checksPass s = false ∧ e = .invalidArgument ∧ t = s := by
  unfold validate at h
  split at h
  · split at h <;> cases h
  · rename_i hp; cases h; exact ⟨by simpa using hp, rfl, rfl⟩

end Sys2Proof.Machine
end

