-- ==== Sys2Proof/Tests/Slice0.lean ====
section
/-! SUPPORT. The model's own tests: ill-formed terms refused, every constructor decoded from a word written out from the
spec's encoding, worked examples of the spec (cited by rule), and for every statement with hypotheses states and operands
that meet them. -/

namespace Sys2Proof.Tests

open Sys2Proof Sys2Proof.Machine

/- One thread at a time: each kernel evaluation below would otherwise hold a thread of its own. -/
set_option Elab.async false

/-! ### Well-formedness -/

theorem test_newsession_256_ill_formed : (Instr.newsession 256).wf = false := by decide
theorem test_process_256_ill_formed : (Instr.process 256).wf = false := by decide
theorem test_process_255_well_formed : (Instr.process 255).wf = true := by decide
theorem test_default_config : Config.default.wf = true := by decide
theorem test_config_no_slots : { Config.default with initCap := 0 }.wf = false := by decide
theorem test_config_init_above_max : { Config.default with initCap := 5, maxCap := 4 }.wf = false := by decide
theorem test_config_max_too_large : { Config.default with maxCap := 2 ^ 31 }.wf = false := by decide
theorem test_config_stage_too_large : { Config.default with stageCap := 2 ^ 32 }.wf = false := by decide
theorem test_config_base_misaligned : { Config.default with engineBase := 4 }.wf = false := by decide
theorem test_config_base_past_end : { Config.default with engineBase := 2 ^ 64 - 56 }.wf = false := by decide

/-! ### Decoding: the words of spec/30_encoding.md R87, R105, R119, written out -/

theorem test_decode_commands :
    decodeTableWord 32 0x00000201 = some (.newsession 2) ∧ decodeTableWord 32 0x00000002 = some .freesession
      ∧ decodeTableWord 32 0x00000203 = some (.process 2) := by decide +kernel

theorem test_decode_key_schedule :
    decodeTableWord 8 0b00010000 = some .keyexp ∧ decodeTableWord 8 0b00010001 = some .deckey := by decide

theorem test_decode_aes :
    decodeTableWord 8 0b00100000 = some .aesenc ∧ decodeTableWord 8 0b00100001 = some .aesenclast
      ∧ decodeTableWord 8 0b00100010 = some .aesblk ∧ decodeTableWord 8 0b00100011 = some .aesblk4 := by decide

theorem test_decode_ghash :
    decodeTableWord 8 0b00110000 = some .reflect ∧ decodeTableWord 8 0b00110001 = some .clmul
      ∧ decodeTableWord 8 0b00110010 = some .gfred ∧ decodeTableWord 8 0b00110011 = some .gfmul
      ∧ decodeTableWord 8 0b00110100 = some .ghfold ∧ decodeTableWord 8 0b00110101 = some .ghbytes
      ∧ decodeTableWord 8 0b00110110 = some .ghlen := by decide

theorem test_decode_ctr_and_tag :
    decodeTableWord 8 0b01000000 = some .inc32 ∧ decodeTableWord 8 0b01000001 = some .y0gen
      ∧ decodeTableWord 8 0b01000010 = some .ctrxor ∧ decodeTableWord 8 0b01010000 = some .taggen
      ∧ decodeTableWord 8 0b01010001 = some .tagvfy := by decide

theorem test_decode_session :
    decodeTableWord 8 0b01100000 = some .slookup ∧ decodeTableWord 8 0b01100001 = some .salloc
      ∧ decodeTableWord 8 0b01100010 = some .sgrow ∧ decodeTableWord 8 0b01100011 = some .sclear
      ∧ decodeTableWord 8 0b01100100 = some .ctrfai := by decide

theorem test_decode_staging :
    decodeTableWord 8 0b01110000 = some .stagein ∧ decodeTableWord 8 0b01110001 = some .ivderive
      ∧ decodeTableWord 8 0b01110010 = some .wrback ∧ decodeTableWord 8 0b01110011 = some .scrub := by decide

theorem test_decode_rejects :
    decode { format := .u, bytes := [0x12] } = .error (.unknownMicroOp 0x12)
      ∧ decodeCommand 0x00000204 = .error (.illegalOpcode 0x04)
      ∧ decode { format := .c, bytes := [0x01, 0x02] } = .error (.wrongLength 2) := by decide +kernel

/-! ### Worked examples of single steps -/

/-- A field of the next state, if there is one. -/
def result {α : Type} (o : Host.Outcome State Fault Refusal) (f : State → α) : Option α :=
  match o with
  | .next s => some (f s)
  | .fault _ | .refused _ => none

/-- The reset state with values in the block ports. -/
def portsState (a b : Block) : State := { State.reset with ports := { Ports.zero with a := a, b := b } }

/-- 40 R127: round key 10 of the key `000102...0f`. -/
theorem test_keyexp :
    result (exec .keyexp { State.reset with keys := { KeyLatch.zero with key := (List.range 16).map (BitVec.ofNat 8) } })
      (fun t => (t.keys.nr, t.keys.rk.k10)) = some (10, 0x13111d7fe3944a17f307a78b4d2b30c5) := by decide +kernel

/-- 40 R128: decryption round keys 0, 1 and 10 of the same key. -/
theorem test_deckey :
    result (exec .deckey { State.reset with
                             keys := { KeyLatch.zero with
                                         rk := keyExp ((List.range 16).map (BitVec.ofNat 8)), nr := 10 } })
      (fun t => (t.keys.dk.k0, t.keys.dk.k1, t.keys.dk.k10))
      = some (0x13111d7fe3944a17f307a78b4d2b30c5, 0x13aa29be9c8faff6f770f58000f7bf03,
              0x000102030405060708090a0b0c0d0e0f) := by decide +kernel

/-- 41 R150. -/
theorem test_aesenc :
    result (exec .aesenc (portsState 0x193de3bea0f4e22b9ac68d2ae9f84808 0xa0fafe1788542cb123a339392a6c7605))
      (fun t => t.ports.r) = some 0xa49c7ff2689f352b6b5bea43026a5049 := by decide +kernel

/-- 41 R151. -/
theorem test_aesenclast :
    result (exec .aesenclast (portsState 0xeb40f21e592e38848ba113e71bc342d2 0xd014f9a8c9ee2589e13f0cc8b6630ca6))
      (fun t => t.ports.r) = some 0x3925841d02dc09fbdc118597196a0b32 := by decide +kernel

/-- A session with the `n`-byte key `00 01 02 ...` in slot 1, and the block of 41 R155 in ports `a` and `d`. -/
def aesState (n : Nat) : State :=
  { State.reset with
      regs := { Regs.zero with sid := 1 },
      slots := [(1, { Slot.zero with
                        used := true, ek := keyExp ((List.range n).map (BitVec.ofNat 8)),
                        rounds := BitVec.ofNat 4 (n / 4 + 6) })],
      ports := { Ports.zero with a := 0x00112233445566778899aabbccddeeff, d := 0x00112233445566778899aabbccddeeff } }

/-- 41 R155 (c). -/
theorem test_aesblk :
    result (exec .aesblk (aesState 16)) (fun t => t.ports.r) = some 0x69c4e0d86a7b0430d8cdb78070b4c55a
      ∧ result (exec .aesblk (aesState 24)) (fun t => t.ports.r) = some 0xdda97ca4864cdfe06eaf70a0ec0d7191 := by
  decide +kernel

/-- 41 R155 (c), R159. -/
theorem test_aesblk4 :
    result (exec .aesblk4 (aesState 32)) (fun t => (t.work.ks0, t.work.ks3))
      = some (0x8ea2b7ca516745bfeafc49904b496089, 0x8ea2b7ca516745bfeafc49904b496089) := by decide +kernel

/-- 42 R166. -/
theorem test_reflect :
    result (exec .reflect (portsState 0x0388dace60b6a392f328c2b971b2fe78 0)) (fun t => t.ports.r)
      = some 0x1e7f4d8e9d4314cf49c56d06735b11c0 := by decide +kernel

/-- 42 R169. -/
theorem test_clmul :
    result (exec .clmul (portsState 2 0x80000000000000000000000000000000)) (fun t => t.ports.p)
      = some 0x100000000000000000000000000000000 := by decide +kernel

/-- 42 R170. -/
theorem test_gfred :
    result (exec .gfred { State.reset with ports := { Ports.zero with p := 1 <<< 254 } }) (fun t => t.ports.r)
      = some 0xc0000000000000000000000000001067 := by decide +kernel

/-- 42 R172. -/
theorem test_gfmul :
    result (exec .gfmul (portsState 0x87 0x02000000000000000000000000000000)) (fun t => t.ports.r)
      = some 0x0e000000000000000000000000000087 := by decide +kernel

/-- The working registers of 42 R176 and R183. -/
def hashState (x : Block) : State :=
  { State.reset with
      work := { Work.zero with h := 0x66e94bd4ef8a2c3b884cfa59ca342b2e, x := x },
      ports := { Ports.zero with
                   a := 0x0388dace60b6a392f328c2b971b2fe78,
                   str := bytes128 0x0388dace60b6a392f328c2b971b2fe78, clen := 16 } }

/-- 42 R176. -/
theorem test_ghfold :
    result (exec .ghfold (hashState 0)) (fun t => t.work.x) = some 0x5e2ec746917062882c85b0685353deb7 := by decide +kernel

/-- 42 R183. -/
theorem test_ghbytes :
    result (exec .ghbytes (hashState 0)) (fun t => t.work.x) = some 0x5e2ec746917062882c85b0685353deb7 := by
  decide +kernel

/-- 42 R183. -/
theorem test_ghlen :
    result (exec .ghlen (hashState 0x5e2ec746917062882c85b0685353deb7)) (fun t => t.work.x)
      = some 0xf38cbb1ad69223dcc3457ae5b6b0f885 := by decide +kernel

/-- 43 R190: the wrap of the low word. -/
theorem test_inc32 :
    result (exec .inc32 (portsState 0xffffffffffffffffffffffffffffffff 0)) (fun t => t.ports.r)
      = some 0xffffffffffffffffffffffff00000000 := by decide

/-- The state of 43 R194 and R195 with an IV of `n` bytes. -/
def ivState (n : Nat) : State :=
  { State.reset with
      work := { Work.zero with h := 0xb83b533708bf535d0aa6e52980d53b78, x := 5 },
      stage := { Staging.zero with
                   iv := [0xca, 0xfe, 0xba, 0xbe, 0xfa, 0xce, 0xdb, 0xad, 0xde, 0xca, 0xf8, 0x88].take n,
                   ivlen := BitVec.ofNat 32 n } }

/-- 43 R194: X is not touched. -/
theorem test_y0gen_12 :
    result (exec .y0gen (ivState 12)) (fun t => (t.work.y0, t.work.x))
      = some (0xcafebabefacedbaddecaf88800000001, 5) := by decide +kernel

/-- 43 R195. -/
theorem test_y0gen_8 :
    result (exec .y0gen (ivState 8)) (fun t => (t.work.y0, t.work.x))
      = some (0xc43a83c4c4badec4354ca984db252f7d, 0) := by decide +kernel

/-- A GCM session under the all-zero key in slot 1, `Y0 = 1` and the five payload bytes of 43 R202. -/
def keystreamState : State :=
  { State.reset with
      regs := { Regs.zero with sid := 1 },
      slots := [(1, { Slot.zero with used := true, ek := keyExp (zeros 16), rounds := 10 })],
      work := { Work.zero with y0 := 1 },
      stage := { Staging.zero with d := [0x68, 0x65, 0x6c, 0x6c, 0x6f], dlen := 5 } }

/-- 43 R202. -/
theorem test_ctrxor :
    result (exec .ctrxor keystreamState) (fun t => (t.stage.o, t.work.y))
      = some ([0x6b, 0xed, 0xb6, 0xa2, 0x0f], 2) := by decide +kernel

/-- 46 R282. -/
theorem test_taggen :
    result (exec .taggen { State.reset with
                             work := { Work.zero with
                                         x := 0xf38cbb1ad69223dcc3457ae5b6b0f885,
                                         t := 0x58e2fccefa7e3061367f1d57a4e7455a } })
      (fun t => t.work.tag) = some 0xab6e47d42cec13bdf53a67b21257bddf := by decide

/-- 46 R284, R295: a difference in the last bit. -/
theorem test_tagvfy_mismatch :
    result (exec .tagvfy { State.reset with work := { Work.zero with tag := 1 } })
      (fun t => (t.regs.code, t.work.tag, t.authOk)) = some (.authenticationFailure, 0, false) := by decide

/-- 45 R252: growth from one slot, the new id, and `cap`. -/
theorem test_salloc_grows :
    result (exec .salloc State.reset) (fun t => (t.cap, t.ports.j, (slotOf t.slots 1).id)) = some (2, 1, 1) := by decide

theorem test_sgrow : result (exec .sgrow State.reset) (fun t => (t.cap, t.ports.j)) = some (2, 1) := by decide

/-- 45 R255. -/
theorem test_sclear :
    result (exec .sclear { State.reset with
                             ports := { Ports.zero with j := 3 },
                             slots := [(3, { Slot.zero with id := 3, used := true, nonce := 5, ctx := 9 })] })
      (fun t => slotOf t.slots 3) = some { Slot.zero with id := 3, ctx := 9 } := by decide

/-- 45 R237: id 0 is out of range. -/
theorem test_slookup_zero :
    result (exec .slookup State.reset) (fun t => (t.regs.code, t.regs.done)) = some (.invalidArgument, true) := by decide

/-! ### Whole commands -/

/-- The chain of 45 R252: one GCM entry, a 128-bit key of zeros at 0x3000. -/
def newSessionState (alg klen : BitVec 32) (answers : List Handle) : State :=
  { State.reset with
      regs := { Regs.zero with descPtr := 0x1000 }, provider := answers,
      mem := writeBytes [] 0x1000 (encodeK { alg := alg, klen := klen, keyPtr := 0x3000, nonce := 0 }) }

/-- 45 R252, run by the step as the table word. -/
theorem test_newsession :
    result (step ((newSessionState 3 128 [7]).withFetchWord 32 0x00000101))
      (fun t => (t.regs.code, t.regs.sid, t.cap, (slotOf t.slots 1).used, (slotOf t.slots 1).ek.k10,
        (slotOf t.slots 1).ctx))
      = some (.success, 1, 2, true, 0xb4ef5bcb3e92e21123e951cf6f8f188e, 7) := by decide +kernel

/-- 45 R246, R250: denied. -/
theorem test_newsession_denied :
    result (exec (.newsession 1) (newSessionState 3 128 [0])) (fun t => (t.regs.code, t.regs.sid, slotOf t.slots 1))
      = some (.resourceUnavailable, 0, { Slot.zero with id := 1 }) := by decide +kernel

/-- A GCM session of the all-zero key in slot 1, a chain at 0x1000 and a buffer of 48 bytes at 0x2000 (47 R336). -/
def processState (chain buffer : List Byte) : State :=
  { State.reset with
      cap := 2,
      slots := [(1, { Slot.zero with
                        id := 1, used := true, tag := .gcm, rounds := 10, ek := keyExp (zeros 16), ctx := 7 })],
      regs := { Regs.zero with sid := 1, descPtr := 0x1000, bufPtr := 0x2000, bufLen := 48 },
      mem := writeBytes (writeBytes [] 0x1000 chain) 0x2000 buffer }

/-- The encryption sub-descriptor of 47 R336, with the flags and IV length given. -/
def encEntry (flags ivlen : BitVec 32) : DEntry :=
  { alg := 3, flags := flags, offset := 16, length := 16, inject := 0, ivlen := ivlen, iv := 0 }

/-- The authentication sub-descriptor of 47 R336. -/
def authEntry : DEntry := { alg := 4, flags := 0, offset := 0, length := 0, inject := 32, ivlen := 0, iv := 0 }

/-- The two-entry chain. -/
def chainOf (flags ivlen : BitVec 32) : List Byte := encodeD (encEntry flags ivlen) ++ encodeD authEntry

/-- The ciphertext and tag of 46 R294 behind sixteen zero bytes. -/
def sealedBuffer : List Byte :=
  zeros 16 ++ bytes128 0x0388dace60b6a392f328c2b971b2fe78 ++ bytes128 0xab6e47d42cec13bdf53a67b21257bddf

/-- 47 R336, run by the step as the table word. -/
theorem test_process_encrypt :
    result (step ((processState (chainOf 1 12) []).withFetchWord 32 0x00000203))
      (fun t => (t.regs.code, readBytes t.mem 0x2000 48, (slotOf t.slots 1).counter)) = some (.success, sealedBuffer, 1) := by
  decide +kernel

/-- 46 R295: decryption of the same bytes. -/
theorem test_process_decrypt :
    result (exec (.process 2) (processState (chainOf 2 12) sealedBuffer))
      (fun t => (t.regs.code, readBytes t.mem 0x2010 16, t.work)) = some (.success, zeros 16, Work.zero) := by
  decide +kernel

/-- 47 R311. -/
theorem test_process_invalid :
    result (exec (.process 1) (processState (chainOf 1 12) sealedBuffer)) (fun t => (t.regs.code, t.mem))
      = some (.invalidArgument, (processState (chainOf 1 12) sealedBuffer).mem) := by decide +kernel

/-- 45 R257 (d), R255. -/
theorem test_freesession :
    result (exec .freesession (processState [] [])) (fun t => (t.regs.code, slotOf t.slots 1))
      = some (.success, { Slot.zero with id := 1, ctx := 7 }) := by decide +kernel

/-- 30 R112. -/
theorem test_illegal_opcode :
    result (step (State.reset.withFetchWord 32 0x00000003)) (fun t => t.regs.code) = some .invalidArgument
      ∧ result (regWrite32 0 0x00000007 State.reset) (fun t => (t.regs.code, t.regs.done))
          = some (.invalidArgument, true) := by decide +kernel

/-- The latched state of a PROCESS on 47 R336's session. -/
def latchedState (flags ivlen : BitVec 32) : State :=
  { processState [] [] with
      chain := { n := 2, entries := [encodeD (encEntry flags ivlen), encodeD authEntry], enc := 0, auth := 1 } }

/-- 44 R212. -/
theorem test_stagein :
    result (exec .stagein (latchedState 1 12)) (fun t => (t.stage.dlen, t.stage.d, t.phase))
      = some (16, zeros 16, .deriveIv) := by decide +kernel

/-- 44 R226: the generated IV of nonce `aabbccdd`, counter 0x0102030405060708. -/
theorem test_ivderive :
    result (exec .ivderive { latchedState 1 12 with
                               slots := [(1, { Slot.zero with nonce := 0xaabbccdd, counter := 0x0102030405060708 })] })
      (fun t => (t.stage.iv, (slotOf t.slots 1).counter, byteOf t.mem 0x200b))
      = some ([0xaa, 0xbb, 0xcc, 0xdd, 1, 2, 3, 4, 5, 6, 7, 8], 0x0102030405060709, 8) := by decide +kernel

/-- 47 R325. -/
theorem test_wrback :
    result (exec .wrback { latchedState 1 12 with
                             work := { Work.zero with tag := 0x0102 },
                             stage := { Staging.zero with o := [9], dlen := 1 } })
      (fun t => (t.mem, t.phase)) = some ([(0x2010, 9), (0x202e, 1), (0x202f, 2)], .release) := by decide +kernel

/-- 45 R262. -/
theorem test_ctrfai :
    result (exec .ctrfai { processState [] [] with ports := { Ports.zero with j := 1 } })
      (fun t => (t.ports.cnt, (slotOf t.slots 1).counter)) = some (0, 1) := by decide +kernel

/-- 47 R330. -/
theorem test_scrub :
    result (exec .scrub { latchedState 1 12 with authOk := true }) (fun t => (t.chain, t.authOk))
      = some (ChainLatch.zero, false) := by decide +kernel

/-! ### Witnesses: the hypotheses of the statements can be met -/

theorem canonical_reset : Canonical State.reset := ⟨rfl, rfl⟩

theorem witness_DecodeEncodeAgree : (Instr.newsession 255).wf = true := by decide

theorem witness_DecoderAcceptsTheTableOnly :
    decode { format := .u, bytes := [0x73] } = .ok .scrub
      ∧ decode { format := .c, bytes := [1, 255, 9, 9] } = .ok (.newsession 255)
      ∧ decode { format := .c, bytes := [2, 1, 0, 0] } = .ok .freesession
      ∧ decode { format := .c, bytes := [3, 0, 0, 0] } = .ok (.process 0) := by decide +kernel

theorem witness_IgnoredFields :
    (0xffff0201 : BitVec 32).extractLsb' 0 16 = (0x00000201 : BitVec 32).extractLsb' 0 16
      ∧ (0xffffff02 : BitVec 32).extractLsb' 0 8 = 2
      ∧ (∀ i, i < 20 → byteAt (zeros 20 ++ [1]) i = byteAt (zeros 20 ++ [2]) i)
      ∧ ((zeros 24 ++ [1] ++ zeros 39).length = 64 ∧ (∀ i, i < 24 → byteAt (zeros 24 ++ [1] ++ zeros 39) i = byteAt (zeros 64) i)
          ∧ ∀ i, i < 48 → 32 ≤ i → byteAt (zeros 24 ++ [1] ++ zeros 39) i = byteAt (zeros 64) i)
      ∧ (0xfffffff9 : BitVec 32).extractLsb' 0 3 = (encEntry 1 12).flags.extractLsb' 0 3 := by decide +kernel

/-- The reset state with an access of the host waiting. -/
def waiting (i : Input) : State := { State.reset with inputs := [i] }

theorem witness_StepRunsDecodedInstruction :
    ({ State.reset with bus := some 0x40 }.bus = some 0x40 ∧ decode { format := .u, bytes := [0x40] } = .ok .inc32)
      ∧ (∀ row ∈ microTable, row.1 ≠ 0x00) ∧ (∀ row ∈ microTable, row.1 ≠ 0x74)
      ∧ (State.reset.cfg.wf = true
          ∧ (waiting (.store (BitVec.ofNat 64 State.reset.cfg.engineBase) ([2, 0, 0, 0] ++ []))).bus = none
          ∧ State.reset.regs.busy = false ∧ State.reset.regs.done = false
          ∧ decode { format := .c, bytes := [2, 0, 0, 0] } = .ok .freesession)
      ∧ State.reset.inputs = [] := by decide +kernel

theorem witness_IllegalOpcode :
    State.reset.regs.busy = false ∧ State.reset.regs.done = false
      ∧ ([0x00000000, 0x00000104, 0x000000ff].all fun w : BitVec 32 =>
          w.extractLsb' 0 8 ≠ 0x01 ∧ w.extractLsb' 0 8 ≠ 0x02 ∧ w.extractLsb' 0 8 ≠ 0x03) = true := by decide +kernel

theorem witness_CommandRegister :
    (0x0000ff01 : BitVec 32).extractLsb' 0 8 = 0x01 ∧ (0xffff0002 : BitVec 32).extractLsb' 0 8 = 0x02
      ∧ (0x00000003 : BitVec 32).extractLsb' 0 8 = 0x03
      ∧ (State.reset.regs.busy = false ∧ State.reset.regs.done = false
          ∧ decodeCommand 0x00000002 = .ok .freesession)
      ∧ (complete .success State.reset).regs.done = true ∧ (setBusy State.reset).regs.busy = true := by decide +kernel

/-- The empty chain, the chain of 45 R252, and the same with a key of 129 bits (70 R392). -/
theorem witness_CommandRegister_owned :
    chainOk State.reset 32 0 = true ∧ (chainAt State.reset 32 0) = []
      ∧ KeyChain 1 (newSessionState 3 128 [7]) .gcm { alg := 3, klen := 128, keyPtr := 0x3000, nonce := 0 }
      ∧ legalKeyLength .gcm 128 = true
      ∧ ownedBy (.newsession 1) (newSessionState 3 128 [7])
          = [{ base := 0x1000, size := 32, buffer := false }, { base := 0x3000, size := 16, buffer := false }]
      ∧ KeyChain 1 (newSessionState 3 129 [7]) .gcm { alg := 3, klen := 129, keyPtr := 0x3000, nonce := 0 }
      ∧ legalKeyLength .gcm 129 = false := by
  unfold KeyChain; decide +kernel

/-- The host's next access after the write of CMD in 47 R336: the command has run and posted `done`. -/
def ownedState (done : Bool) (i : Input) : State :=
  { claim (.process 2) (processState (chainOf 1 12) []) with
      regs := { (processState (chainOf 1 12) []).regs with done := done }, inputs := [i] }

/-- 70 R392: a load of STATUS that sees DONE = 1 ends the engine's ownership, another does not. -/
theorem witness_StatusRegister :
    State.reset.cfg.wf = true
      ∧ result (step (ownedState true (.load (BitVec.ofNat 64 (2 ^ 63 + 8)) 4))) (fun t => (t.rdata, t.owned))
          = some ([2, 0, 0, 0], [])
      ∧ result (step (ownedState false (.load (BitVec.ofNat 64 (2 ^ 63 + 8)) 8))) (fun t => t.owned.length)
          = some 2 := by decide +kernel

theorem witness_OperandRegisters :
    State.reset.cfg.wf = true ∧ State.reset.regs.busy = false
      ∧ (setBusy State.reset).cfg.wf = true ∧ (setBusy State.reset).regs.busy = true := by decide

/-- A byte store at the last byte of the block, and an aligned-looking one that crosses its end. -/
theorem witness_MalformedAccessRefused :
    (∀ c ∈ [(63, 1), (2, 4), (4, 8), (60, 8), (0, 3)],
        State.reset.cfg.engineBase + c.1 < State.reset.cfg.engineBase + 64
          ∧ State.reset.cfg.engineBase < State.reset.cfg.engineBase + c.1 + c.2
          ∧ ¬((c.2 = 4 ∨ c.2 = 8) ∧ c.1 + c.2 ≤ 64 ∧ c.1 % c.2 = 0)) := by decide +kernel

theorem witness_MemoryAccess :
    Memory.wf State.reset.mem = true ∧ ([] : List Byte).length = 0 ∧ ([7] : List Byte).length = 1
      ∧ 2 ^ 64 < 2 ^ 64 + 1 ∧ accessOk State.reset.cfg (2 ^ 64 - 1) 1 = true
      ∧ accessOk State.reset.cfg (2 ^ 64) 1 = false
      ∧ accessFails { Config.default with failing := [(16, 1)] } 15 2 = true := by decide +kernel

/-- Host accesses to the bytes next to the register block, and a store seen by a load. -/
theorem witness_MemoryAccess_host :
    State.reset.bus = none ∧ (2 ^ 63 - 1) + 1 ≤ State.reset.cfg.engineBase ∧ State.reset.cfg.engineBase + 64 ≤ 2 ^ 63 + 64
      ∧ accessOk State.reset.cfg (2 ^ 63 - 1) 1 = true ∧ accessOk State.reset.cfg (2 ^ 63 + 64) 1 = true
      ∧ accessOk State.reset.cfg (2 ^ 64 - 1) 2 = false
      ∧ result (step (waiting (.store (BitVec.ofNat 64 (2 ^ 63 + 64)) [7]))) (fun t => t.mem) = some [(2 ^ 63 + 64, 7)]
      ∧ result (step { waiting (.load (BitVec.ofNat 64 (2 ^ 63 - 1)) 1) with mem := [(2 ^ 63 - 1, 9)] }) (fun t => t.rdata)
          = some [9] := by decide +kernel

/-- The name of a refusal, if the outcome is one. -/
def refusal (o : Host.Outcome State Fault Refusal) : Option Refusal :=
  match o with
  | .refused r => some r
  | .next _ | .fault _ => none

/-- 70 R392, 20 R73: the first and last bytes of the buffer and the chain of 47 R336, and the bytes beside them. -/
theorem witness_MemoryAccess_owned :
    ([0x1000, 0x107f, 0x2000, 0x202f].all fun a => refusal (step (ownedState true (.store a [7]))) = some .ownedByEngine)
      ∧ ([0x2000, 0x202f].all fun a => refusal (step (ownedState true (.load a 1))) = some .ownedByEngine)
      ∧ ([0x0fff, 0x1080, 0x1fff, 0x2030].all fun a =>
          result (step (ownedState true (.store a [7]))) (fun t => byteOf t.mem a.toNat) = some 7)
      ∧ ([0x1000, 0x107f, 0x1fff, 0x2030].all fun a => refusal (step (ownedState true (.load a 1))) = none)
      ∧ refusal (step (ownedState true (.load 0x1fff 2))) = some .ownedByEngine := by decide +kernel

/-- Two states that differ in a key, loading from memory and from a register. -/
theorem witness_HostSeesNoKeyMaterial :
    let s := waiting (.load 0x2000 4)
    let t := { s with slots := [(1, { Slot.zero with used := true, nonce := 77 })] }
    s.bus = none ∧ t.bus = none ∧ t.regs = s.regs ∧ t.mem = s.mem ∧ t.cfg = s.cfg ∧ t.owned = s.owned
      ∧ result (step s) (fun u => u.rdata) = some [0, 0, 0, 0] := by decide +kernel

theorem witness_ResetSatisfiesInv :
    Config.default.wf = true ∧ { Config.default with initCap := 2 ^ 31 - 1, maxCap := 2 ^ 31 - 1 }.wf = true := by
  decide +kernel

theorem idleInv_reset : IdleInv State.reset := by
  refine ⟨by decide, rfl, ⟨rfl, rfl, rfl, rfl, rfl, rfl, rfl, rfl⟩, canonical_reset, ⟨⟨0, rfl⟩, by decide, by decide⟩, ?_⟩
  exact fun j => ⟨fun _ => rfl, .inl rfl, fun _ => rfl, fun h => nomatch h⟩

theorem witness_IdleInvKept : IdleInv State.reset ∧ step State.reset = .next State.reset := ⟨idleInv_reset, rfl⟩

theorem witness_CanonicalKept :
    State.reset.cfg.wf = true ∧ Canonical State.reset
      ∧ result (step { State.reset with bus := some 0x61 }) (fun t => t.cap) = some 2 :=
  ⟨by decide, canonical_reset, by decide⟩

theorem witness_IrqLine : (0xfffffffe : BitVec 32).getLsbD 0 = false ∧ State.reset.regs.busy = false := by decide

theorem witness_CommandCompletes :
    (State.reset.regs.busy = false ∧ State.reset.regs.done = false ∧ State.reset.phase = .idle
        ∧ result (regWrite32 0x00 2 State.reset) (fun t => t.regs.done) = some true)
      ∧ result (step (State.reset.withFetchWord 32 0x00000002)) (fun t => t.regs.done) = some true
      ∧ result (step { State.reset with bus := some 0x51, work := { Work.zero with tag := 1 } }) (fun t => t.regs.done)
          = some true := by decide +kernel

theorem witness_EngineWritesNoOperandRegister :
    result (exec .salloc State.reset) (fun t => t.regs.sid) = some 0
      ∧ result (exec .freesession State.reset) (fun t => t.regs.sid) = some 0 := by decide +kernel

theorem witness_AesblkCipher :
    legalRounds (sessionOf (aesState 16)).rounds = true ∧ legalRounds (sessionOf State.reset).rounds = false := by
  decide +kernel

theorem witness_KeyexpRecurrence : (zeros 16).length = 16 ∧ (zeros 24).length = 24 ∧ (zeros 32).length = 32 := by decide

theorem witness_DeckeySchedule : legalRounds 10 = true ∧ legalRounds 12 = true ∧ legalRounds 14 = true := by decide

theorem witness_Y0genIv :
    (ivState 12).stage.ivlen.toNat = 12 ∧ (ivState 1).stage.ivlen.toNat = 1 ∧ (ivState 16).stage.ivlen.toNat = 16
      ∧ State.reset.stage.ivlen.toNat = 0 := by decide

theorem witness_CtrxorKeystream : legalRounds (sessionOf keystreamState).rounds = true := by decide +kernel

theorem witness_TagvfyVerdict :
    State.reset.work.tag = State.reset.work.tagin
      ∧ (0x80000000000000000000000000000000 : Block).getLsbD 127 ≠ (0 : Block).getLsbD 127 := by decide

/-- Ids 1 and `cap - 1` in range, 0 and `cap` out of it. -/
theorem witness_SlookupRange :
    (1 ≤ (1 : BitVec 32).toNat ∧ (1 : BitVec 32).toNat < (2 : BitVec 32).toNat) ∧ State.reset.regs.sid.toNat = 0
      ∧ State.reset.cap.toNat ≤ (1 : BitVec 32).toNat := by decide

/-- The reset state whose table may not grow. -/
def fullState : State := State.resetWith { Config.default with maxCap := 1 }

theorem tableFull_reset (c : Config) (h : c.initCap = 1) : TableFull (State.resetWith c) := by
  intro k h1 h2
  have : (State.resetWith c).cap.toNat = 1 := by simp [State.resetWith, h]
  omega

theorem chosen_by_growth : Chosen State.reset 1 2 :=
  .inr ⟨tableFull_reset _ rfl, by decide, by decide, by decide⟩

/-- A table of three ids with slot 1 in use: slot 2 is the least free one. -/
def halfFull : State := { processState [] [] with cap := 4 }

theorem leastFree_halfFull : LeastFree halfFull 2 := by
  refine ⟨by decide, by decide, by decide +kernel, fun k h1 h2 => ?_⟩
  have hk : k = 1 := by
    have : (2 : BitVec 32).toNat = 2 := by decide
    omega
  subst hk; decide +kernel

theorem canonical_halfFull : Canonical halfFull := ⟨by decide +kernel, by decide +kernel⟩

theorem witness_SallocLeastFree :
    (halfFull.cfg.wf = true ∧ Canonical halfFull ∧ Chosen halfFull 2 4)
      ∧ (State.reset.cfg.wf = true ∧ Canonical State.reset ∧ Chosen State.reset 1 2)
      ∧ (fullState.cfg.wf = true ∧ Canonical fullState ∧ TableFull fullState
          ∧ fullState.cfg.maxCap < 2 * fullState.cap.toNat) :=
  ⟨⟨by decide, canonical_halfFull, .inl ⟨leastFree_halfFull, rfl⟩⟩, ⟨by decide, canonical_reset, chosen_by_growth⟩,
    by decide, ⟨rfl, rfl⟩, tableFull_reset _ rfl, by decide⟩

theorem witness_SgrowDoubles :
    (State.reset.cfg.wf = true ∧ 2 * State.reset.cap.toNat ≤ State.reset.cfg.maxCap)
      ∧ (State.resetWith { Config.default with maxCap := 2 }).cfg.maxCap
          = 2 * (State.resetWith { Config.default with maxCap := 2 }).cap.toNat
      ∧ (fullState.cfg.wf = true ∧ fullState.cfg.maxCap < 2 * fullState.cap.toNat) := by decide

theorem witness_SclearSlot : Canonical State.reset := canonical_reset

/-- Counters at the last value that is handed out and at the one that is not. -/
theorem witness_CtrfaiCounts :
    let s := fun c : BitVec 64 => { State.reset with slots := [(0, { Slot.zero with counter := c })] }
    Canonical (s (BitVec.ofNat 64 (2 ^ 64 - 2))) ∧ Canonical (s (BitVec.allOnes 64))
      ∧ (getSlot (s (BitVec.ofNat 64 (2 ^ 64 - 2))) 0).counter.toNat ≠ 2 ^ 64 - 1
      ∧ (getSlot (s (BitVec.allOnes 64)) 0).counter.toNat = 2 ^ 64 - 1 :=
  ⟨⟨rfl, by decide +kernel⟩, ⟨rfl, by decide +kernel⟩, by decide +kernel, by decide +kernel⟩

theorem chosen_newSession (klen : BitVec 32) (answers : List Handle) : Chosen (newSessionState 3 klen answers) 1 2 :=
  .inr ⟨tableFull_reset Config.default rfl, (by decide : 2 * State.reset.cap.toNat ≤ State.reset.cfg.maxCap), rfl, rfl⟩

theorem witness_NewsessionCreates :
    Chosen (newSessionState 3 128 [7]) 1 2
      ∧ (let s := newSessionState 3 128 [7];
          s.cfg.wf = true ∧ Canonical s ∧ KeyChain 1 s .gcm { alg := 3, klen := 128, keyPtr := 0x3000, nonce := 0 }
            ∧ leasedCtx s 1 ≠ 0 ∧ legalKeyLength .gcm 128 = true ∧ accessOk s.cfg 0x3000 16 = true) :=
  ⟨chosen_newSession _ _, by unfold Canonical KeyChain; decide +kernel⟩

/-- An unrecognised algorithm and an empty chain; no room; a denial; a key length of 129 bits. -/
theorem witness_NewsessionFailures :
    (let s := newSessionState 5 128 [7];
      s.cfg.wf = true ∧ Canonical s ∧ chainOk s 32 1 = true
        ∧ (∃ k ∈ (chainAt s 32 1).map decodeK, isRecognised k.alg = false))
      ∧ (((chainAt State.reset 32 0).map decodeK).countP (fun k => isEncAlg k.alg) ≠ 1)
      ∧ (let s := { newSessionState 3 128 [7] with cfg := { Config.default with maxCap := 1 } };
          KeyChain 1 s .gcm { alg := 3, klen := 128, keyPtr := 0x3000, nonce := 0 }
            ∧ s.cfg.maxCap < 2 * s.cap.toNat)
      ∧ (let s := newSessionState 3 128 [0];
          KeyChain 1 s .gcm { alg := 3, klen := 128, keyPtr := 0x3000, nonce := 0 } ∧ leasedCtx s 1 = 0)
      ∧ (let s := newSessionState 3 129 [7];
          KeyChain 1 s .gcm { alg := 3, klen := 129, keyPtr := 0x3000, nonce := 0 } ∧ leasedCtx s 1 ≠ 0
            ∧ legalKeyLength .gcm 129 = false) := by
  unfold Canonical KeyChain; decide +kernel

/-- The slot conditions of the same states. -/
theorem witness_NewsessionFailures_slots :
    TableFull { newSessionState 3 128 [7] with cfg := { Config.default with maxCap := 1 } }
      ∧ Chosen (newSessionState 3 128 [0]) 1 2 ∧ Chosen (newSessionState 3 129 [7]) 1 2 := by
  refine ⟨fun k h1 h2 => ?_, chosen_newSession _ _, chosen_newSession _ _⟩
  have h2 : k < 1 := h2
  omega

theorem witness_NewsessionKeepsSessions :
    halfFull.cfg.wf = true ∧ Canonical halfFull
      ∧ result (exec (.newsession 0) halfFull) (fun t => t.regs.code) = some .invalidArgument
      ∧ 1 < halfFull.cap.toNat ∧ (slotOf halfFull.slots 1).used = true :=
  ⟨by decide, canonical_halfFull, by decide +kernel, by decide, by decide +kernel⟩

theorem witness_FreesessionClears :
    (Canonical halfFull ∧ 1 ≤ halfFull.regs.sid.toNat ∧ halfFull.regs.sid.toNat < halfFull.cap.toNat)
      ∧ State.reset.regs.sid.toNat = 0 ∧ State.reset.cap.toNat ≤ (1 : BitVec 32).toNat :=
  ⟨⟨canonical_halfFull, by decide, by decide⟩, by decide, by decide⟩

/-- Lengths equal to STAGE_CAP, and one byte more. -/
theorem witness_StageinCopies :
    let s := latchedState 1 12
    (StagingFits { s with cfg := { s.cfg with stageCap := 16 } } (encOf s) (authOf s) ∧ bufOk s 16 16 = true
        ∧ bufOk s 0 0 = true)
      ∧ ¬StagingFits { s with cfg := { s.cfg with stageCap := 15 } } (encOf s) (authOf s) := by
  unfold StagingFits; decide +kernel

theorem witness_IvderiveSources :
    (Canonical (latchedState 2 16) ∧ ivExplicit (encOf (latchedState 2 16)) = true
        ∧ (encOf (latchedState 2 16)).ivlen.toNat ≤ 16)
      ∧ (Canonical (latchedState 0 16) ∧ ivExplicit (encOf (latchedState 0 16)) = false
          ∧ isEncrypt (encOf (latchedState 0 16)) = false ∧ bufOk (latchedState 0 16) 0 16 = true)
      ∧ (ivExplicit (encOf (latchedState 5 1)) = false ∧ ivPresent (encOf (latchedState 5 1)) = true
          ∧ bufOk (latchedState 5 1) 0 1 = true)
      ∧ (Canonical (latchedState 1 12) ∧ ivGenerated (encOf (latchedState 1 12)) = true
          ∧ (sessionOf (latchedState 1 12)).counter.toNat ≠ 2 ^ 64 - 1 ∧ bufOk (latchedState 1 12) 0 12 = true)
      ∧ (sessionOf { latchedState 1 12 with
                       slots := [(1, { Slot.zero with counter := BitVec.allOnes 64 })] }).counter.toNat = 2 ^ 64 - 1 := by
  unfold Canonical; decide +kernel

theorem witness_WrbackWrites :
    let s := { latchedState 1 12 with stage := { Staging.zero with dlen := 16 } }
    Canonical s ∧ bufOk s 16 16 = true ∧ isEncrypt (encOf s) = true ∧ bufOk s 32 16 = true := by
  unfold Canonical; decide +kernel

/-- A state whose chain and buffer start at the last byte of the address space. -/
def atEnd (s : State) : State :=
  { s with regs := { s.regs with descPtr := BitVec.allOnes 64, bufPtr := BitVec.allOnes 64 } }

/-- Chains, regions and IVs past 2^64: the refusals of NEWSESSION, PROCESS, STAGEIN, IVDERIVE and WRBACK. -/
theorem witness_unanswered_accesses :
    (let s := { atEnd (latchedState 1 12) with stage := { Staging.zero with dlen := 1 } };
      chainOk s 32 1 = false ∧ chainOk s 64 1 = false ∧ chainOk s 64 0 = true ∧ Canonical s
        ∧ StagingFits s (encOf s) (authOf s) ∧ bufOk s 16 16 = false ∧ ivGenerated (encOf s) = true
        ∧ (sessionOf s).counter.toNat ≠ 2 ^ 64 - 1 ∧ bufOk s 0 12 = false ∧ bufOk s 16 1 = false
        ∧ bufOk s 32 16 = false)
      ∧ (let s := atEnd (latchedState 0 16);
          ivExplicit (encOf s) = false ∧ ivGenerated (encOf s) = false ∧ bufOk s 0 16 = false)
      ∧ (let e : KEntry := { alg := 3, klen := 128, keyPtr := BitVec.allOnes 64, nonce := 0 }
          let s := { newSessionState 3 128 [7] with mem := writeBytes [] 0x1000 (encodeK e) }
          s.cfg.wf = true ∧ Canonical s ∧ KeyChain 1 s .gcm e ∧ leasedCtx s 1 ≠ 0 ∧ legalKeyLength .gcm 128 = true
            ∧ accessOk s.cfg (2 ^ 64 - 1) 16 = false) := by
  unfold Canonical StagingFits KeyChain; decide +kernel

/-- An explicit IV of sixteen bytes, the last region ending at the end of the buffer. -/
theorem witness_ProcessEncrypts_given :
    let s := processState (chainOf 3 16) []
    let enc := encEntry 3 16
    GcmChain 2 s enc authEntry ∧ GcmChecks s enc authEntry ∧ StagingFits s enc authEntry ∧ RegionsOk s enc authEntry
      ∧ Canonical s ∧ legalRounds (sessionOf s).rounds = true ∧ isEncrypt enc = true ∧ GivenIvOk s enc := by
  unfold GcmChain GcmChecks StagingFits Canonical GivenIvOk RegionsOk StagedOk; decide +kernel

theorem witness_ProcessEncrypts_generated :
    let s := processState (chainOf 1 12) []
    let enc := encEntry 1 12
    GcmChain 2 s enc authEntry ∧ GcmChecks s enc authEntry ∧ StagingFits s enc authEntry ∧ RegionsOk s enc authEntry
      ∧ Canonical s ∧ legalRounds (sessionOf s).rounds = true ∧ isEncrypt enc = true ∧ GeneratedIvOk s enc
      ∧ (sessionOf s).counter.toNat ≠ 2 ^ 64 - 1 := by
  unfold GcmChain GcmChecks StagingFits Canonical GeneratedIvOk RegionsOk StagedOk; decide +kernel

/-- A buffer whose tag fits, the IV read from its twelve zero bytes. -/
theorem witness_ProcessDecrypts_match :
    let s := processState (chainOf 0 12) sealedBuffer
    let enc := encEntry 0 12
    GcmChain 2 s enc authEntry ∧ GcmChecks s enc authEntry ∧ GivenIvOk s enc ∧ StagingFits s enc authEntry
      ∧ RegionsOk s enc authEntry ∧ Canonical s ∧ legalRounds (sessionOf s).rounds = true ∧ isEncrypt enc = false
      ∧ blk (bufAt s 32 16)
          = gcmTagRef (sessionOf s).ek (sessionOf s).rounds (givenIv s enc) [] (bufAt s 16 16) := by
  unfold GcmChain GcmChecks StagingFits Canonical GivenIvOk RegionsOk StagedOk; decide +kernel

/-- A buffer of zeros, whose tag does not. -/
theorem witness_ProcessDecrypts_mismatch :
    let s := processState (chainOf 0 12) []
    let enc := encEntry 0 12
    GcmChain 2 s enc authEntry ∧ GcmChecks s enc authEntry ∧ GivenIvOk s enc ∧ StagingFits s enc authEntry
      ∧ RegionsOk s enc authEntry ∧ Canonical s ∧ legalRounds (sessionOf s).rounds = true ∧ isEncrypt enc = false
      ∧ blk (bufAt s 32 16)
          ≠ gcmTagRef (sessionOf s).ek (sessionOf s).rounds (givenIv s enc) [] (bufAt s 16 16) := by
  unfold GcmChain GcmChecks StagingFits Canonical GivenIvOk RegionsOk StagedOk; decide +kernel

/-- Each check V1 to V8 fails on some chain (the numbers at the boundary): no such session, an unrecognised algorithm,
no encryption entry, another algorithm, no authentication entry, 15 bytes under CBC, a region one byte too long, IV
lengths 0, 17 and, generated, 11. -/
theorem witness_ProcessInvalid :
    ∀ c ∈ [(0, State.reset), (1, processState (encodeD { encEntry 1 12 with alg := 5 }) []),
           (1, processState (encodeD authEntry) []), (1, processState (encodeD { encEntry 1 12 with alg := 1 }) []),
           (1, processState (encodeD (encEntry 1 12)) []),
           (1, { processState (encodeD { encEntry 1 12 with alg := 1, length := 15 }) [] with
                   slots := [(1, { Slot.zero with used := true, tag := .cbc })] }),
           (2, processState (encodeD { encEntry 1 12 with length := 33 } ++ encodeD authEntry) []),
           (2, processState (encodeD (encEntry 1 12) ++ encodeD { authEntry with inject := 33 }) []),
           (2, processState (chainOf 2 0) []), (2, processState (chainOf 2 17) []), (2, processState (chainOf 1 11) [])],
      chainOk c.2 64 c.1 = true ∧ Malformed c.1 c.2 := by
  unfold Malformed BadIv; decide +kernel

/-- A staging limit one byte short; a CBC session; a counter at its end. -/
theorem witness_ProcessExhaustedOrRefused :
    (let s := { processState (chainOf 1 12) [] with cfg := { Config.default with stageCap := 15 } }
      let enc := encEntry 1 12
      GcmChain 2 s enc authEntry ∧ GcmChecks s enc authEntry ∧ GeneratedIvOk s enc ∧ ¬StagingFits s enc authEntry)
      ∧ CbcXtsChecks 1 { processState (encodeD { encEntry 1 12 with alg := 1 }) [] with
                           slots := [(1, { Slot.zero with used := true, tag := .cbc })] } { encEntry 1 12 with alg := 1 }
      ∧ (let s := { processState (chainOf 1 12) [] with
                      slots := [(1, { Slot.zero with used := true, tag := .gcm, counter := BitVec.allOnes 64 })] }
          let enc := encEntry 1 12
          GcmChain 2 s enc authEntry ∧ GcmChecks s enc authEntry ∧ GeneratedIvOk s enc ∧ StagingFits s enc authEntry
            ∧ StagedOk s enc authEntry ∧ (sessionOf s).counter.toNat = 2 ^ 64 - 1) := by
  unfold GcmChain GcmChecks StagingFits GeneratedIvOk CbcXtsChecks StagedOk; decide +kernel

/-- The platform fails one byte of the buffer: the last of the payload, of the tag, of the IV. -/
theorem witness_ProcessExhaustedOrRefused_regions :
    let s := fun a : Nat =>
      { processState (chainOf 1 12) [] with cfg := { Config.default with failing := [(a, 1)] } }
    let enc := encEntry 1 12
    (∀ a ∈ [0x201f, 0x202f, 0x200b],
        GcmChain 2 (s a) enc authEntry ∧ GcmChecks (s a) enc authEntry ∧ GeneratedIvOk (s a) enc
          ∧ StagingFits (s a) enc authEntry ∧ ¬RegionsOk (s a) enc authEntry
          ∧ (sessionOf (s a)).counter.toNat ≠ 2 ^ 64 - 1)
      ∧ ¬StagedOk (s 0x201f) enc authEntry ∧ StagedOk (s 0x202f) enc authEntry ∧ RegionsOk (s 0x200c) enc authEntry := by
  unfold GcmChain GcmChecks StagingFits GeneratedIvOk RegionsOk StagedOk; decide +kernel

theorem witness_ProcessFrame :
    Canonical (processState (chainOf 1 12) [])
      ∧ GcmChain 2 (processState (chainOf 1 12) []) (encEntry 1 12) authEntry
      ∧ result (exec (.process 2) (processState (chainOf 1 12) [])) (fun t => t.regs.code) = some .success := by
  unfold Canonical GcmChain; decide +kernel

theorem witness_OthersLeaveMemory :
    Instr.sgrow ≠ .ivderive ∧ Instr.sgrow ≠ .wrback ∧ (∀ n, Instr.sgrow ≠ .process n)
      ∧ result (exec .sgrow State.reset) (fun t => t.cap) = some 2 :=
  ⟨by decide, by decide, fun _ => Instr.noConfusion, by decide⟩

theorem witness_FirstCommandAfterReset :
    Config.default.wf = true ∧ Config.default.initCap = 1
      ∧ result (exec (.newsession 1) (newSessionState 3 128 [7])) (fun t => (t.regs.code, t.regs.sid)) = some (.success, 1)
      ∧ result (exec (.process 0) State.reset) (fun t => t.regs.code) = some .invalidArgument
      ∧ result (exec .freesession State.reset) (fun t => t.regs.code) = some .invalidArgument := by decide +kernel

end Sys2Proof.Tests
end

section
/-! SUPPORT. A small program logic for actions of the controller: what holds where an action goes on, and what holds
where it raises. A refusal has no next state, so nothing is asked of it. -/

namespace Sys2Proof.Machine

/-- `x` goes on only with a value that meets `P` and raises only from a state that meets `Q`. -/
def Act.Yields {α : Type} (x : Act α) (P : α → Prop) (Q : State → Prop) : Prop :=
  match x with
  | .ok a => P a
  | .raise _ s => Q s
  | .refuse _ => True

variable {α β : Type} {P : α → Prop} {Q R : State → Prop}

/-- From what an action can do, as the lemmas of Laws/ say it. -/
theorem Act.yields_of {x : Act α} (hok : ∀ a, x = .ok a → P a) (hraise : ∀ e t, x = .raise e t → Q t) :
    x.Yields P Q := by
  cases x with
  | ok a => exact hok a rfl
  | raise e s => exact hraise e s rfl
  | refuse r => trivial

/-- One action after the other. -/
theorem Act.Yields.bind {P' : β → Prop} {x : Act α} {f : α → Act β} (hx : x.Yields P Q)
    (hf : ∀ a, P a → (f a).Yields P' Q) : (x.bind f).Yields P' Q := by
  cases x with
  | ok a => exact hf a hx
  | raise e s => exact hx
  | refuse r => trivial

/-- A command's next state, by its two ways to end. -/
theorem Act.Yields.finish {P : State → Prop} {c : Command} {x : Act State} {t : State} (hx : x.Yields P Q)
    (h : finish c x = .next t) (hok : ∀ u, P u → R (endCommand c u)) (hraise : ∀ e u, Q u → R (takeError c e u)) :
    R t := by
  rcases finish_next h with ⟨u, rfl, rfl⟩ | ⟨e, u, rfl, rfl⟩
  · exact hok u hx
  · exact hraise e u hx

/-- The same for a micro-operation alone. -/
theorem Act.Yields.settle {P : State → Prop} {c : Command} {x : Act State} {t : State} (hx : x.Yields P Q)
    (h : settle c x = .next t) (hok : ∀ u, P u → R u) (hraise : ∀ e u, Q u → R (takeError c e u)) : R t := by
  rcases settle_next h with rfl | ⟨e, u, rfl, rfl⟩
  · exact hok t hx
  · exact hraise e u hx

end Sys2Proof.Machine
end

section
/-! SUPPORT. The shape of the key schedules (40_aes_keyschedule.md R121, R131, R132): round counts and zero entries. -/

namespace Sys2Proof.Machine

/-- Entry `r` of a schedule made from a list is the list's entry, or zero past the fifteen. -/
theorem roundKey_scheduleOf (l : List Block) (r : Nat) : roundKey (scheduleOf l) r = if r < 15 then l.getD r 0 else 0 := by
  split
  · rename_i h
    interval_cases r <;> rfl
  · rename_i h
    exact List.getD_eq_default _ _ (by simpa using h)

theorem zeroAbove_scheduleOf {l : List Block} {n : Nat} (h : l.length ≤ n + 1) : ZeroAbove (scheduleOf l) n := by
  intro r hr
  rw [roundKey_scheduleOf, List.getD_eq_default _ _ (by omega), ite_self]

theorem zeroAbove_zeroSchedule (n : Nat) : ZeroAbove zeroSchedule n := zeroAbove_scheduleOf (Nat.zero_le _)

theorem legalKeyBytes_iff (n : Nat) : legalKeyBytes n = true ↔ n = 16 ∨ n = 24 ∨ n = 32 := by
  simp [legalKeyBytes, or_assoc]

/-- `Nr = Nk + 6` as a number, for the three key lengths (40 R121). -/
theorem keyExpRounds_toNat {key : List Byte} (h : legalKeyBytes key.length = true) :
    (keyExpRounds key).toNat = keyWordCount key + 6 := by
  rw [keyExpRounds, if_pos h, BitVec.toNat_ofNat, keyWordCount]
  have := (legalKeyBytes_iff _).1 h
  omega

theorem legalRounds_iff (nr : BitVec 4) : legalRounds nr = true ↔ nr.toNat = 10 ∨ nr.toNat = 12 ∨ nr.toNat = 14 := by
  simp [legalRounds, ← BitVec.toNat_inj, or_assoc]

theorem legalRounds_keyExpRounds {key : List Byte} (h : legalKeyBytes key.length = true) :
    legalRounds (keyExpRounds key) = true := by
  rw [legalRounds_iff, keyExpRounds_toNat h, keyWordCount]
  have := (legalKeyBytes_iff _).1 h
  omega

theorem zeroAbove_keyExp {key : List Byte} (h : legalKeyBytes key.length = true) :
    ZeroAbove (keyExp key) (keyExpRounds key).toNat := by
  rw [keyExp, if_pos h, keyExpRounds_toNat h]
  exact zeroAbove_scheduleOf (by simp)

theorem zeroAbove_decKey (rk : Schedule) {nr : BitVec 4} (h : legalRounds nr = true) :
    ZeroAbove (decKey rk nr) nr.toNat := by
  rw [decKey, if_pos h]
  exact zeroAbove_scheduleOf (by simp)

/-- A legal session key (45 R247) gives a data key `KEYEXP` takes, and for XTS a tweak key of the same length (40
R131). -/
theorem legalKeyLength_split {t : Tag} {klen : Nat} {key : List Byte} (h : legalKeyLength t klen = true)
    (hk : key.length = klen / 8) :
    t ≠ .none ∧ legalKeyBytes (dataKey t key).length = true
      ∧ (t = .xts → (tweakKey key).length = (dataKey t key).length) := by
  cases t <;> simp [legalKeyLength] at h <;> simp [legalKeyBytes, dataKey, tweakKey] <;> omega

theorem zeroAbove_tweakSchedule {t : Tag} {key : List Byte} (hd : legalKeyBytes (dataKey t key).length = true)
    (ht : t = .xts → (tweakKey key).length = (dataKey t key).length) :
    ZeroAbove (tweakSchedule t key) (keyExpRounds (dataKey t key)).toNat := by
  unfold tweakSchedule
  split
  · rename_i hx
    have hl : legalKeyBytes (tweakKey key).length = true := ht hx ▸ hd
    have hn := zeroAbove_keyExp hl
    rwa [keyExpRounds_toNat hl, keyWordCount, ht hx, ← keyWordCount, ← keyExpRounds_toNat hd] at hn
  · exact zeroAbove_zeroSchedule _

end Sys2Proof.Machine
end

section
/-! SUPPORT. What keeps a slot as 10_state.md R37, R38 demand. -/

namespace Sys2Proof.Machine

/-- A slot index of the table, the sentinel 0 excluded (10 R38 (a)). -/
def InTable (cap j : Nat) : Prop := 1 ≤ j ∧ j < cap

theorem slotOk_zero (cap j : Nat) : SlotOk cap j Slot.zero :=
  ⟨fun _ => rfl, .inl rfl, fun _ => rfl, nofun⟩

theorem SlotOk.mono {cap cap' j : Nat} {v : Slot} (h : SlotOk cap j v) (hc : cap ≤ cap') : SlotOk cap' j v :=
  ⟨fun hj => h.1 (by omega), h.2⟩

/-- A slot that holds no session keeps its id and its context handle alone (10 R38 (c)). -/
theorem slotOk_unused {cap j : Nat} (hj : InTable cap j) {id : BitVec 32} (ctx : Handle)
    (hid : id.toNat = 0 ∨ id.toNat = j) : SlotOk cap j { Slot.zero with id := id, ctx := ctx } :=
  ⟨fun h => by unfold InTable at hj; omega, hid, fun _ => rfl, nofun⟩

/-- So does one that gets an id or a handle while it holds none. -/
theorem SlotOk.assign {cap j : Nat} {v : Slot} (h : SlotOk cap j v) (hu : v.used = false) (hj : InTable cap j)
    {id : BitVec 32} (ctx : Handle) (hid : id.toNat = 0 ∨ id.toNat = j) :
    SlotOk cap j { v with id := id, ctx := ctx } := by
  obtain ⟨_, _, hzero, _⟩ := h
  have hv := congrArg (fun w : Slot => { w with id := id, ctx := ctx }) (hzero hu)
  exact hv ▸ slotOk_unused hj ctx hid

/-- Counting changes nothing R38 speaks of, where the slot is in use. -/
theorem SlotOk.count {cap j : Nat} {v : Slot} (h : SlotOk cap j v) (hu : v.used = true) (c : BitVec 64) :
    SlotOk cap j { v with counter := c } := by
  obtain ⟨hout, hid, _, hused⟩ := h
  refine ⟨fun hj => ?_, hid, fun hf => ?_, hused⟩
  · rw [hout hj] at hu; cases hu
  · rw [hu] at hf; cases hf

/-- Key setup with a legal key makes a sound slot out of one that has its id and a handle (45 R247). -/
theorem slotOk_sessionSlot {cap j klen : Nat} {t : Tag} {nonce : BitVec 32} {key : List Byte} {old : Slot}
    (hj : InTable cap j) (hid : old.id.toNat = j) (hctx : old.ctx ≠ 0) (hl : legalKeyLength t klen = true)
    (hk : key.length = klen / 8) : SlotOk cap j (sessionSlot t nonce key old) := by
  obtain ⟨htag, hdata, htweak⟩ := legalKeyLength_split hl hk
  have hrounds := legalRounds_keyExpRounds hdata
  refine ⟨fun h => by unfold InTable at hj; omega, .inr hid, nofun, fun _ => ⟨hid, hctx, htag, hrounds,
    zeroAbove_keyExp hdata, zeroAbove_decKey _ hrounds, zeroAbove_tweakSchedule hdata htweak, ?_, ?_⟩⟩
  · intro hx; exact if_neg hx
  · intro hg; exact if_neg hg

end Sys2Proof.Machine
end

section
/-! SUPPORT. The part of the invariant that speaks of the tables (10_state.md R36, R38), which a command keeps at every
phase, and what keeps it. -/

namespace Sys2Proof.Machine

/-- The invariant of the idle engine without the call-scoped state. -/
structure TableInv (s : State) : Prop where
  cfg : s.cfg.wf = true
  bus : s.bus = none
  canonical : Canonical s
  cap : CapOk s
  slots : ∀ j, SlotOk s.cap.toNat j (slotOf s.slots j)

theorem idleInv_iff (s : State) : IdleInv s ↔ TableInv s ∧ IdleZero s :=
  ⟨fun ⟨hcfg, hbus, hzero, hcan, hcap, hslots⟩ => ⟨⟨hcfg, hbus, hcan, hcap, hslots⟩, hzero⟩,
   fun ⟨⟨hcfg, hbus, hcan, hcap, hslots⟩, hzero⟩ => ⟨hcfg, hbus, hzero, hcan, hcap, hslots⟩⟩

variable {s : State}

/-- Only these fields matter to it. -/
theorem tableInv_congr {t : State} (h : TableInv s) (hcfg : t.cfg = s.cfg) (hbus : t.bus = s.bus)
    (hmem : t.mem = s.mem) (hslots : t.slots = s.slots) (hcap : t.cap = s.cap) : TableInv t := by
  obtain ⟨h1, h2, ⟨h3, h4⟩, h5, h6⟩ := h
  unfold CapOk at h5
  rw [← hcap, ← hcfg] at h5
  rw [← hcap, ← hslots] at h6
  exact ⟨hcfg ▸ h1, hbus ▸ h2, ⟨hmem ▸ h3, hslots ▸ h4⟩, h5, h6⟩

theorem TableInv.one_le_cap (h : TableInv s) : 1 ≤ s.cap.toNat := by
  have hc := h.cfg
  simp only [Config.wf, Bool.and_eq_true, decide_eq_true_eq] at hc
  obtain ⟨_, _, _⟩ := h.cap
  omega

/-- A store that answers keeps it (20 R63). -/
theorem tableInv_write (h : TableInv s) {a : Nat} {B : List Byte} (hB : accessOk s.cfg a B.length = true) :
    TableInv { s with mem := writeBytes s.mem a B } :=
  ⟨h.cfg, h.bus, ⟨writeBytes_canonical h.canonical.1 hB, h.canonical.2⟩, h.cap, h.slots⟩

/-- Writing a sound slot keeps it. -/
theorem tableInv_putSlot (h : TableInv s) {j : BitVec 32} {v : Slot} (hv : SlotOk s.cap.toNat j.toNat v) :
    TableInv (putSlot j v s) := by
  refine ⟨h.cfg, h.bus, ⟨h.canonical.1, slotsWf_putSlot h.canonical.2 j v⟩, h.cap, fun k => ?_⟩
  have hk := slotOf_putSlot h.canonical.2 j v k
  rw [hk]
  split
  · rename_i hkj; subst hkj; exact hv
  · exact h.slots k

/-- Clearing a slot of the table keeps it (45 R255). -/
theorem tableInv_sclear (h : TableInv s) {j : BitVec 32} (hj : InTable s.cap.toNat j.toNat) : TableInv (sclear j s) := by
  obtain ⟨_, hid, _, _⟩ := h.slots j.toNat
  exact tableInv_putSlot h (slotOk_unused hj _ hid)

/-- Counting in a used slot keeps it (45 R262). -/
theorem tableInv_count (h : TableInv s) {j : BitVec 32} (hu : (getSlot s j).used = true) (c : BitVec 64) :
    TableInv (putSlot j { getSlot s j with counter := c } s) :=
  tableInv_putSlot h (SlotOk.count (h.slots j.toNat) hu c)

/-- The choice of a slot keeps it, with the capacity it leaves; the slot chosen lies in the table and holds no session
(45 R240, R244). -/
theorem tableInv_chosen (h : TableInv s) {j cap : BitVec 32} (hc : Chosen s j cap) :
    TableInv { s with cap := cap } ∧ InTable cap.toNat j.toNat ∧ (getSlot s j).used = false := by
  rcases hc with ⟨⟨h1, hlt, hu, _⟩, rfl⟩ | ⟨_, hmax, rfl, hcap⟩
  · exact ⟨h, ⟨h1, hlt⟩, hu⟩
  · have h1 := h.one_le_cap
    obtain ⟨⟨k, hk⟩, hlo, _⟩ := h.cap
    have hgrown : CapOk { s with cap := cap } :=
      ⟨⟨k + 1, by rw [hcap, hk, pow_succ]; ring⟩, hlo.trans (by show _ ≤ cap.toNat; omega), hcap.trans_le hmax⟩
    have hzero : slotOf s.slots s.cap.toNat = Slot.zero := (h.slots _).1 (.inr le_rfl)
    refine ⟨⟨h.cfg, h.bus, h.canonical, hgrown, fun i => ?_⟩, ⟨h1, by omega⟩, ?_⟩
    · exact (h.slots i).mono (by rw [hcap]; omega)
    · rw [getSlot_def, hzero]; rfl

end Sys2Proof.Machine
end

section
/-! SUPPORT. What phase EXECUTE can do (46_gcm_engine.md, 47_process.md R320 to R323): it works on W, the staging memory
and the two flags alone. -/

namespace Sys2Proof.Machine

theorem ctrXorStage_frame (j : BitVec 32) (enc : Bool) (s : State) :
    ctrXorStage j enc s
      = { s with work := (ctrXorStage j enc s).work, stage := (ctrXorStage j enc s).stage } := rfl

theorem gcmEnc_frame (j : BitVec 32) (s : State) :
    gcmEnc j s = { s with work := (gcmEnc j s).work, stage := (gcmEnc j s).stage, authOk := true } := rfl

/-- GCMDEC answers only after the tag matched, and raises with the verdict in `auth_ok` (46 R280, R284). -/
theorem gcmDec_ok {s t : State} {j : BitVec 32} (h : gcmDec j s = .ok t) :
    ∃ w st, t = { s with work := w, stage := st, authOk := true } := by
  obtain ⟨u, hu, h⟩ := bind_eq_ok h
  obtain ⟨_, rfl⟩ := tagVfy_ok hu
  cases h
  exact ⟨_, _, ctrXorStage_frame _ _ _⟩

theorem gcmDec_raise {s t : State} {j : BitVec 32} {e : Status} (h : gcmDec j s = .raise e t) :
    ∃ w, t = { s with work := w, authOk := false } := by
  rcases bind_eq_raise h with h | ⟨u, _, h⟩
  · obtain ⟨_, _, rfl⟩ := tagVfy_raise h
    exact ⟨_, rfl⟩
  · cases h

/-- EXECUTE activates the context and goes on to WRITEBACK (47 R320). -/
theorem execute_ok {s t : State} {j : BitVec 32} (h : execute j s = .ok t) :
    ∃ w st, t = { s with work := w, stage := st, authOk := true, ctxActive := true, phase := .writeback } := by
  unfold execute at h
  split at h
  · cases h
    exact ⟨_, _, congrArg (setPhase .writeback) (gcmEnc_frame j (setCtxActive true s))⟩
  · obtain ⟨_, _, h⟩ := bind_eq_ok h
    obtain ⟨_, hu, h⟩ := bind_eq_ok h
    obtain ⟨w, st, rfl⟩ := gcmDec_ok hu
    cases h
    exact ⟨w, st, rfl⟩

theorem execute_raise {s t : State} {j : BitVec 32} {e : Status} (h : execute j s = .raise e t) :
    ∃ w, t = { s with work := w, authOk := false, ctxActive := true } := by
  unfold execute at h
  split at h
  · cases h
  · rcases bind_eq_raise h with h | ⟨_, _, h⟩
    · exact absurd h memRead_no_raise
    · rcases bind_eq_raise h with h | ⟨_, _, h⟩
      · obtain ⟨w, rfl⟩ := gcmDec_raise h
        exact ⟨w, rfl⟩
      · cases h

end Sys2Proof.Machine
end

section
/-! SUPPORT. Every command keeps the tables sound at every phase and leaves the call-scoped state zero (10_state.md R38,
R46). -/

namespace Sys2Proof.Machine

/-- The call-scoped state that the release actions of a command do not clear (45 R250, R256; 47 R330): it must be zero
before them. -/
def UnreleasedZero : Command → State → Prop
  | .newSession, s => s.work = .zero ∧ s.authOk = false ∧ s.stage = .zero
  | .freeSession, s =>
    s.work = .zero ∧ s.authOk = false ∧ s.ctxActive = false ∧ s.stage = .zero ∧ s.chain = .zero ∧ s.keys = .zero
  | .process, s => s.keys = .zero

/-- What holds at every phase of a command. -/
def CommandInv (c : Command) (s : State) : Prop := TableInv s ∧ UnreleasedZero c s

variable {s : State}

theorem unreleasedZero_of_idleZero (h : IdleZero s) (c : Command) : UnreleasedZero c s := by
  obtain ⟨hwork, _, hauth, hctx, _, hstage, hchain, hkeys⟩ := h
  cases c with
  | newSession => exact ⟨hwork, hauth, hstage⟩
  | freeSession => exact ⟨hwork, hauth, hctx, hstage, hchain, hkeys⟩
  | process => exact hkeys

/-- The normal end of a command. -/
theorem idleInv_endCommand {c : Command} (h : CommandInv c s) : IdleInv (endCommand c s) := by
  obtain ⟨htab, hz⟩ := h
  refine (idleInv_iff _).2 ⟨tableInv_congr htab (by simp) (by simp) (by simp) (by simp) (by simp), ?_⟩
  cases c with
  | newSession =>
    obtain ⟨hwork, hauth, hstage⟩ := hz
    exact ⟨hwork, rfl, hauth, rfl, rfl, hstage, rfl, rfl⟩
  | freeSession =>
    obtain ⟨hwork, hauth, hctx, hstage, hchain, hkeys⟩ := hz
    exact ⟨hwork, rfl, hauth, hctx, rfl, hstage, hchain, hkeys⟩
  | process => exact ⟨rfl, rfl, rfl, rfl, rfl, rfl, rfl, hz⟩

/-- A command that raises leaves what one that ends normally leaves, but for SID and CODE. -/
theorem idleInv_takeError {c : Command} (e : Status) (h : CommandInv c s) : IdleInv (takeError c e s) := by
  have hend := idleInv_endCommand h
  cases c <;> exact hend

/-- A command whose actions keep `CommandInv` leads to an idle engine. -/
theorem idleInv_finish {c : Command} {x : Act State} {t : State} (hx : x.Yields (CommandInv c) (CommandInv c))
    (h : finish c x = .next t) : IdleInv t :=
  hx.finish h (fun _ => idleInv_endCommand) fun e _ => idleInv_takeError e

/-! ### NEWSESSION -/

/-- Slot `j` is chosen for a new session: in the table, not in use, with its id (45 R240). -/
def Reserved (j : BitVec 32) (s : State) : Prop :=
  InTable s.cap.toNat j.toNat ∧ (getSlot s j).used = false ∧ (getSlot s j).id = j

theorem fetchChain_keeps {c : Command} (E n : Nat) (hc : c ≠ .freeSession) (h : CommandInv c s) :
    (fetchChain E n s).Yields
      (fun t => CommandInv c t ∧ t.regs.sid = s.regs.sid) (CommandInv c) := by
  refine Act.yields_of (fun t ht => ?_) fun e t ht => absurd ht fetchChain_no_raise
  obtain ⟨_, rfl⟩ := fetchChain_ok ht
  obtain ⟨htab, hz⟩ := h
  refine ⟨⟨tableInv_congr htab rfl rfl rfl rfl rfl, ?_⟩, rfl⟩
  cases c with
  | newSession => exact hz
  | freeSession => exact absurd rfl hc
  | process => exact hz

theorem salloc_keeps (h : CommandInv .newSession s) :
    (salloc s).Yields (fun r => CommandInv .newSession r.2 ∧ Reserved r.1 r.2) (CommandInv .newSession) := by
  obtain ⟨htab, hz⟩ := h
  refine Act.yields_of (fun r hr => ?_) fun e t ht => ?_
  · obtain ⟨j, t⟩ := r
    obtain ⟨cap, hchosen, rfl⟩ := salloc_ok htab.cfg hr
    obtain ⟨hgrown, hj, hu⟩ := tableInv_chosen htab hchosen
    have hslot : SlotOk cap.toNat j.toNat { getSlot s j with id := j } :=
      (hgrown.slots j.toNat).assign hu hj _ (.inr rfl)
    have hnew := getSlot_putSlot_same htab.canonical.2 j { getSlot s j with id := j }
    refine ⟨⟨tableInv_putSlot hgrown hslot, hz⟩, hj, ?_, ?_⟩
    · exact (congrArg Slot.used hnew).trans hu
    · exact congrArg Slot.id hnew
  · obtain ⟨_, _, _, rfl⟩ := salloc_raise ht
    exact ⟨htab, hz⟩

theorem tableInv_afterLease (h : TableInv s) : TableInv (afterLease s) :=
  tableInv_congr h (by simp) (by simp) (by simp) (by simp) (by simp)

theorem unreleasedZero_afterLease (h : UnreleasedZero .newSession s) : UnreleasedZero .newSession (afterLease s) := by
  obtain ⟨hwork, hauth, hstage⟩ := h
  exact ⟨by simpa using hwork, by simpa using hauth, by simpa using hstage⟩

theorem lease_keeps {j : BitVec 32} (h : CommandInv .newSession s) (hj : Reserved j s) :
    (lease j s).Yields (fun t => CommandInv .newSession t ∧ Reserved j t ∧ (getSlot t j).ctx ≠ 0)
      (CommandInv .newSession) := by
  obtain ⟨htab, hz⟩ := h
  obtain ⟨hin, hu, hid⟩ := hj
  refine Act.yields_of (fun t ht => ?_) fun e t ht => ?_
  · obtain ⟨hctx, ⟨hheld, rfl⟩ | ⟨hnone, rfl⟩⟩ := lease_ok ht
    · exact ⟨⟨htab, hz⟩, ⟨hin, hu, hid⟩, hheld⟩
    · rw [leasedCtx, if_pos hnone] at hctx
      have htab' := tableInv_afterLease htab
      have hslot : SlotOk (afterLease s).cap.toNat j.toNat { getSlot s j with ctx := leaseAnswer s } := by
        rw [afterLease_cap]
        exact (htab.slots j.toNat).assign hu hin _ (.inr (congrArg BitVec.toNat hid))
      have hnew := getSlot_putSlot_same htab'.canonical.2 j { getSlot s j with ctx := leaseAnswer s }
      refine ⟨⟨tableInv_putSlot htab' hslot, unreleasedZero_afterLease hz⟩, ⟨?_, ?_, ?_⟩, ?_⟩
      · rw [putSlot_cap, afterLease_cap]; exact hin
      · exact (congrArg Slot.used hnew).trans hu
      · exact (congrArg Slot.id hnew).trans hid
      · exact (congrArg Slot.ctx hnew).trans_ne hctx
  · obtain ⟨_, _, rfl⟩ := lease_raise ht
    exact ⟨tableInv_afterLease htab, unreleasedZero_afterLease hz⟩

theorem keySetup_keeps {j : BitVec 32} {t : Tag} {e : KEntry} (h : CommandInv .newSession s) (hj : Reserved j s)
    (hctx : (getSlot s j).ctx ≠ 0) :
    (keySetup j t e s).Yields (CommandInv .newSession) (CommandInv .newSession) := by
  obtain ⟨htab, hz⟩ := h
  obtain ⟨hin, _, hid⟩ := hj
  refine Act.yields_of (fun u hu => ?_) fun er u hu => ?_
  · obtain ⟨hl, _, rfl⟩ := keySetup_ok hu
    have htab' : TableInv (latchKey t (readBytes s.mem e.keyPtr.toNat (e.klen.toNat / 8)) s) :=
      tableInv_congr htab rfl rfl rfl rfl rfl
    refine ⟨tableInv_putSlot htab' ?_, hz⟩
    exact slotOk_sessionSlot hin (congrArg BitVec.toNat hid) hctx hl (readBytes_length _ _ _)
  · obtain ⟨_, _, rfl⟩ := keySetup_raise hu
    exact ⟨tableInv_sclear htab hin, hz⟩

theorem createSession_keeps (t : Tag) (e : KEntry) (h : CommandInv .newSession s) :
    (createSession t e s).Yields (CommandInv .newSession) (CommandInv .newSession) := by
  refine (salloc_keeps h).bind fun r ⟨h1, hj⟩ => ?_
  refine (lease_keeps h1 hj).bind fun s2 ⟨h2, hj, hctx⟩ => ?_
  have hactive : CommandInv .newSession (setCtxActive true s2) := ⟨tableInv_congr h2.1 rfl rfl rfl rfl rfl, h2.2⟩
  refine (keySetup_keeps hactive hj hctx).bind fun s3 h3 => ?_
  exact ⟨tableInv_congr h3.1 rfl rfl rfl rfl rfl, h3.2⟩

theorem newSession_keeps (n : Nat) (h : CommandInv .newSession s) :
    (newSession n s).Yields (CommandInv .newSession) (CommandInv .newSession) := by
  have hphase : CommandInv .newSession (setPhase .session s) := ⟨tableInv_congr h.1 rfl rfl rfl rfl rfl, h.2⟩
  refine (fetchChain_keeps 32 n (by decide) hphase).bind fun s1 ⟨h1, _⟩ => ?_
  cases sessionEntry s1.chain.entries with
  | none => exact h1
  | some te => exact createSession_keeps te.1 te.2 h1

/-! ### FREESESSION -/

theorem freeSession_keeps (h : CommandInv .freeSession s) :
    (freeSession s).Yields (CommandInv .freeSession) (CommandInv .freeSession) := by
  have hphase : CommandInv .freeSession (setPhase .session s) := ⟨tableInv_congr h.1 rfl rfl rfl rfl rfl, h.2⟩
  refine Act.Yields.bind (P := fun j => InTable s.cap.toNat j.toNat) (Act.yields_of (fun j hj => ?_) fun e t ht => ?_)
    fun j hj => ?_
  · obtain ⟨hr, rfl⟩ := slookup_ok hj
    exact (inRange_iff _ _).1 hr
  · obtain ⟨_, _, rfl⟩ := slookup_raise ht
    exact hphase
  · exact ⟨tableInv_sclear hphase.1 hj, hphase.2⟩

/-! ### PROCESS -/

theorem validate_keeps (h : CommandInv .process s) :
    (validate s).Yields (fun t => CommandInv .process t ∧ (getSlot t s.regs.sid).used = true) (CommandInv .process) := by
  refine Act.yields_of (fun t ht => ?_) fun e t ht => ?_
  · obtain ⟨hpass, _, rfl⟩ := validate_ok ht
    simp only [checksPass, checkV1, Bool.and_eq_true, and_assoc] at hpass
    obtain ⟨_, hused, _⟩ := hpass
    exact ⟨⟨tableInv_congr h.1 rfl rfl rfl rfl rfl, h.2⟩, hused⟩
  · obtain ⟨_, _, rfl⟩ := validate_raise ht
    exact h

theorem stageIn_keeps (h : CommandInv .process s) (j : BitVec 32) (hu : (getSlot s j).used = true) :
    (stageIn s).Yields (fun t => CommandInv .process t ∧ (getSlot t j).used = true) (CommandInv .process) := by
  refine Act.yields_of (fun t ht => ?_) fun e t ht => ?_
  · obtain ⟨_, rfl⟩ := stageIn_ok ht
    exact ⟨⟨tableInv_congr h.1 rfl rfl rfl rfl rfl, h.2⟩, hu⟩
  · obtain ⟨_, _, rfl⟩ := stageIn_raise ht
    exact h

/-- Where the IV is generated the counter of a used slot counts and the IV is stored; else no slot and no byte of memory
changes (44 R218). -/
theorem ivDerive_keeps (h : CommandInv .process s) {j : BitVec 32} (hu : (getSlot s j).used = true) :
    (ivDerive j s).Yields (CommandInv .process) (CommandInv .process) := by
  refine Act.yields_of (fun t ht => ?_) fun e t ht => absurd ht ivDerive_no_raise
  obtain ⟨_, rfl⟩ | ⟨_, _, u, iv, rfl, rfl, hiv, rfl⟩ | ⟨_, _, rfl⟩ := ivDerive_ok ht
  · exact ⟨tableInv_congr h.1 rfl rfl rfl rfl rfl, h.2⟩
  · have hstored := tableInv_write (tableInv_count h.1 hu ((getSlot s j).counter + 1)) hiv
    exact ⟨tableInv_congr hstored rfl rfl rfl rfl rfl, h.2⟩
  · exact ⟨tableInv_congr h.1 rfl rfl rfl rfl rfl, h.2⟩

theorem execute_keeps (j : BitVec 32) (h : CommandInv .process s) :
    (execute j s).Yields (CommandInv .process) (CommandInv .process) := by
  refine Act.yields_of (fun t ht => ?_) fun e t ht => ?_
  · obtain ⟨w, st, rfl⟩ := execute_ok ht
    exact ⟨tableInv_congr h.1 rfl rfl rfl rfl rfl, h.2⟩
  · obtain ⟨w, rfl⟩ := execute_raise ht
    exact ⟨tableInv_congr h.1 rfl rfl rfl rfl rfl, h.2⟩

theorem wrBack_keeps (h : CommandInv .process s) : (wrBack s).Yields (CommandInv .process) (CommandInv .process) := by
  refine Act.yields_of (fun t ht => ?_) fun e t ht => absurd ht wrBack_no_raise
  obtain ⟨hout, htag, rfl⟩ := wrBack_ok ht
  have hstored := tableInv_write h.1 hout
  refine ⟨?_, h.2⟩
  unfold wrBackMem
  split
  · rename_i henc
    exact tableInv_congr (tableInv_write hstored (htag henc)) rfl rfl rfl rfl rfl
  · exact tableInv_congr hstored rfl rfl rfl rfl rfl

theorem process_keeps (n : Nat) (h : CommandInv .process s) :
    (process n s).Yields (CommandInv .process) (CommandInv .process) := by
  have hphase : CommandInv .process (setPhase .validate s) := ⟨tableInv_congr h.1 rfl rfl rfl rfl rfl, h.2⟩
  refine (fetchChain_keeps 64 n (by decide) hphase).bind fun s1 ⟨h1, hsid⟩ => ?_
  refine (validate_keeps h1).bind fun s2 ⟨h2, hused⟩ => ?_
  rw [hsid] at hused
  refine (stageIn_keeps h2 _ hused).bind fun s3 ⟨h3, hused⟩ => ?_
  refine (ivDerive_keeps h3 hused).bind fun s4 h4 => ?_
  exact (execute_keeps s.regs.sid h4).bind fun s5 h5 => wrBack_keeps h5

end Sys2Proof.Machine
end

section
/-! SUPPORT. The register block: what a write and a read at an offset do, and how a host access reaches it (10_state.md
R27 to R35). -/

namespace Sys2Proof.Machine

/-! ### Words and bytes -/

/-- Four bytes of a word in a row are 32 bits of it. -/
theorem append_four_bytes {n : Nat} (v : BitVec n) (o : Nat) :
    v.extractLsb' (o + 24) 8 ++ v.extractLsb' (o + 16) 8 ++ v.extractLsb' (o + 8) 8 ++ v.extractLsb' o 8
      = v.extractLsb' o 32 := by
  rw [BitVec.extractLsb'_append_extractLsb'_eq_extractLsb' (by omega),
    BitVec.extractLsb'_append_extractLsb'_eq_extractLsb' (by omega),
    BitVec.extractLsb'_append_extractLsb'_eq_extractLsb' (by omega)]

theorem extractLsb'_extractLsb'_shift {n : Nat} (v : BitVec n) (o m : Nat) {i k : Nat} (h : i + k ≤ m) :
    (v.extractLsb' o m).extractLsb' i k = v.extractLsb' (o + i) k := by
  refine BitVec.eq_of_getLsbD_eq fun b hb => ?_
  simp [hb, show i + b < m by omega, Nat.add_assoc]

theorem le32At_toLe32 (v : BitVec 32) : le32At (toLe32 v) 0 = v :=
  (append_four_bytes v 0).trans BitVec.extractLsb'_eq_self

theorem le32At_toLe64_low (v : Addr) : le32At (toLe64 v) 0 = v.extractLsb' 0 32 := append_four_bytes v 0

theorem le32At_toLe64_high (v : Addr) : le32At (toLe64 v) 4 = v.extractLsb' 32 32 := append_four_bytes v 32

theorem toLe32_halves (v : Addr) : toLe32 (v.extractLsb' 0 32) ++ toLe32 (v.extractLsb' 32 32) = toLe64 v := by
  simp [toLe32, toLe64, extractLsb'_extractLsb'_shift]

theorem toLe32_zero : toLe32 0 = [0, 0, 0, 0] := by decide

/-- Both halves replaced, the low one first, give the new word. -/
theorem withHigh_withLow (v a : Addr) : withHigh (v.extractLsb' 32 32) (withLow (v.extractLsb' 0 32) a) = v := by
  unfold withHigh withLow
  rw [BitVec.extractLsb'_append_eq_right]
  exact BitVec.extractLsb'_append_extractLsb'

/-! ### Writes at an offset -/

theorem writeStatus_eq (v : BitVec 32) (s : State) :
    writeStatus v s = { s with regs := { s.regs with done := s.regs.done && !v.getLsbD 1 } } := by
  unfold writeStatus
  cases v.getLsbD 1 <;> simp [acknowledge]

/-- An operand write changes registers alone, none of them while BUSY (10 R35). -/
theorem writeOperand_registers (f : Regs → Regs) (s : State) (hf : (f s.regs).busy = s.regs.busy) :
    ∃ r : Regs, r.busy = s.regs.busy ∧ writeOperand f s = { s with regs := r } := by
  unfold writeOperand
  split
  · exact ⟨s.regs, rfl, rfl⟩
  · exact ⟨f s.regs, hf, rfl⟩

/-- A write anywhere but at CMD changes registers alone, and never BUSY. -/
theorem regWrite32_registers {off : Nat} (hoff : off ≠ 0x00) (v : BitVec 32) (s : State) :
    ∃ r : Regs, r.busy = s.regs.busy ∧ regWrite32 off v s = .next { s with regs := r } := by
  have operand : ∀ f : Regs → Regs, (f s.regs).busy = s.regs.busy →
      ∃ r : Regs, r.busy = s.regs.busy
        ∧ (Host.Outcome.next (writeOperand f s) : Host.Outcome State Fault Refusal) = .next { s with regs := r } :=
    fun f hf => (writeOperand_registers f s hf).imp fun r ⟨hb, he⟩ => ⟨hb, congrArg _ he⟩
  rw [regWrite32, if_neg hoff]
  split_ifs
  · exact ⟨{ s.regs with done := s.regs.done && !v.getLsbD 1 }, rfl, congrArg _ (writeStatus_eq v s)⟩
  on_goal 8 => exact ⟨s.regs, rfl, rfl⟩
  all_goals exact operand _ rfl

theorem writeOperand_busy {s : State} (h : s.regs.busy = true) (f : Regs → Regs) : writeOperand f s = s := if_pos h

theorem writeOperand_free {s : State} (h : s.regs.busy = false) (f : Regs → Regs) :
    writeOperand f s = { s with regs := f s.regs } := by
  simp [writeOperand, h]

/-! Each operand register takes the write where the engine is not busy (10 R30 to R35). -/

section
variable {s : State}

theorem regWrite32_sid (hb : s.regs.busy = false) (v : BitVec 32) :
    regWrite32 0x10 v s = .next { s with regs := { s.regs with sid := v } } := by
  simp [regWrite32, writeOperand_free hb]

theorem regWrite32_descPtr_low (hb : s.regs.busy = false) (v : BitVec 32) :
    regWrite32 0x18 v s = .next { s with regs := { s.regs with descPtr := withLow v s.regs.descPtr } } := by
  simp [regWrite32, writeOperand_free hb]

theorem regWrite32_descPtr_high (hb : s.regs.busy = false) (v : BitVec 32) :
    regWrite32 0x1c v s = .next { s with regs := { s.regs with descPtr := withHigh v s.regs.descPtr } } := by
  simp [regWrite32, writeOperand_free hb]

theorem regWrite32_bufPtr_low (hb : s.regs.busy = false) (v : BitVec 32) :
    regWrite32 0x20 v s = .next { s with regs := { s.regs with bufPtr := withLow v s.regs.bufPtr } } := by
  simp [regWrite32, writeOperand_free hb]

theorem regWrite32_bufPtr_high (hb : s.regs.busy = false) (v : BitVec 32) :
    regWrite32 0x24 v s = .next { s with regs := { s.regs with bufPtr := withHigh v s.regs.bufPtr } } := by
  simp [regWrite32, writeOperand_free hb]

theorem regWrite32_bufLen (hb : s.regs.busy = false) (v : BitVec 32) :
    regWrite32 0x28 v s = .next { s with regs := { s.regs with bufLen := v } } := by
  simp [regWrite32, writeOperand_free hb]

theorem regWrite32_ctrl (hb : s.regs.busy = false) (v : BitVec 32) :
    regWrite32 0x30 v s = .next { s with regs := { s.regs with ie := v.getLsbD 0 } } := by
  simp [regWrite32, writeOperand_free hb]

end

theorem operand_offset {off : Nat} (h : off ∈ [0x10, 0x18, 0x1c, 0x20, 0x24, 0x28, 0x30]) :
    off + 4 ≤ 64 ∧ off % 4 = 0 := by
  fin_cases h <;> decide

theorem unused_offset {off : Nat} (h : off ∈ [0x04, 0x0c, 0x14, 0x2c, 0x34, 0x38, 0x3c]) :
    off + 4 ≤ 64 ∧ off % 4 = 0 ∧ off ≠ 0x08 := by
  fin_cases h <;> decide

/-- The cells that hold nothing ignore writes (10 R27). -/
theorem regWrite32_unused {off : Nat} (h : off ∈ [0x04, 0x0c, 0x14, 0x2c, 0x34, 0x38, 0x3c]) (v : BitVec 32) (s : State) :
    regWrite32 off v s = .next s := by
  fin_cases h <;> rfl

/-- The word of STATUS as a number, by its 20 values (10 R29, 60 R340). -/
theorem statusWord_toNat (r : Regs) :
    (statusWord r).toNat
      = (if r.busy then 1 else 0) + (if r.done then 2 else 0) + 16 * (statusCode r.code).toNat := by
  unfold statusWord
  cases r.busy <;> cases r.done <;> cases r.code <;> rfl

/-- The cells that hold nothing read 0 (10 R27). -/
theorem regRead32_unused {off : Nat} (h : off ∈ [0x04, 0x0c, 0x14, 0x2c, 0x34, 0x38, 0x3c]) (r : Regs) :
    regRead32 off r = 0 := by
  fin_cases h <;> rfl

/-- Operand registers and CTRL ignore writes while BUSY (10 R35). -/
theorem regWrite32_operand_busy {off : Nat} (h : off ∈ [0x10, 0x18, 0x1c, 0x20, 0x24, 0x28, 0x30]) (v : BitVec 32)
    {s : State} (hb : s.regs.busy = true) : regWrite32 off v s = .next s := by
  have hw := writeOperand_busy hb
  fin_cases h <;> exact congrArg Host.Outcome.next (hw _)

/-! ### Host accesses to the block -/

/-- An access of `n` bytes at offset `off` of the block, aligned to its size (10 R35). -/
theorem access_at_offset {c : Config} (hc : c.wf = true) {off n : Nat} (hn : 0 < n) (hoff : off + n ≤ 64)
    (ha : off % n = 0) :
    (BitVec.ofNat 64 (c.engineBase + off)).toNat - c.engineBase = off
      ∧ touchesBlock c (BitVec.ofNat 64 (c.engineBase + off)).toNat n = true
      ∧ alignedInBlock c (BitVec.ofNat 64 (c.engineBase + off)).toNat n = true := by
  simp only [Config.wf, Bool.and_eq_true, decide_eq_true_eq] at hc
  obtain ⟨_, hend⟩ := hc
  have hnat : (BitVec.ofNat 64 (c.engineBase + off)).toNat = c.engineBase + off := by
    rw [BitVec.toNat_ofNat, Nat.mod_eq_of_lt (by omega)]
  rw [hnat]
  refine ⟨by omega, ?_, ?_⟩
  · simp only [touchesBlock, Bool.and_eq_true, decide_eq_true_eq]
    omega
  · simp only [alignedInBlock, Bool.and_eq_true, decide_eq_true_eq, Nat.add_sub_cancel_left]
    exact ⟨⟨by omega, by omega⟩, ha⟩

variable {s : State}

theorem hostStore_four {addr : Addr} {data : List Byte} (hlen : data.length = 4)
    (ht : touchesBlock s.cfg addr.toNat 4 = true) (ha : alignedInBlock s.cfg addr.toNat 4 = true) :
    hostStore addr data s = regWrite32 (addr.toNat - s.cfg.engineBase) (le32At data 0) s := by
  simp [hostStore, hlen, ht, ha]

/-- A 64-bit store is its two halves, low half first (10 R35). -/
theorem hostStore_eight {addr : Addr} {data : List Byte} {s1 : State} (hlen : data.length = 8)
    (ht : touchesBlock s.cfg addr.toNat 8 = true) (ha : alignedInBlock s.cfg addr.toNat 8 = true)
    (hlow : regWrite32 (addr.toNat - s.cfg.engineBase) (le32At data 0) s = .next s1) :
    hostStore addr data s = regWrite32 (addr.toNat - s.cfg.engineBase + 4) (le32At data 4) s1 := by
  simp [hostStore, hlen, ht, ha, hlow]

theorem hostLoad_four {addr : Addr} (ht : touchesBlock s.cfg addr.toNat 4 = true)
    (ha : alignedInBlock s.cfg addr.toNat 4 = true) :
    hostLoad addr 4 s
      = .next { giveBack (addr.toNat - s.cfg.engineBase) s with
          rdata := toLe32 (regRead32 (addr.toNat - s.cfg.engineBase) s.regs) } := by
  simp [hostLoad, ht, ha]

theorem hostLoad_eight {addr : Addr} (ht : touchesBlock s.cfg addr.toNat 8 = true)
    (ha : alignedInBlock s.cfg addr.toNat 8 = true) :
    hostLoad addr 8 s
      = .next { giveBack (addr.toNat - s.cfg.engineBase) s with
          rdata := toLe32 (regRead32 (addr.toNat - s.cfg.engineBase) s.regs)
            ++ toLe32 (regRead32 (addr.toNat - s.cfg.engineBase + 4) s.regs) } := by
  simp [hostLoad, ht, ha]

/-- Neither size, or not aligned inside the block: no meaning, for loads and stores alike (10 R35). -/
theorem access_malformed {addr : Addr} {data : List Byte} {n : Nat} (hlen : data.length = n)
    (ht : touchesBlock s.cfg addr.toNat n = true)
    (hm : (n = 4 ∨ n = 8) → alignedInBlock s.cfg addr.toNat n = false) :
    hostStore addr data s = .refused .malformedRegisterAccess
      ∧ hostLoad addr n s = .refused .malformedRegisterAccess := by
  have h4 : (decide (n = 4) && alignedInBlock s.cfg addr.toNat 4) = false := by
    by_cases h : n = 4
    · subst h; simp [hm]
    · simp [h]
  have h8 : (decide (n = 8) && alignedInBlock s.cfg addr.toNat 8) = false := by
    by_cases h : n = 8
    · subst h; simp [hm]
    · simp [h]
  simp [hostStore, hostLoad, hlen, ht, h4, h8]

/-! ### The block by offsets -/

theorem hostStore_word (hc : s.cfg.wf = true) {off : Nat} (hoff : off + 4 ≤ 64) (ha : off % 4 = 0) (v : BitVec 32) :
    hostStore (BitVec.ofNat 64 (s.cfg.engineBase + off)) (toLe32 v) s = regWrite32 off v s := by
  obtain ⟨haddr, ht, ha⟩ := access_at_offset hc (by decide) hoff ha
  rw [hostStore_four rfl ht ha, haddr, le32At_toLe32]

theorem hostStore_double (hc : s.cfg.wf = true) {off : Nat} (hoff : off + 8 ≤ 64) (ha : off % 8 = 0) (v : Addr)
    {s1 : State} (hlow : regWrite32 off (v.extractLsb' 0 32) s = .next s1) :
    hostStore (BitVec.ofNat 64 (s.cfg.engineBase + off)) (toLe64 v) s
      = regWrite32 (off + 4) (v.extractLsb' 32 32) s1 := by
  obtain ⟨haddr, ht, ha⟩ := access_at_offset hc (by decide) hoff ha
  rw [hostStore_eight (s1 := s1) rfl ht ha (by rw [haddr, le32At_toLe64_low]; exact hlow), haddr, le32At_toLe64_high]

theorem hostLoad_word (hc : s.cfg.wf = true) {off : Nat} (hoff : off + 4 ≤ 64) (ha : off % 4 = 0) :
    hostLoad (BitVec.ofNat 64 (s.cfg.engineBase + off)) 4 s
      = .next { giveBack off s with rdata := toLe32 (regRead32 off s.regs) } := by
  obtain ⟨haddr, ht, ha⟩ := access_at_offset hc (by decide) hoff ha
  rw [hostLoad_four ht ha, haddr]

theorem hostLoad_double (hc : s.cfg.wf = true) {off : Nat} (hoff : off + 8 ≤ 64) (ha : off % 8 = 0) :
    hostLoad (BitVec.ofNat 64 (s.cfg.engineBase + off)) 8 s
      = .next { giveBack off s with
          rdata := toLe32 (regRead32 off s.regs) ++ toLe32 (regRead32 (off + 4) s.regs) } := by
  obtain ⟨haddr, ht, ha⟩ := access_at_offset hc (by decide) hoff ha
  rw [hostLoad_eight ht ha, haddr]

/-- The two 64-bit registers take a whole store, half by half (10 R31, R32, R35). -/
theorem hostStore_descPtr (hc : s.cfg.wf = true) (hb : s.regs.busy = false) (v : Addr) :
    hostStore (BitVec.ofNat 64 (s.cfg.engineBase + 0x18)) (toLe64 v) s
      = .next { s with regs := { s.regs with descPtr := v } } := by
  have hhigh := regWrite32_descPtr_high
    (s := { s with regs := { s.regs with descPtr := withLow (v.extractLsb' 0 32) s.regs.descPtr } })
    hb (v.extractLsb' 32 32)
  rw [withHigh_withLow] at hhigh
  exact (hostStore_double hc (by decide) (by decide) v (regWrite32_descPtr_low hb _)).trans hhigh

theorem hostStore_bufPtr (hc : s.cfg.wf = true) (hb : s.regs.busy = false) (v : Addr) :
    hostStore (BitVec.ofNat 64 (s.cfg.engineBase + 0x20)) (toLe64 v) s
      = .next { s with regs := { s.regs with bufPtr := v } } := by
  have hhigh := regWrite32_bufPtr_high
    (s := { s with regs := { s.regs with bufPtr := withLow (v.extractLsb' 0 32) s.regs.bufPtr } })
    hb (v.extractLsb' 32 32)
  rw [withHigh_withLow] at hhigh
  exact (hostStore_double hc (by decide) (by decide) v (regWrite32_bufPtr_low hb _)).trans hhigh

/-- A read anywhere but at STATUS changes nothing but the returned data. -/
theorem giveBack_other {off : Nat} (h : off ≠ 0x08) (s : State) : giveBack off s = s := by
  simp [giveBack, h]

theorem hostLoad_word_other (hc : s.cfg.wf = true) {off : Nat} (hoff : off + 4 ≤ 64) (ha : off % 4 = 0)
    (hs : off ≠ 0x08) {w : BitVec 32} (hw : regRead32 off s.regs = w) :
    hostLoad (BitVec.ofNat 64 (s.cfg.engineBase + off)) 4 s = .next { s with rdata := toLe32 w } := by
  rw [hostLoad_word hc hoff ha, giveBack_other hs, hw]

theorem hostLoad_double_other (hc : s.cfg.wf = true) {off : Nat} (hoff : off + 8 ≤ 64) (ha : off % 8 = 0)
    (hs : off ≠ 0x08) {v : Addr} (hlow : regRead32 off s.regs = v.extractLsb' 0 32)
    (hhigh : regRead32 (off + 4) s.regs = v.extractLsb' 32 32) :
    hostLoad (BitVec.ofNat 64 (s.cfg.engineBase + off)) 8 s = .next { s with rdata := toLe64 v } := by
  rw [hostLoad_double hc hoff ha, giveBack_other hs, hlow, hhigh, toLe32_halves]

theorem toLe32_ctrlWord (r : Regs) : toLe32 (ctrlWord r) = [if r.ie then 1 else 0, 0, 0, 0] := by
  unfold ctrlWord
  cases r.ie <;> decide

end Sys2Proof.Machine
end

section
/-! SUPPORT. What a host action can do to the idle engine (10_state.md R46; log 1). -/

namespace Sys2Proof.Machine

/-- The word's command, when it has one, is a host command (30 R87). -/
theorem decodeCommand_ok {w : BitVec 32} {i : Instr} (h : decodeCommand w = .ok i) :
    (∃ n, i = .newsession n) ∨ i = .freesession ∨ ∃ n, i = .process n := by
  unfold decodeCommand at h
  dsimp only at h
  split_ifs at h
  · cases h; exact .inl ⟨_, rfl⟩
  · cases h; exact .inr (.inl rfl)
  · cases h; exact .inr (.inr ⟨_, rfl⟩)

/-- A store answers as one register write, as two in turn, or as a write of host memory (10 R35, 20 R63). -/
theorem hostStore_next {addr : Addr} {data : List Byte} {s t : State} (h : hostStore addr data s = .next t) :
    (∃ off v, regWrite32 off v s = .next t)
      ∨ (∃ off v v' s1, regWrite32 off v s = .next s1 ∧ regWrite32 (off + 4) v' s1 = .next t)
      ∨ memWrite s addr.toNat data = .ok t := by
  unfold hostStore at h
  dsimp only at h
  split at h
  · split at h
    · exact .inl ⟨_, _, h⟩
    · split at h
      · split at h
        · rename_i s1 hlow
          exact .inr (.inl ⟨_, _, _, s1, hlow, h⟩)
        · cases h
        · cases h
      · cases h
  · split at h
    · cases h
    · cases hw : memWrite s addr.toNat data with
      | ok u => rw [hw] at h; cases h; exact .inr (.inr rfl)
      | raise e u => exact absurd hw memWrite_no_raise
      | refuse r => rw [hw] at h; cases h

theorem giveBack_eq (off : Nat) (s : State) :
    giveBack off s = { s with owned := if off = 0x08 && s.regs.done then [] else s.owned } := by
  unfold giveBack
  split <;> rfl

/-- What decides a load is the registers, host memory, the parameters and the memory owned: of two states with these in
common both answer, with the same bytes and the same memory owned after it, and no other field of either changes. -/
theorem hostLoad_transfer {addr : Addr} {n : Nat} {s t s' : State} (hregs : t.regs = s.regs) (hmem : t.mem = s.mem)
    (hcfg : t.cfg = s.cfg) (howned : t.owned = s.owned) (h : hostLoad addr n s = .next s') :
    hostLoad addr n t = .next { t with rdata := s'.rdata, owned := s'.owned } := by
  have hbarred : ∀ a, loadBarred t a n = loadBarred s a n := fun a => by unfold loadBarred; rw [howned]
  have hread : ∀ a, memRead t a n = memRead s a n := fun a => by unfold memRead; rw [hcfg, hmem]
  unfold hostLoad at h ⊢
  dsimp only at h ⊢
  rw [hcfg, hbarred, hread, hregs]
  split_ifs at h ⊢
  · cases h
    simp only [giveBack_eq, hregs, howned, hcfg]
  · cases h
    simp only [giveBack_eq, hregs, howned, hcfg]
  · cases hb : memRead s addr.toNat n with
    | ok B => rw [hb] at h; cases h; rw [← howned]; rfl
    | raise e u => exact absurd hb memRead_no_raise
    | refuse r => rw [hb] at h; cases h

/-- A load changes nothing but the returned data and the memory owned (10 R35; log 22, log 30). -/
theorem hostLoad_frame {addr : Addr} {n : Nat} {s t : State} (h : hostLoad addr n s = .next t) :
    t = { s with rdata := t.rdata, owned := t.owned } :=
  Host.Outcome.next.inj (h.symm.trans (hostLoad_transfer rfl rfl rfl rfl h))

theorem idleInv_memWrite {s t : State} {a : Nat} {B : List Byte} (h : IdleInv s) (hw : memWrite s a B = .ok t) :
    IdleInv t := by
  obtain ⟨htab, hz⟩ := (idleInv_iff s).1 h
  obtain ⟨hB, rfl⟩ := memWrite_ok hw
  exact (idleInv_iff _).2 ⟨tableInv_write htab hB, hz⟩

theorem idleInv_regs {s : State} (h : IdleInv s) {r : Regs} (hb : r.busy = s.regs.busy) :
    IdleInv { s with regs := r } := by
  obtain ⟨htab, hwork, hphase, hauth, hctx, hbusy, hrest⟩ := (idleInv_iff s).1 h
  exact (idleInv_iff _).2
    ⟨tableInv_congr htab rfl rfl rfl rfl rfl, hwork, hphase, hauth, hctx, hb.trans hbusy, hrest⟩

/-- The idle engine is ready for any command. -/
theorem commandInv_start {s : State} (h : IdleInv s) (c : Command) (i : Instr) : CommandInv c (setBusy (claim i s)) := by
  obtain ⟨htab, hz⟩ := (idleInv_iff s).1 h
  have hzero := unreleasedZero_of_idleZero hz c
  refine ⟨tableInv_congr htab rfl rfl rfl rfl rfl, ?_⟩
  cases c <;> exact hzero

theorem idleInv_cmdWrite {s t : State} {w : BitVec 32} (h : IdleInv s) (hw : cmdWrite w s = .next t) : IdleInv t := by
  unfold cmdWrite at hw
  split at hw
  · cases hw; exact h
  · split at hw
    · rename_i i hi
      have hstart := fun c => commandInv_start h c i
      obtain ⟨n, rfl⟩ | rfl | ⟨n, rfl⟩ := decodeCommand_ok hi
      · exact idleInv_finish (newSession_keeps n (hstart _)) hw
      · exact idleInv_finish (freeSession_keeps (hstart _)) hw
      · exact idleInv_finish (process_keeps n (hstart _)) hw
    · cases hw
      obtain ⟨_, _, _, _, _, hbusy, _⟩ := (idleInv_iff s).1 h
      exact idleInv_regs h hbusy.symm

theorem idleInv_regWrite32 {s t : State} {off : Nat} {v : BitVec 32} (h : IdleInv s)
    (hw : regWrite32 off v s = .next t) : IdleInv t := by
  by_cases hoff : off = 0x00
  · subst hoff; exact idleInv_cmdWrite h hw
  · obtain ⟨r, hb, he⟩ := regWrite32_registers hoff v s
    rw [he] at hw
    cases hw
    exact idleInv_regs h hb

theorem idleInv_hostStore {s t : State} {addr : Addr} {data : List Byte} (h : IdleInv s)
    (hs : hostStore addr data s = .next t) : IdleInv t := by
  obtain ⟨off, v, hw⟩ | ⟨off, v, v', s1, hlow, hhigh⟩ | hw := hostStore_next hs
  · exact idleInv_regWrite32 h hw
  · exact idleInv_regWrite32 (idleInv_regWrite32 h hlow) hhigh
  · exact idleInv_memWrite h hw

theorem idleInv_hostLoad {s t : State} {addr : Addr} {n : Nat} (h : IdleInv s) (hl : hostLoad addr n s = .next t) :
    IdleInv t := by
  rw [hostLoad_frame hl]
  exact h

theorem capOk_resetWith {c : Config} (hc : c.wf = true) : CapOk (State.resetWith c) := by
  simp only [Config.wf, Bool.and_eq_true, decide_eq_true_eq] at hc
  obtain ⟨⟨⟨⟨⟨_, hle⟩, hmax⟩, _⟩, _⟩, _⟩ := hc
  have hcap : (State.resetWith c).cap.toNat = c.initCap := by
    rw [State.resetWith, BitVec.toNat_ofNat, Nat.mod_eq_of_lt (by omega)]
  exact ⟨⟨0, by rw [hcap, pow_zero, Nat.mul_one]; rfl⟩, hcap.ge, hcap.trans_le hle⟩

/-- Reset meets the invariant under legal parameters (10 R47). -/
theorem idleInv_resetWith {c : Config} (hc : c.wf = true) : IdleInv (State.resetWith c) :=
  ⟨hc, rfl, ⟨rfl, rfl, rfl, rfl, rfl, rfl, rfl, rfl⟩, ⟨rfl, rfl⟩, capOk_resetWith hc, fun j => slotOk_zero _ j⟩

theorem idleInv_engineReset {s : State} (h : IdleInv s) : IdleInv (engineReset s) := by
  obtain ⟨hcfg, _, _, ⟨hmem, _⟩, _, _⟩ := h
  obtain ⟨_, hbus, hz, ⟨_, hslots⟩, hcap, hok⟩ := idleInv_resetWith hcfg
  exact ⟨hcfg, hbus, hz, ⟨hmem, hslots⟩, hcap, hok⟩

theorem idleInv_hostAct {s t : State} {i : Input} (h : IdleInv s) (ha : hostAct i s = .next t) : IdleInv t := by
  cases i with
  | store addr data => exact idleInv_hostStore h ha
  | load addr n => exact idleInv_hostLoad h ha
  | reset => cases ha; exact idleInv_engineReset h

end Sys2Proof.Machine
end

section
/-! SUPPORT. Which memory a command claims (20_memory.md R73, 70_reset_and_hazards.md R392). -/

namespace Sys2Proof.Machine

/-- A valid NEWSESSION chain is one that answers and passes chain validation (45 R239). -/
theorem keyChain_iff {n : Nat} {s : State} {t : Tag} {e : KEntry} :
    KeyChain n s t e ↔ chainOk s 32 n = true ∧ sessionEntry (chainAt s 32 n) = some (t, e) := by
  rw [sessionEntry_some, KeyChain]

theorem keyRegion_of_keyChain {n : Nat} {s : State} {t : Tag} {e : KEntry} (h : KeyChain n s t e)
    (hl : legalKeyLength t e.klen.toNat = true) :
    keyRegion n s = [{ base := e.keyPtr.toNat, size := e.klen.toNat / 8, buffer := false }] := by
  simp [keyRegion, (keyChain_iff.1 h).2, hl]

/-- No key is read where the chain is not valid or its key length not legal (45 R247, R248). -/
theorem keyRegion_empty {n : Nat} {s : State} (hc : chainOk s 32 n = true)
    (h : ∀ t e, KeyChain n s t e → legalKeyLength t e.klen.toNat = false) : keyRegion n s = [] := by
  unfold keyRegion
  cases hse : sessionEntry (chainAt s 32 n) with
  | none => rfl
  | some te =>
    have hl := h te.1 te.2 (keyChain_iff.2 ⟨hc, hse⟩)
    simp [hl]

end Sys2Proof.Machine
end

section
/-! SUPPORT. What the engine shares with the host besides memory: no action of the engine writes it, but for SID
(10_state.md R30 to R35). -/

namespace Sys2Proof.Machine

/-- The registers the host writes, the parameters, and the model's fields of the host's side (log 1, log 2, log 22, log
30). -/
structure HostSide where
  sid : BitVec 32
  descPtr : Addr
  bufPtr : Addr
  bufLen : BitVec 32
  ie : Bool
  cfg : Config
  inputs : List Input
  bus : Option Byte
  rdata : List Byte
  owned : List Region

def hostSide (s : State) : HostSide :=
  { sid := s.regs.sid, descPtr := s.regs.descPtr, bufPtr := s.regs.bufPtr, bufLen := s.regs.bufLen, ie := s.regs.ie,
    cfg := s.cfg, inputs := s.inputs, bus := s.bus, rdata := s.rdata, owned := s.owned }

/-- What the statement says of two states with the same host side but for SID. -/
theorem hostSide_fields {s t : State} (h : hostSide t = { hostSide s with sid := t.regs.sid }) :
    t.regs.descPtr = s.regs.descPtr ∧ t.regs.bufPtr = s.regs.bufPtr ∧ t.regs.bufLen = s.regs.bufLen
      ∧ t.regs.ie = s.regs.ie ∧ t.cfg = s.cfg ∧ t.inputs = s.inputs ∧ t.bus = s.bus ∧ t.rdata = s.rdata
      ∧ t.owned = s.owned :=
  ⟨congrArg HostSide.descPtr h, congrArg HostSide.bufPtr h, congrArg HostSide.bufLen h, congrArg HostSide.ie h,
    congrArg HostSide.cfg h, congrArg HostSide.inputs h, congrArg HostSide.bus h, congrArg HostSide.rdata h,
    congrArg HostSide.owned h⟩

variable {s : State} {v : HostSide}

theorem hostSide_afterLease : hostSide (afterLease s) = hostSide s := by simp [hostSide]

theorem hostSide_endCommand (c : Command) : hostSide (endCommand c s) = hostSide s := by simp [hostSide]

/-- Taking an exception writes SID where a NEWSESSION fails, and nothing else of the host side (45 R250). -/
theorem hostSide_takeError (c : Command) (e : Status) :
    hostSide (takeError c e s) = { hostSide s with sid := if c = .newSession then 0 else s.regs.sid } := by
  simp [hostSide]

/-! ### The actions -/

theorem fetchChain_hostSide (E n : Nat) (h : hostSide s = v) :
    (fetchChain E n s).Yields (hostSide · = v) (hostSide · = v) :=
  Act.yields_of (fun _ ht => by obtain ⟨_, rfl⟩ := fetchChain_ok ht; exact h) fun _ _ ht => absurd ht fetchChain_no_raise

theorem slookup_hostSide (sid : BitVec 32) (h : hostSide s = v) : (slookup sid s).Yields (fun _ => True) (hostSide · = v) :=
  Act.yields_of (fun _ _ => trivial) fun _ _ ht => by obtain ⟨_, _, rfl⟩ := slookup_raise ht; exact h

theorem sgrow_hostSide (h : hostSide s = v) : (sgrow s).Yields (fun r => hostSide r.2 = v) (hostSide · = v) := by
  refine Act.yields_of (fun _ ht => ?_) fun _ _ ht => ?_
  · obtain ⟨_, rfl⟩ := sgrow_ok ht; exact h
  · obtain ⟨_, _, rfl⟩ := sgrow_raise ht; exact h

theorem salloc_hostSide (h : hostSide s = v) : (salloc s).Yields (fun r => hostSide r.2 = v) (hostSide · = v) := by
  unfold salloc
  split
  · exact h
  · exact (sgrow_hostSide h).bind fun _ hr => hr

theorem lease_hostSide (j : BitVec 32) (h : hostSide s = v) : (lease j s).Yields (hostSide · = v) (hostSide · = v) := by
  have hasked : hostSide (afterLease s) = v := hostSide_afterLease.trans h
  refine Act.yields_of (fun _ ht => ?_) fun _ _ ht => ?_
  · obtain ⟨_, ⟨_, rfl⟩ | ⟨_, rfl⟩⟩ := lease_ok ht
    · exact h
    · exact hasked
  · obtain ⟨_, _, rfl⟩ := lease_raise ht; exact hasked

theorem keySetup_hostSide (j : BitVec 32) (t : Tag) (e : KEntry) (h : hostSide s = v) :
    (keySetup j t e s).Yields (hostSide · = v) (hostSide · = v) := by
  refine Act.yields_of (fun _ ht => ?_) fun _ _ ht => ?_
  · obtain ⟨_, _, rfl⟩ := keySetup_ok ht; exact h
  · obtain ⟨_, _, rfl⟩ := keySetup_raise ht; exact h

/-- NEWSESSION writes SID when it succeeds (45 R250). -/
theorem newSession_hostSide (n : Nat) (h : hostSide s = v) :
    (newSession n s).Yields (fun t => hostSide t = { v with sid := t.regs.sid }) (hostSide · = v) := by
  refine (fetchChain_hostSide 32 n (s := setPhase .session s) h).bind fun s1 h1 => ?_
  cases sessionEntry s1.chain.entries with
  | none => exact h1
  | some te =>
    refine (salloc_hostSide h1).bind fun r h2 => ?_
    refine (lease_hostSide r.1 h2).bind fun s2 h3 => ?_
    refine (keySetup_hostSide r.1 te.1 te.2 (s := setCtxActive true s2) h3).bind fun s3 h4 => ?_
    subst h4
    rfl

theorem freeSession_hostSide (h : hostSide s = v) : (freeSession s).Yields (hostSide · = v) (hostSide · = v) :=
  (slookup_hostSide s.regs.sid (s := setPhase .session s) h).bind fun _ _ => h

theorem ctrFai_hostSide (j : BitVec 32) (h : hostSide s = v) :
    (ctrFai j s).Yields (fun r => hostSide r.2 = v) (hostSide · = v) :=
  Act.yields_of (fun _ ht => by obtain ⟨_, rfl⟩ := ctrFai_ok ht; exact h) fun _ _ ht => absurd ht ctrFai_no_raise

theorem validate_hostSide (h : hostSide s = v) : (validate s).Yields (hostSide · = v) (hostSide · = v) := by
  refine Act.yields_of (fun _ ht => ?_) fun _ _ ht => ?_
  · obtain ⟨_, _, rfl⟩ := validate_ok ht; exact h
  · obtain ⟨_, _, rfl⟩ := validate_raise ht; exact h

theorem stageIn_hostSide (h : hostSide s = v) : (stageIn s).Yields (hostSide · = v) (hostSide · = v) := by
  refine Act.yields_of (fun _ ht => ?_) fun _ _ ht => ?_
  · obtain ⟨_, rfl⟩ := stageIn_ok ht; exact h
  · obtain ⟨_, _, rfl⟩ := stageIn_raise ht; exact h

theorem ivDerive_hostSide (j : BitVec 32) (h : hostSide s = v) :
    (ivDerive j s).Yields (hostSide · = v) (hostSide · = v) := by
  refine Act.yields_of (fun _ ht => ?_) fun _ _ ht => absurd ht ivDerive_no_raise
  obtain ⟨_, rfl⟩ | ⟨_, _, u, iv, rfl, _, _, rfl⟩ | ⟨_, _, rfl⟩ := ivDerive_ok ht
  · exact h
  · exact h
  · exact h

theorem tagVfy_hostSide (h : hostSide s = v) : (tagVfy s).Yields (hostSide · = v) (hostSide · = v) := by
  refine Act.yields_of (fun _ ht => ?_) fun _ _ ht => ?_
  · obtain ⟨_, rfl⟩ := tagVfy_ok ht; exact h
  · obtain ⟨_, _, rfl⟩ := tagVfy_raise ht; exact h

theorem execute_hostSide (j : BitVec 32) (h : hostSide s = v) :
    (execute j s).Yields (hostSide · = v) (hostSide · = v) := by
  refine Act.yields_of (fun _ ht => ?_) fun _ _ ht => ?_
  · obtain ⟨_, _, rfl⟩ := execute_ok ht; exact h
  · obtain ⟨_, rfl⟩ := execute_raise ht; exact h

theorem wrBack_hostSide (h : hostSide s = v) : (wrBack s).Yields (hostSide · = v) (hostSide · = v) :=
  Act.yields_of (fun _ ht => by obtain ⟨_, _, rfl⟩ := wrBack_ok ht; exact h) fun _ _ ht => absurd ht wrBack_no_raise

theorem process_hostSide (n : Nat) (h : hostSide s = v) : (process n s).Yields (hostSide · = v) (hostSide · = v) := by
  refine (fetchChain_hostSide 64 n (s := setPhase .validate s) h).bind fun s1 h1 => ?_
  refine (validate_hostSide h1).bind fun s2 h2 => ?_
  refine (stageIn_hostSide h2).bind fun s3 h3 => ?_
  refine (ivDerive_hostSide s.regs.sid h3).bind fun s4 h4 => ?_
  exact (execute_hostSide s.regs.sid h4).bind fun s5 h5 => wrBack_hostSide h5

/-! ### The instructions -/

/-- An action for PROCESS or FREESESSION keeps the host side, whatever status it raises. -/
theorem hostSide_settle {c : Command} (hc : c ≠ .newSession) {x : Act State} {t : State}
    (hx : x.Yields (hostSide · = v) (hostSide · = v)) (h : settle c x = .next t) : hostSide t = v :=
  hx.settle (R := (hostSide · = v)) h (fun _ hu => hu) fun e u hu => by rw [hostSide_takeError, if_neg hc]; exact hu

theorem hostSide_finish {c : Command} (hc : c ≠ .newSession) {x : Act State} {t : State}
    (hx : x.Yields (hostSide · = v) (hostSide · = v)) (h : finish c x = .next t) : hostSide t = v :=
  hx.finish (R := (hostSide · = v)) h (fun _ hu => (hostSide_endCommand c).trans hu) fun e u hu => by
    rw [hostSide_takeError, if_neg hc]; exact hu

/-- One that raises for NEWSESSION clears SID (log 14). -/
theorem hostSide_settle_newSession {x : Act State} {t : State}
    (hx : x.Yields (hostSide · = v) (hostSide · = v)) (h : settle .newSession x = .next t) :
    hostSide t = { v with sid := t.regs.sid } := by
  refine hx.settle (R := fun t => hostSide t = { v with sid := t.regs.sid }) h (fun u hu => ?_) fun e u hu => ?_
  · subst hu; rfl
  · subst hu; exact hostSide_takeError _ e

theorem execNewsession_hostSide {t : State} (n : Nat) (h : execNewsession n s = .next t) :
    hostSide t = { hostSide s with sid := t.regs.sid } := by
  refine (newSession_hostSide n rfl).finish (R := fun t => hostSide t = { hostSide s with sid := t.regs.sid }) h
    (fun u hu => ?_) fun e u hu => ?_
  · rw [hostSide_endCommand, endCommand_regs]; exact hu
  · rw [hostSide_takeError, hu]; rfl

/-- The micro-operations that end no command work on latches, slots and the staging memory. -/
theorem exec_hostSide {i : Instr} {t : State} (hnew : ∀ n, i ≠ .newsession n) (halloc : i ≠ .salloc) (hgrow : i ≠ .sgrow)
    (h : exec i s = .next t) : hostSide t = hostSide s := by
  cases i with
  | newsession n => exact absurd rfl (hnew n)
  | salloc => exact absurd rfl halloc
  | sgrow => exact absurd rfl hgrow
  | freesession => exact hostSide_finish (by decide) (freeSession_hostSide rfl) h
  | process n => exact hostSide_finish (by decide) (process_hostSide n rfl) h
  | tagvfy => exact hostSide_settle (by decide) (tagVfy_hostSide rfl) h
  | slookup =>
    have hc : lookupCommand s.phase ≠ .newSession := by unfold lookupCommand; split <;> decide
    refine hostSide_settle hc ?_ h
    exact (slookup_hostSide s.regs.sid rfl).bind fun _ _ => rfl
  | ctrfai =>
    refine hostSide_settle (c := .process) (by decide) ?_ h
    exact (ctrFai_hostSide s.ports.j rfl).bind fun _ hr => hr
  | stagein => exact hostSide_settle (by decide) (stageIn_hostSide rfl) h
  | ivderive => exact hostSide_settle (by decide) (ivDerive_hostSide s.regs.sid rfl) h
  | wrback => exact hostSide_settle (by decide) (wrBack_hostSide rfl) h
  | _ => cases h; rfl

theorem hostSide_but_sid {t : State} (h : hostSide t = hostSide s) : hostSide t = { hostSide s with sid := t.regs.sid } := by
  have hsid : t.regs.sid = s.regs.sid := congrArg HostSide.sid h
  rw [h, hsid]
  rfl

/-- Every instruction keeps the host side but for SID. -/
theorem exec_hostSide_but_sid {i : Instr} {t : State} (h : exec i s = .next t) :
    hostSide t = { hostSide s with sid := t.regs.sid } := by
  by_cases hnew : ∃ n, i = .newsession n
  · obtain ⟨n, rfl⟩ := hnew
    exact execNewsession_hostSide n h
  by_cases halloc : i = .salloc
  · subst halloc
    refine hostSide_settle_newSession ?_ h
    exact (salloc_hostSide rfl).bind fun _ hr => hr
  by_cases hgrow : i = .sgrow
  · subst hgrow
    refine hostSide_settle_newSession ?_ h
    exact (sgrow_hostSide rfl).bind fun _ hr => hr
  exact hostSide_but_sid (exec_hostSide (fun n hn => hnew ⟨n, hn⟩) halloc hgrow h)

end Sys2Proof.Machine
end

section
/-! The statements about the state, its registers and its invariant (10_state.md), settled. -/

namespace Sys2Proof.Machine

/-- Settles O16: with nothing on the bus a step is an action of the host, and each action keeps the invariant. -/
theorem invKept : Obligations.InvKept := by
  intro s t h hstep
  have ⟨_, hbus, _⟩ := h
  rw [step, hbus] at hstep
  dsimp only [stepHost] at hstep
  split at hstep
  · cases hstep; exact h
  · rename_i i rest _
    exact idleInv_hostAct (s := { s with inputs := rest }) h hstep

/-- Settles O8: the fields, the read, the start, the ignored write, and what each command claims. -/
theorem commandRegister : Obligations.CommandRegister := by
  refine ⟨fun w => ⟨fun h => ?_, fun h => ?_, fun h => ?_⟩, fun r => rfl, fun s w i hb hd hi => ?_, fun s w h => ?_,
    fun s => ⟨rfl, fun n => rfl, fun n hl hc => ?_, fun n t e hk hl => ?_⟩⟩
  · simp [decodeCommand, h, Nat.shiftRight_eq_div_pow]
  · simp [decodeCommand, h]
  · simp [decodeCommand, h, Nat.shiftRight_eq_div_pow]
  · simp [regWrite32, cmdWrite, hb, hd, hi]
  · simp [regWrite32, cmdWrite, h]
  · simp [claim, ownedBy, keyRegion_empty hc hl]
  · simp [claim, ownedBy, keyRegion_of_keyChain hk hl]

/-- Settles O10: a store to the block is a register write, or two of them, and each operand register takes it where the
engine is not busy. -/
theorem operandRegisters : Obligations.OperandRegisters := by
  intro s hc
  dsimp only
  refine ⟨fun hb => ⟨fun v => ⟨?_, ?_⟩, fun v => ⟨?_, ?_, ?_, ?_, ?_, ?_, ?_⟩⟩, fun hb off v hoff => ?_,
    fun off v hoff => ⟨?_, ?_⟩, ?_, ?_, ?_, ?_, ?_⟩
  · exact hostStore_descPtr hc hb v
  · exact hostStore_bufPtr hc hb v
  · exact (hostStore_word hc (by decide) (by decide) v).trans (regWrite32_sid hb v)
  · exact (hostStore_word hc (by decide) (by decide) v).trans (regWrite32_bufLen hb v)
  · exact (hostStore_word hc (by decide) (by decide) v).trans (regWrite32_ctrl hb v)
  · exact (hostStore_word hc (by decide) (by decide) v).trans (regWrite32_descPtr_low hb v)
  · exact (hostStore_word hc (by decide) (by decide) v).trans (regWrite32_descPtr_high hb v)
  · exact (hostStore_word hc (by decide) (by decide) v).trans (regWrite32_bufPtr_low hb v)
  · exact (hostStore_word hc (by decide) (by decide) v).trans (regWrite32_bufPtr_high hb v)
  · obtain ⟨hfit, halign⟩ := operand_offset hoff
    exact (hostStore_word hc hfit halign v).trans (regWrite32_operand_busy hoff v hb)
  · obtain ⟨hfit, halign, _⟩ := unused_offset hoff
    exact (hostStore_word hc hfit halign v).trans (regWrite32_unused hoff v s)
  · obtain ⟨hfit, halign, hstatus⟩ := unused_offset hoff
    exact hostLoad_word_other hc hfit halign hstatus (regRead32_unused hoff s.regs)
  · exact hostLoad_word_other hc (by decide) (by decide) (by decide) rfl
  · exact hostLoad_double_other hc (by decide) (by decide) (by decide) rfl rfl
  · exact hostLoad_double_other hc (by decide) (by decide) (by decide) rfl rfl
  · exact hostLoad_word_other hc (by decide) (by decide) (by decide) rfl
  · rw [← toLe32_ctrlWord]
    exact hostLoad_word_other hc (by decide) (by decide) (by decide) rfl

/-- Settles O11: what the hypothesis excludes is exactly the access `alignedInBlock` admits. -/
theorem malformedAccessRefused : Obligations.MalformedAccessRefused := by
  intro s addr data n hn hlo hhi hbad
  refine access_malformed hn.symm ?_ fun hsize => ?_
  · simp [touchesBlock, hlo, hhi]
  · rw [alignedInBlock, ← Bool.not_eq_true]
    simp only [Bool.and_eq_true, decide_eq_true_eq, and_assoc]
    exact fun hin => hbad ⟨hsize, hin⟩

/-- Settles O13: the two steps are the same load over states with the same decisive fields. -/
theorem hostSeesNoKeyMaterial : Obligations.HostSeesNoKeyMaterial := by
  intro s t addr n rest rest' hsbus htbus hsin htin hregs hmem hcfg howned s' hs'
  have hs : step s = hostLoad addr n { s with inputs := rest } := by simp [step, stepHost, hostAct, hsbus, hsin]
  have ht : step t = hostLoad addr n { t with inputs := rest' } := by simp [step, stepHost, hostAct, htbus, htin]
  rw [hs] at hs'
  have htransfer := hostLoad_transfer (t := { t with inputs := rest' }) (s := { s with inputs := rest })
    hregs hmem hcfg howned hs'
  exact ⟨hostLoad_frame hs', _, ht.trans htransfer, rfl, rfl⟩

/-- Settles O20: the host side of the state, with SID where NEWSESSION or its slot choice may write it. -/
theorem engineWritesNoOperandRegister : Obligations.EngineWritesNoOperandRegister := by
  intro i s t h
  obtain ⟨h1, h2, h3, h4, h5, h6, h7, h8, h9⟩ := hostSide_fields (exec_hostSide_but_sid h)
  exact ⟨h1, h2, h3, h4, h5, h6, h7, h8, h9, fun hnew halloc hgrow =>
    congrArg HostSide.sid (exec_hostSide hnew halloc hgrow h)⟩

/-- Settles O9: the word, the acknowledgement, the two sizes of load, the reset input. -/
theorem statusRegister : Obligations.StatusRegister := by
  refine ⟨fun r => ?_, fun s v => congrArg _ (writeStatus_eq v s), fun s hc => ?_, fun s => ⟨engineReset s, rfl, rfl⟩⟩
  · refine (statusWord_toNat r).trans ?_
    cases r.code <;> rfl
  · dsimp only
    rw [hostLoad_word hc (by decide) (by decide), hostLoad_double hc (by decide) (by decide), giveBack_eq,
      regRead32_unused (off := 0x08 + 4) (by decide), toLe32_zero]
    cases s.regs.done <;> exact ⟨rfl, rfl⟩

/-- Settles O14: field by field, of `engineReset`. -/
theorem resetValues : Obligations.ResetValues := by
  intro s
  refine ⟨engineReset s, rfl, ?_⟩
  have hstatus : regRead32 0x08 Regs.zero = 0 := by decide
  have hctrl : regRead32 0x30 Regs.zero = 0 := by decide
  exact ⟨rfl, rfl, rfl, rfl, rfl, rfl, hstatus, rfl, rfl, rfl, rfl, rfl, rfl, rfl, hctrl, rfl, rfl, fun _ => rfl, rfl,
    rfl, rfl, rfl, rfl⟩

/-- Settles O15: the invariant of `State.resetWith`, for the default parameters and for all legal ones. -/
theorem resetSatisfiesInv : Obligations.ResetSatisfiesInv :=
  ⟨idleInv_resetWith (by decide), fun _ => idleInv_resetWith⟩

end Sys2Proof.Machine
end

section
/-! SUPPORT. What an access outside the register block answers, case by case (20_memory.md R60 to R64, R73). -/

namespace Sys2Proof.Machine

variable {s : State} {a n : Nat} {B : List Byte}

/-! ### The access itself -/

/-- No bytes, no access (20 R62). -/
theorem memRead_none (s : State) (a : Nat) : memRead s a 0 = .ok [] := if_pos rfl

/-- No bytes, no access (20 R63). -/
theorem memWrite_none (h : B.length = 0) : memWrite s a B = .ok s := if_pos h

theorem memRead_pastEnd (hn : n ≠ 0) (h : 2 ^ 64 < a + n) : memRead s a n = .refuse .addressPastEnd := by
  rw [memRead, if_neg hn, if_pos h]

theorem memWrite_pastEnd (hn : B.length ≠ 0) (h : 2 ^ 64 < a + B.length) :
    memWrite s a B = .refuse .addressPastEnd := by
  rw [memWrite, if_neg hn, if_pos h]

theorem memRead_failed (hn : n ≠ 0) (h : a + n ≤ 2 ^ 64) (hf : accessFails s.cfg a n = true) :
    memRead s a n = .refuse .hostAccessFailed := by
  rw [memRead, if_neg hn, if_neg (Nat.not_lt.mpr h), if_pos hf]

theorem memWrite_failed (hn : B.length ≠ 0) (h : a + B.length ≤ 2 ^ 64) (hf : accessFails s.cfg a B.length = true) :
    memWrite s a B = .refuse .hostAccessFailed := by
  rw [memWrite, if_neg hn, if_neg (Nat.not_lt.mpr h), if_pos hf]

/-! ### The host's step -/

theorem step_load (hbus : s.bus = none) (addr : Addr) (n : Nat) (rest : List Input) :
    step { s with inputs := .load addr n :: rest } = hostLoad addr n { s with inputs := rest } := by
  simp [step, stepHost, hostAct, hbus]

theorem step_store (hbus : s.bus = none) (addr : Addr) (B : List Byte) (rest : List Input) :
    step { s with inputs := .store addr B :: rest } = hostStore addr B { s with inputs := rest } := by
  simp [step, stepHost, hostAct, hbus]

/-- An access that ends at or before the block's first byte, or begins past its last, does not touch it. -/
theorem touchesBlock_outside {c : Config} (h : a + n ≤ c.engineBase ∨ c.engineBase + 64 ≤ a) :
    touchesBlock c a n = false := by
  simp only [touchesBlock, Bool.and_eq_false_iff, decide_eq_false_iff_not]
  omega

theorem plainOutcome_refusesAccess {x : Act State}
    (h : x = .refuse .addressPastEnd ∨ x = .refuse .hostAccessFailed) : RefusesAccess (plainOutcome x) := by
  rcases h with rfl | rfl
  · exact .inl rfl
  · exact .inr rfl

variable {addr : Addr}

section Load

variable (h : touchesBlock s.cfg addr.toNat n = false)
include h

theorem hostLoad_barred (hb : loadBarred s addr.toNat n = true) : hostLoad addr n s = .refused .ownedByEngine := by
  rw [hostLoad_memory s addr n h, if_pos hb]

theorem hostLoad_answers (hb : loadBarred s addr.toNat n = false) (hok : accessOk s.cfg addr.toNat n = true) :
    hostLoad addr n s = .next { s with rdata := readBytes s.mem addr.toNat n } := by
  rw [hostLoad_memory s addr n h, hb, memRead_answers hok]
  rfl

theorem hostLoad_refuses (hb : loadBarred s addr.toNat n = false) (hno : accessOk s.cfg addr.toNat n = false) :
    RefusesAccess (hostLoad addr n s) := by
  rw [hostLoad_memory s addr n h, hb]
  exact plainOutcome_refusesAccess (bind_refusesAccess (memRead_refuses hno))

end Load

section Store

variable (h : touchesBlock s.cfg addr.toNat B.length = false)
include h

theorem hostStore_barred (hb : storeBarred s addr.toNat B.length = true) :
    hostStore addr B s = .refused .ownedByEngine := by
  rw [hostStore_memory s addr B h, if_pos hb]

theorem hostStore_answers (hb : storeBarred s addr.toNat B.length = false)
    (hok : accessOk s.cfg addr.toNat B.length = true) :
    hostStore addr B s = .next { s with mem := writeBytes s.mem addr.toNat B } := by
  rw [hostStore_memory s addr B h, hb, memWrite_answers hok]
  rfl

theorem hostStore_refuses (hb : storeBarred s addr.toNat B.length = false)
    (hno : accessOk s.cfg addr.toNat B.length = false) : RefusesAccess (hostStore addr B s) := by
  rw [hostStore_memory s addr B h, hb]
  exact plainOutcome_refusesAccess (memWrite_refuses hno)

end Store

end Sys2Proof.Machine
end

section
/-! SUPPORT. What an instruction can do to host memory and to the slots: slot by slot, and byte strings of memory by the
three instructions that write it (20_memory.md R69, R81). Said once for every predicate of the two, so that the canonical
forms and an unchanged memory are each a special case. -/

namespace Sys2Proof.Machine

/-- The predicate holds of the state's memory and slots. -/
def TablesMeet (P : List Host.Cell → List (Nat × Slot) → Prop) (s : State) : Prop := P s.mem s.slots

/-- No write of a slot ends the predicate. -/
def SlotStable (P : List Host.Cell → List (Nat × Slot) → Prop) : Prop :=
  ∀ (s : State) (j : BitVec 32) (v : Slot), TablesMeet P s → TablesMeet P (putSlot j v s)

/-- No write of memory that answers ends it (20 R63). -/
def StoreStable (P : List Host.Cell → List (Nat × Slot) → Prop) : Prop :=
  ∀ (c : Config) m sl a (B : List Byte), accessOk c a B.length = true → P m sl → P (writeBytes m a B) sl

/-- The instructions that write host memory (20 R69, R81). -/
def WritesMemory (i : Instr) : Prop := (∃ n, i = .process n) ∨ i = .ivderive ∨ i = .wrback

variable {P : List Host.Cell → List (Nat × Slot) → Prop} {s : State}

@[simp] theorem tablesMeet_endCommand (c : Command) : TablesMeet P (endCommand c s) ↔ TablesMeet P s := by
  simp [TablesMeet]

@[simp] theorem tablesMeet_takeError (c : Command) (e : Status) : TablesMeet P (takeError c e s) ↔ TablesMeet P s := by
  simp [TablesMeet]

@[simp] theorem tablesMeet_afterLease : TablesMeet P (afterLease s) ↔ TablesMeet P s := by simp [TablesMeet]

theorem tablesMeet_finish {c : Command} {x : Act State} {t : State}
    (hx : x.Yields (TablesMeet P) (TablesMeet P)) (h : finish c x = .next t) : TablesMeet P t :=
  hx.finish (R := TablesMeet P) h (fun _ => (tablesMeet_endCommand c).2) fun e _ => (tablesMeet_takeError c e).2

theorem tablesMeet_settle {c : Command} {x : Act State} {t : State}
    (hx : x.Yields (TablesMeet P) (TablesMeet P)) (h : settle c x = .next t) : TablesMeet P t :=
  hx.settle (R := TablesMeet P) h (fun _ hu => hu) fun e _ => (tablesMeet_takeError c e).2

/-! ### Actions that write neither -/

theorem fetchChain_tables (E n : Nat) (h : TablesMeet P s) :
    (fetchChain E n s).Yields (TablesMeet P) (TablesMeet P) :=
  Act.yields_of (fun _ ht => by obtain ⟨_, rfl⟩ := fetchChain_ok ht; exact h) fun _ _ ht => absurd ht fetchChain_no_raise

theorem slookup_tables (sid : BitVec 32) (h : TablesMeet P s) :
    (slookup sid s).Yields (fun _ => True) (TablesMeet P) :=
  Act.yields_of (fun _ _ => trivial) fun _ _ ht => by obtain ⟨_, _, rfl⟩ := slookup_raise ht; exact h

theorem sgrow_tables (h : TablesMeet P s) : (sgrow s).Yields (fun r => TablesMeet P r.2) (TablesMeet P) := by
  refine Act.yields_of (fun _ ht => ?_) fun _ _ ht => ?_
  · obtain ⟨_, rfl⟩ := sgrow_ok ht; exact h
  · obtain ⟨_, _, rfl⟩ := sgrow_raise ht; exact h

theorem validate_tables (h : TablesMeet P s) : (validate s).Yields (TablesMeet P) (TablesMeet P) := by
  refine Act.yields_of (fun _ ht => ?_) fun _ _ ht => ?_
  · obtain ⟨_, _, rfl⟩ := validate_ok ht; exact h
  · obtain ⟨_, _, rfl⟩ := validate_raise ht; exact h

theorem stageIn_tables (h : TablesMeet P s) : (stageIn s).Yields (TablesMeet P) (TablesMeet P) := by
  refine Act.yields_of (fun _ ht => ?_) fun _ _ ht => ?_
  · obtain ⟨_, rfl⟩ := stageIn_ok ht; exact h
  · obtain ⟨_, _, rfl⟩ := stageIn_raise ht; exact h

theorem tagVfy_tables (h : TablesMeet P s) : (tagVfy s).Yields (TablesMeet P) (TablesMeet P) := by
  refine Act.yields_of (fun _ ht => ?_) fun _ _ ht => ?_
  · obtain ⟨_, rfl⟩ := tagVfy_ok ht; exact h
  · obtain ⟨_, _, rfl⟩ := tagVfy_raise ht; exact h

theorem execute_tables (j : BitVec 32) (h : TablesMeet P s) :
    (execute j s).Yields (TablesMeet P) (TablesMeet P) := by
  refine Act.yields_of (fun _ ht => ?_) fun _ _ ht => ?_
  · obtain ⟨_, _, rfl⟩ := execute_ok ht; exact h
  · obtain ⟨_, rfl⟩ := execute_raise ht; exact h

/-! ### Actions that write slots -/

theorem salloc_tables (hP : SlotStable P) (h : TablesMeet P s) :
    (salloc s).Yields (fun r => TablesMeet P r.2) (TablesMeet P) := by
  unfold salloc
  split
  · exact hP _ _ _ h
  · exact (sgrow_tables h).bind fun _ hr => hP _ _ _ hr

theorem lease_tables (hP : SlotStable P) (j : BitVec 32) (h : TablesMeet P s) :
    (lease j s).Yields (TablesMeet P) (TablesMeet P) := by
  have hasked : TablesMeet P (afterLease s) := tablesMeet_afterLease.2 h
  refine Act.yields_of (fun _ ht => ?_) fun _ _ ht => ?_
  · obtain ⟨_, ⟨_, rfl⟩ | ⟨_, rfl⟩⟩ := lease_ok ht
    · exact h
    · exact hP _ _ _ hasked
  · obtain ⟨_, _, rfl⟩ := lease_raise ht; exact hasked

theorem keySetup_tables (hP : SlotStable P) (j : BitVec 32) (t : Tag) (e : KEntry) (h : TablesMeet P s) :
    (keySetup j t e s).Yields (TablesMeet P) (TablesMeet P) := by
  refine Act.yields_of (fun _ ht => ?_) fun _ _ ht => ?_
  · obtain ⟨_, _, rfl⟩ := keySetup_ok ht
    exact hP (latchKey t _ s) _ _ h
  · obtain ⟨_, _, rfl⟩ := keySetup_raise ht
    exact hP _ _ _ h

theorem newSession_tables (hP : SlotStable P) (n : Nat) (h : TablesMeet P s) :
    (newSession n s).Yields (TablesMeet P) (TablesMeet P) := by
  refine (fetchChain_tables 32 n (s := setPhase .session s) h).bind fun s1 h1 => ?_
  cases sessionEntry s1.chain.entries with
  | none => exact h1
  | some te =>
    refine (salloc_tables hP h1).bind fun r h2 => ?_
    refine (lease_tables hP r.1 h2).bind fun s2 h3 => ?_
    exact (keySetup_tables hP r.1 te.1 te.2 (s := setCtxActive true s2) h3).bind fun _ h4 => h4

theorem freeSession_tables (hP : SlotStable P) (h : TablesMeet P s) :
    (freeSession s).Yields (TablesMeet P) (TablesMeet P) :=
  (slookup_tables s.regs.sid (s := setPhase .session s) h).bind fun _ _ =>
    hP (setPhase .session s) _ _ h

theorem ctrFai_tables (hP : SlotStable P) (j : BitVec 32) (h : TablesMeet P s) :
    (ctrFai j s).Yields (fun r => TablesMeet P r.2) (TablesMeet P) :=
  Act.yields_of (fun _ ht => by obtain ⟨_, rfl⟩ := ctrFai_ok ht; exact hP _ _ _ h)
    fun _ _ ht => absurd ht ctrFai_no_raise

/-! ### Actions that write memory -/

theorem ivDerive_tables (hP : SlotStable P) (hM : StoreStable P) (j : BitVec 32) (h : TablesMeet P s) :
    (ivDerive j s).Yields (TablesMeet P) (TablesMeet P) := by
  refine Act.yields_of (fun _ ht => ?_) fun _ _ ht => absurd ht ivDerive_no_raise
  obtain ⟨_, rfl⟩ | ⟨_, _, u, iv, rfl, _, hiv, rfl⟩ | ⟨_, _, rfl⟩ := ivDerive_ok ht
  · exact h
  · exact hM _ _ _ _ _ hiv (hP _ _ _ h)
  · exact h

theorem wrBack_tables (hM : StoreStable P) (h : TablesMeet P s) :
    (wrBack s).Yields (TablesMeet P) (TablesMeet P) := by
  refine Act.yields_of (fun _ ht => ?_) fun _ _ ht => absurd ht wrBack_no_raise
  obtain ⟨hout, htag, rfl⟩ := wrBack_ok ht
  have hstored := hM _ _ _ _ _ hout h
  show P (wrBackMem s) s.slots
  unfold wrBackMem
  split
  · rename_i henc
    exact hM _ _ _ _ _ (htag henc) hstored
  · exact hstored

theorem process_tables (hP : SlotStable P) (hM : StoreStable P) (n : Nat) (h : TablesMeet P s) :
    (process n s).Yields (TablesMeet P) (TablesMeet P) := by
  refine (fetchChain_tables 64 n (s := setPhase .validate s) h).bind fun s1 h1 => ?_
  refine (validate_tables h1).bind fun s2 h2 => ?_
  refine (stageIn_tables h2).bind fun s3 h3 => ?_
  refine (ivDerive_tables hP hM s.regs.sid h3).bind fun s4 h4 => ?_
  exact (execute_tables s.regs.sid h4).bind fun s5 h5 => wrBack_tables hM h5

/-! ### The instructions -/

/-- What slot writes keep, every instruction keeps; one that writes memory must find it kept by stores too. -/
theorem exec_tables {i : Instr} {t : State} (hP : SlotStable P) (hM : WritesMemory i → StoreStable P)
    (h : TablesMeet P s) (hx : exec i s = .next t) : TablesMeet P t := by
  cases i with
  | process n => exact tablesMeet_finish (process_tables hP (hM (.inl ⟨n, rfl⟩)) n h) hx
  | ivderive => exact tablesMeet_settle (ivDerive_tables hP (hM (.inr (.inl rfl))) s.regs.sid h) hx
  | wrback => exact tablesMeet_settle (wrBack_tables (hM (.inr (.inr rfl))) h) hx
  | newsession n => exact tablesMeet_finish (newSession_tables hP n h) hx
  | freesession => exact tablesMeet_finish (freeSession_tables hP h) hx
  | tagvfy => exact tablesMeet_settle (tagVfy_tables h) hx
  | stagein => exact tablesMeet_settle (stageIn_tables h) hx
  | slookup =>
    refine tablesMeet_settle ?_ hx
    exact (slookup_tables s.regs.sid h).bind fun _ _ => h
  | salloc =>
    refine tablesMeet_settle (c := .newSession) ?_ hx
    exact (salloc_tables hP h).bind fun _ hr => hr
  | sgrow =>
    refine tablesMeet_settle (c := .newSession) ?_ hx
    exact (sgrow_tables h).bind fun _ hr => hr
  | ctrfai =>
    refine tablesMeet_settle (c := .process) ?_ hx
    exact (ctrFai_tables hP s.ports.j h).bind fun _ hr => hr
  | sclear => cases hx; exact hP _ _ _ h
  | _ => cases hx; exact h

end Sys2Proof.Machine
end

section
/-! SUPPORT. Every step keeps the canonical forms and the parameters (20_memory.md R60, 10_state.md R36). -/

namespace Sys2Proof.Machine

/-- `Canonical`, of a memory and a slot list. -/
def CanonicalTables (m : List Host.Cell) (sl : List (Nat × Slot)) : Prop := Memory.wf m = true ∧ slotsWf sl = true

variable {s t : State}

theorem tablesMeet_canonical : TablesMeet CanonicalTables s ↔ Canonical s := Iff.rfl

theorem slotStable_canonical : SlotStable CanonicalTables :=
  fun _ j v ⟨hm, hsl⟩ => ⟨hm, slotsWf_putSlot hsl j v⟩

theorem storeStable_canonical : StoreStable CanonicalTables :=
  fun c m _ _ _ hok ⟨hm, hsl⟩ => ⟨writeBytes_canonical (s := { State.resetWith c with mem := m }) hm hok, hsl⟩

theorem exec_cfg {i : Instr} (hx : exec i s = .next t) : t.cfg = s.cfg :=
  congrArg HostSide.cfg (exec_hostSide_but_sid hx)

theorem exec_canonical {i : Instr} (h : Canonical s) (hx : exec i s = .next t) : Canonical t ∧ t.cfg = s.cfg :=
  have htables := exec_tables slotStable_canonical (fun _ => storeStable_canonical) (tablesMeet_canonical.2 h) hx
  ⟨tablesMeet_canonical.1 htables, exec_cfg hx⟩

theorem cmdWrite_canonical {w : BitVec 32} (h : Canonical s) (hw : cmdWrite w s = .next t) :
    Canonical t ∧ t.cfg = s.cfg := by
  unfold cmdWrite at hw
  split at hw
  · cases hw; exact ⟨h, rfl⟩
  · split at hw
    · rename_i i _
      exact exec_canonical (s := setBusy (claim i s)) h hw
    · cases hw; exact ⟨h, rfl⟩

theorem regWrite32_canonical {off : Nat} {v : BitVec 32} (h : Canonical s) (hw : regWrite32 off v s = .next t) :
    Canonical t ∧ t.cfg = s.cfg := by
  by_cases hoff : off = 0x00
  · subst hoff; exact cmdWrite_canonical h hw
  · obtain ⟨r, _, he⟩ := regWrite32_registers hoff v s
    cases he.symm.trans hw
    exact ⟨h, rfl⟩

theorem hostStore_canonical {addr : Addr} {data : List Byte} (h : Canonical s) (hs : hostStore addr data s = .next t) :
    Canonical t ∧ t.cfg = s.cfg := by
  obtain ⟨_, _, hw⟩ | ⟨_, _, _, s1, hlow, hhigh⟩ | hw := hostStore_next hs
  · exact regWrite32_canonical h hw
  · obtain ⟨h1, hcfg1⟩ := regWrite32_canonical h hlow
    obtain ⟨h2, hcfg2⟩ := regWrite32_canonical h1 hhigh
    exact ⟨h2, hcfg2.trans hcfg1⟩
  · obtain ⟨hok, rfl⟩ := memWrite_ok hw
    exact ⟨⟨writeBytes_canonical h.1 hok, h.2⟩, rfl⟩

theorem hostAct_canonical {i : Input} (h : Canonical s) (ha : hostAct i s = .next t) :
    Canonical t ∧ t.cfg = s.cfg := by
  cases i with
  | store addr data => exact hostStore_canonical h ha
  | load addr n => rw [hostLoad_frame ha]; exact ⟨h, rfl⟩
  | reset => cases ha; exact ⟨⟨h.1, rfl⟩, rfl⟩

theorem stepHost_canonical (h : Canonical s) (hs : stepHost s = .next t) : Canonical t ∧ t.cfg = s.cfg := by
  unfold stepHost at hs
  split at hs
  · cases hs; exact ⟨h, rfl⟩
  · rename_i i rest _
    exact hostAct_canonical (s := { s with inputs := rest }) h hs

theorem stepMicro_canonical {c : Byte} (h : Canonical s) (hs : stepMicro c s = .next t) :
    Canonical t ∧ t.cfg = s.cfg := by
  unfold stepMicro at hs
  split at hs
  · exact exec_canonical (s := { s with bus := none }) h hs
  · cases hs

end Sys2Proof.Machine
end

section
/-! The statements about host memory (20_memory.md), settled. -/

namespace Sys2Proof.Machine

/-- Settles O12: the access by its size and its end, then the host's load and store by what bars them. -/
theorem memoryAccess : Obligations.MemoryAccess := by
  intro s a n B hlen hwf
  subst hlen
  refine ⟨fun h0 _ => ⟨h0 ▸ memRead_none s a, memWrite_none h0⟩,
    fun hn he => ⟨memRead_pastEnd hn he, memWrite_pastEnd hn he⟩,
    fun hn he hf => ⟨memRead_failed hn he hf, memWrite_failed hn he hf⟩,
    fun hok _ => ⟨⟨_, memRead_answers hok, readBytes_length _ _ _, fun _ => byteAt_readBytes _ _ _⟩,
      _, memWrite_answers hok, rfl, writeBytes_canonical hwf hok, byteOf_writeBytes hwf hok⟩,
    fun addr rest hbus ha hout => ?_⟩
  subst ha
  dsimp only
  rw [step_load hbus, step_store hbus]
  have hfree : touchesBlock s.cfg addr.toNat B.length = false := touchesBlock_outside hout
  have hloadBarred := loadBarred_iff { s with inputs := rest } addr.toNat B.length
  have hstoreBarred := storeBarred_iff { s with inputs := rest } addr.toNat B.length
  refine ⟨fun hb => hostLoad_barred hfree (hloadBarred.2 hb), fun hb => hostStore_barred hfree (hstoreBarred.2 hb),
    fun hb => ?_, fun hb => ?_⟩
  · have hopen : loadBarred { s with inputs := rest } addr.toNat B.length = false :=
      Bool.eq_false_iff.2 fun h => let ⟨r, hr, hbuf, hx⟩ := hloadBarred.1 h; hb r hr hbuf hx
    exact ⟨fun hok =>
        ⟨_, hostLoad_answers hfree hopen hok, readBytes_length _ _ _, fun _ => byteAt_readBytes _ _ _⟩,
      hostLoad_refuses (s := { s with inputs := rest }) hfree hopen⟩
  · have hopen : storeBarred { s with inputs := rest } addr.toNat B.length = false :=
      Bool.eq_false_iff.2 fun h => let ⟨r, hr, hx⟩ := hstoreBarred.1 h; hb r hr hx
    exact ⟨fun hok =>
        ⟨_, hostStore_answers hfree hopen hok, rfl, writeBytes_canonical hwf hok, byteOf_writeBytes hwf hok⟩,
      hostStore_refuses (s := { s with inputs := rest }) hfree hopen⟩

/-- Settles O17: a code on the bus runs one instruction, else the host acts; each keeps the canonical forms. -/
theorem canonicalKept : Obligations.CanonicalKept := by
  intro s t _ h hstep
  unfold step at hstep
  split at hstep
  · exact stepMicro_canonical h hstep
  · exact stepHost_canonical h hstep

/-- Settles O59: the memory is the old one, which slot writes keep; the three instructions that store are excluded. -/
theorem othersLeaveMemory : Obligations.OthersLeaveMemory := by
  intro i s t hprocess hivderive hwrback hx x
  have hquiet : ¬WritesMemory i := by
    rintro (⟨n, hi⟩ | hi | hi)
    · exact hprocess n hi
    · exact hivderive hi
    · exact hwrback hi
  have hmem : t.mem = s.mem :=
    exec_tables (P := fun m _ => m = s.mem) (fun _ _ _ h => h) (fun hw => absurd hw hquiet) rfl hx
  rw [hmem]

end Sys2Proof.Machine
end

section
/-! SUPPORT. Words and blocks in byte strings: they come back from their bytes, and depend on no other byte (00_scope.md
R12, R13). -/

namespace Sys2Proof.Machine

/-! ### Which bytes a word is read from -/

theorem byteAt_append_left (A B : List Byte) {i : Nat} (h : i < A.length) : byteAt (A ++ B) i = byteAt A i :=
  List.getD_append A B 0 i h

theorem le32At_congr {A B : List Byte} {i : Nat} (h : ∀ j, i ≤ j → j < i + 4 → byteAt A j = byteAt B j) :
    le32At A i = le32At B i := by
  unfold le32At
  rw [h i (by omega) (by omega), h (i + 1) (by omega) (by omega), h (i + 2) (by omega) (by omega),
    h (i + 3) (by omega) (by omega)]

theorem be32At_congr {A B : List Byte} {i : Nat} (h : ∀ j, i ≤ j → j < i + 4 → byteAt A j = byteAt B j) :
    be32At A i = be32At B i := by
  unfold be32At
  rw [h i (by omega) (by omega), h (i + 1) (by omega) (by omega), h (i + 2) (by omega) (by omega),
    h (i + 3) (by omega) (by omega)]

theorem le64At_congr {A B : List Byte} {i : Nat} (h : ∀ j, i ≤ j → j < i + 8 → byteAt A j = byteAt B j) :
    le64At A i = le64At B i := by
  unfold le64At
  rw [le32At_congr fun j _ _ => h j (by omega) (by omega), le32At_congr (i := i) fun j _ _ => h j (by omega) (by omega)]

theorem le32At_append_left (A B : List Byte) (h : 4 ≤ A.length) : le32At (A ++ B) 0 = le32At A 0 :=
  le32At_congr fun _ _ _ => byteAt_append_left A B (by omega)

/-- The least significant byte stands first. -/
theorem le32At_byte0 (B : List Byte) (i : Nat) : (le32At B i).extractLsb' 0 8 = byteAt B i :=
  BitVec.extractLsb'_append_eq_right

theorem le32At_byte1 (B : List Byte) (i : Nat) : (le32At B i).extractLsb' 8 8 = byteAt B (i + 1) :=
  (BitVec.extractLsb'_append_eq_of_le (by decide)).trans BitVec.extractLsb'_append_eq_right

/-- A slice inside both strings, by its bytes. -/
theorem slice_congr {A B : List Byte} {a n : Nat} (hA : a + n ≤ A.length) (hB : a + n ≤ B.length)
    (h : ∀ i, a ≤ i → i < a + n → byteAt A i = byteAt B i) : slice A a n = slice B a n := by
  refine List.ext_getElem (by simp only [slice, List.length_take, List.length_drop]; omega) fun i hi _ => ?_
  have hin : i < n := by simp only [slice, List.length_take] at hi; omega
  have hbyte := h (a + i) (by omega) (by omega)
  rw [byteAt, byteAt, List.getD_eq_getElem _ _ (by omega), List.getD_eq_getElem _ _ (by omega)] at hbyte
  simpa [slice] using hbyte

theorem slice_append_middle (A B C : List Byte) : slice (A ++ (B ++ C)) A.length B.length = B := by
  simp [slice]

/-! ### Back from the bytes -/

theorem le64At_toLe64 (v : Addr) : le64At (toLe64 v) 0 = v := by
  rw [le64At, le32At_toLe64_low, le32At_toLe64_high]
  exact BitVec.extractLsb'_append_extractLsb'

theorem be32At_be32 (v : BitVec 32) : be32At (be32 v) 0 = v :=
  (append_four_bytes v 0).trans BitVec.extractLsb'_eq_self

/-- A block shifted up by a byte, with the next byte of `v` behind it. -/
theorem shift_in_byte (v : Block) (k : Nat) :
    ((v >>> (k + 8)) <<< 8) ||| (v.extractLsb' k 8).setWidth 128 = v >>> k := by
  refine BitVec.eq_of_getLsbD_eq fun i hi => ?_
  by_cases hlow : i < 8
  · simp [hi, hlow]
  · simp [hi, hlow, show k + 8 + (i - 8) = k + i by omega]

/-- The first `n` bytes of a block, folded as `blk` does, are its upper `n` bytes. -/
theorem blk_first_bytes (v : Block) {n : Nat} (hn : n ≤ 16) :
    blk ((List.range n).map fun i => v.extractLsb' (8 * (15 - i)) 8) = v >>> (8 * (16 - n)) := by
  induction n with
  | zero => exact (BitVec.ushiftRight_eq_zero (by decide)).symm
  | succ n ih =>
    have hfold := ih (by omega)
    unfold blk at hfold ⊢
    rw [List.range_succ, List.map_append, List.foldl_append, hfold]
    have hshift : 8 * (16 - n) = 8 * (15 - n) + 8 := by omega
    have hnext : 16 - (n + 1) = 15 - n := by omega
    rw [hshift, hnext]
    exact shift_in_byte v (8 * (15 - n))

theorem blk_bytes128 (v : Block) : blk (bytes128 v) = v := blk_first_bytes v le_rfl

theorem bytes128_length (v : Block) : (bytes128 v).length = 16 := by simp [bytes128]

end Sys2Proof.Machine
end

section
/-! SUPPORT. The chain entries of formats K and D: their bytes give them back, and their ignored bytes have no effect
(30_encoding.md R93, R98, R113). -/

namespace Sys2Proof.Machine

theorem encodeK_length (e : KEntry) : (encodeK e).length = 32 := rfl

/-- Each field of format K is read where it is written. -/
theorem decodeK_encodeK (e : KEntry) : decodeK (encodeK e) = e := by
  have halg : le32At (encodeK e) 0 = e.alg := le32At_toLe32 e.alg
  have hklen : le32At (encodeK e) 4 = e.klen := le32At_toLe32 e.klen
  have hkeyPtr : le64At (encodeK e) 8 = e.keyPtr := le64At_toLe64 e.keyPtr
  have hnonce : be32At (encodeK e) 16 = e.nonce := be32At_be32 e.nonce
  rw [decodeK, halg, hklen, hkeyPtr, hnonce]

theorem decodeK_of_encodeK {e : KEntry} {B : List Byte} (h : encodeK e = B) : decodeK B = e := h ▸ decodeK_encodeK e

/-- Bytes 0 to 31 of format D: the six words and the ignored bytes after them. -/
def headD (e : DEntry) : List Byte :=
  toLe32 e.alg ++ toLe32 e.flags ++ toLe32 e.offset ++ toLe32 e.length ++ toLe32 e.inject ++ toLe32 e.ivlen ++ zeros 8

theorem headD_length (e : DEntry) : (headD e).length = 32 := rfl

theorem encodeD_eq (e : DEntry) : encodeD e = headD e ++ (bytes128 e.iv ++ zeros 16) := List.append_assoc _ _ _

theorem encodeD_length (e : DEntry) : (encodeD e).length = 64 := by
  simp [encodeD_eq, headD_length, bytes128_length, zeros]

theorem slice_encodeD_iv (e : DEntry) : slice (encodeD e) 32 16 = bytes128 e.iv := by
  rw [encodeD_eq]
  exact bytes128_length e.iv ▸ slice_append_middle (headD e) (bytes128 e.iv) (zeros 16)

/-- Each field of format D is read where it is written. -/
theorem decodeD_encodeD (e : DEntry) : decodeD (encodeD e) = e := by
  have halg : le32At (encodeD e) 0 = e.alg := le32At_toLe32 e.alg
  have hflags : le32At (encodeD e) 4 = e.flags := le32At_toLe32 e.flags
  have hoffset : le32At (encodeD e) 8 = e.offset := le32At_toLe32 e.offset
  have hlength : le32At (encodeD e) 12 = e.length := le32At_toLe32 e.length
  have hinject : le32At (encodeD e) 16 = e.inject := le32At_toLe32 e.inject
  have hivlen : le32At (encodeD e) 20 = e.ivlen := le32At_toLe32 e.ivlen
  rw [decodeD, halg, hflags, hoffset, hlength, hinject, hivlen, slice_encodeD_iv, blk_bytes128]

theorem decodeD_of_encodeD {e : DEntry} {B : List Byte} (h : encodeD e = B) : decodeD B = e := h ▸ decodeD_encodeD e

/-- Format K is its first twenty bytes. -/
theorem decodeK_congr {A B : List Byte} (h : ∀ i, i < 20 → byteAt A i = byteAt B i) : decodeK A = decodeK B := by
  have word {i : Nat} (hi : i + 4 ≤ 20) : le32At A i = le32At B i := le32At_congr fun j _ _ => h j (by omega)
  have hkeyPtr : le64At A 8 = le64At B 8 := le64At_congr fun j _ _ => h j (by omega)
  have hnonce : be32At A 16 = be32At B 16 := be32At_congr fun j _ _ => h j (by omega)
  rw [decodeK, decodeK, word (i := 0) (by decide), word (i := 4) (by decide), hkeyPtr, hnonce]

/-- Format D is its first 24 bytes and the sixteen from 32 on. -/
theorem decodeD_congr {A B : List Byte} (hA : A.length = 64) (hB : B.length = 64)
    (h : ∀ i, i < 24 → byteAt A i = byteAt B i) (hiv : ∀ i, 32 ≤ i → i < 48 → byteAt A i = byteAt B i) :
    decodeD A = decodeD B := by
  have word {i : Nat} (hi : i + 4 ≤ 24) : le32At A i = le32At B i := le32At_congr fun j _ _ => h j (by omega)
  have hslice : slice A 32 16 = slice B 32 16 := slice_congr (by omega) (by omega) hiv
  rw [decodeD, decodeD, word (i := 0) (by decide), word (i := 4) (by decide), word (i := 8) (by decide),
    word (i := 12) (by decide), word (i := 16) (by decide), word (i := 20) (by decide), hslice]

/-- A bit of a field that two words have in common. -/
theorem getLsbD_of_extractLsb'_eq {n o k i : Nat} {v w : BitVec n} (h : v.extractLsb' o k = w.extractLsb' o k)
    (hi : i < k) : v.getLsbD (o + i) = w.getLsbD (o + i) := by
  simpa [hi] using congrArg (fun x : BitVec k => x.getLsbD i) h

end Sys2Proof.Machine
end

section
/-! SUPPORT. The decoder: which command words and which codes it takes (30_encoding.md R86, R87, R105, R106). -/

namespace Sys2Proof.Machine

/-! ### The command word -/

/-- All the command words that decode, by opcode. -/
theorem decodeCommand_ok_iff {w : BitVec 32} {i : Instr} :
    decodeCommand w = .ok i
      ↔ (w.extractLsb' 0 8 = 0x01 ∧ i = .newsession (w.extractLsb' 8 8).toNat)
        ∨ (w.extractLsb' 0 8 = 0x02 ∧ i = .freesession)
        ∨ (w.extractLsb' 0 8 = 0x03 ∧ i = .process (w.extractLsb' 8 8).toNat) := by
  unfold decodeCommand
  dsimp only
  split_ifs with h1 h2 h3
  · simp [h1, eq_comm]
  · simp [h2, eq_comm]
  · simp [h3, eq_comm]
  · refine iff_of_false nofun ?_
    rintro (⟨h, _⟩ | ⟨h, _⟩ | ⟨h, _⟩)
    exacts [h1 h, h2 h, h3 h]

theorem decodeCommand_illegal {w : BitVec 32} (h1 : w.extractLsb' 0 8 ≠ 0x01) (h2 : w.extractLsb' 0 8 ≠ 0x02)
    (h3 : w.extractLsb' 0 8 ≠ 0x03) : decodeCommand w = .error (.illegalOpcode (w.extractLsb' 0 8)) := by
  rw [decodeCommand, if_neg h1, if_neg h2, if_neg h3]

/-- The decoder reads the low half of the word alone. -/
theorem decodeCommand_congr {v w : BitVec 32} (h : v.extractLsb' 0 16 = w.extractLsb' 0 16) :
    decodeCommand v = decodeCommand w := by
  have field (k : Nat) (hk : k + 8 ≤ 16) : v.extractLsb' k 8 = w.extractLsb' k 8 := by
    have hv := extractLsb'_extractLsb'_shift v 0 16 hk
    have hw := extractLsb'_extractLsb'_shift w 0 16 hk
    rw [Nat.zero_add] at hv hw
    rw [← hv, ← hw, h]
  rw [decodeCommand, decodeCommand, field 0 (by decide), field 8 (by decide)]

theorem commandWord_opcode (opc : Byte) (n : Nat) : (commandWord opc n).extractLsb' 0 8 = opc :=
  BitVec.extractLsb'_append_eq_right

theorem commandWord_operand (opc : Byte) {n : Nat} (h : n < 256) :
    ((commandWord opc n).extractLsb' 8 8).toNat = n := by
  have hfield : (commandWord opc n).extractLsb' 8 8 = BitVec.ofNat 8 n :=
    (BitVec.extractLsb'_append_eq_of_le (by decide)).trans BitVec.extractLsb'_append_eq_right
  rw [hfield, BitVec.toNat_ofNat, Nat.mod_eq_of_lt h]

theorem decode_command {B : List Byte} (h : B.length = 4) :
    decode { format := .c, bytes := B } = decodeCommand (le32At B 0) :=
  if_pos h

theorem decode_toLe32 (w : BitVec 32) : decode { format := .c, bytes := toLe32 w } = decodeCommand w := by
  rw [decode_command rfl, le32At_toLe32]

/-! ### The table of codes -/

theorem lookupCode_mem {T : List (Byte × Instr)} {c : Byte} {i : Instr} (h : lookupCode T c = some i) :
    (c, i) ∈ T := by
  induction T with
  | nil => cases h
  | cons row rest ih =>
    obtain ⟨k, j⟩ := row
    unfold lookupCode at h
    split_ifs at h with hc
    · cases h; subst hc; exact List.mem_cons_self
    · exact List.mem_cons_of_mem _ (ih h)

/-- Where no code stands twice, the lookup finds every row. -/
theorem lookupCode_of_mem {T : List (Byte × Instr)} (hT : (T.map Prod.fst).Nodup) {c : Byte} {i : Instr}
    (h : (c, i) ∈ T) : lookupCode T c = some i := by
  induction T with
  | nil => cases h
  | cons row rest ih =>
    obtain ⟨k, j⟩ := row
    obtain ⟨hk, hrest⟩ := List.nodup_cons.1 hT
    rcases List.mem_cons.1 h with heq | hmem
    · cases heq; exact if_pos rfl
    · have hcode : c ∈ rest.map Prod.fst := List.mem_map.2 ⟨(c, i), hmem, rfl⟩
      have hne : c ≠ k := fun he => hk (he ▸ hcode)
      exact (if_neg hne).trans (ih hrest hmem)

theorem microTable_codes_nodup : (microTable.map Prod.fst).Nodup := by decide

/-- The codes that decode are those of the table. -/
theorem decodeMicro_ok_iff {c : Byte} {i : Instr} : decodeMicro c = .ok i ↔ (c, i) ∈ microTable := by
  have hfound : decodeMicro c = .ok i ↔ lookupCode microTable c = some i := by
    unfold decodeMicro
    cases lookupCode microTable c <;> simp
  exact hfound.trans ⟨lookupCode_mem, lookupCode_of_mem microTable_codes_nodup⟩

theorem decodeMicro_unknown {c : Byte} (h : ∀ row ∈ microTable, row.1 ≠ c) :
    decodeMicro c = .error (.unknownMicroOp c) := by
  unfold decodeMicro
  cases hl : lookupCode microTable c with
  | none => rfl
  | some i => exact absurd rfl (h _ (lookupCode_mem hl))

theorem decode_code (c : Byte) : decode { format := .u, bytes := [c] } = decodeMicro c := rfl

/-- A row of the table is an instruction without operand and the code that encodes it. -/
theorem microTable_row {c : Byte} {i : Instr} (h : (c, i) ∈ microTable) :
    i.wf = true ∧ encode i = { format := .u, bytes := [c] } := by
  have hall : ∀ row ∈ microTable, row.2.wf = true ∧ encode row.2 = { format := .u, bytes := [row.1] } := by decide
  exact hall (c, i) h

/-! ### Both formats -/

/-- Every instruction is a host command or stands in the table. -/
theorem command_or_mem_microTable (i : Instr) :
    (∃ n, i = .newsession n) ∨ i = .freesession ∨ (∃ n, i = .process n) ∨ ∃ c, (c, i) ∈ microTable := by
  cases i with
  | newsession n => exact .inl ⟨n, rfl⟩
  | freesession => exact .inr (.inl rfl)
  | process n => exact .inr (.inr (.inl ⟨n, rfl⟩))
  | _ => exact .inr (.inr (.inr (by simp [microTable])))

/-- All that decodes: four bytes that are a command word, or one that is a code. -/
theorem decode_ok_iff {f : Fetched} {i : Instr} :
    decode f = .ok i
      ↔ (f.format = .c ∧ f.bytes.length = 4 ∧ decodeCommand (le32At f.bytes 0) = .ok i)
        ∨ ∃ c, f = { format := .u, bytes := [c] } ∧ (c, i) ∈ microTable := by
  obtain ⟨format, B⟩ := f
  cases format with
  | c =>
    by_cases hlen : B.length = 4
    · simp [decode_command hlen, hlen]
    · simp [decode, hlen]
  | u =>
    by_cases hlen : B.length = 1
    · obtain ⟨c, rfl⟩ := List.length_eq_one_iff.1 hlen
      simp [decode_code, decodeMicro_ok_iff]
    · have hne : ∀ c, B ≠ [c] := fun c h => hlen (h ▸ rfl)
      simp [decode, hlen, hne]

end Sys2Proof.Machine
end

section
/-! SUPPORT. How an instruction reaches `exec`: from the internal bus, or in a store to CMD (30_encoding.md R88; log 1,
log 2). -/

namespace Sys2Proof.Machine

variable {s : State}

theorem step_code {c : Byte} (h : s.bus = some c) : step s = stepMicro c s := by rw [step, h]

theorem step_input {i : Input} {rest : List Input} (hbus : s.bus = none) (hin : s.inputs = i :: rest) :
    step s = hostAct i { s with inputs := rest } := by
  simp [step, stepHost, hbus, hin]

theorem step_quiet (hbus : s.bus = none) (hin : s.inputs = []) : step s = .next s := by
  simp [step, stepHost, hbus, hin]

theorem stepMicro_known {c : Byte} {i : Instr} (h : decodeMicro c = .ok i) :
    stepMicro c s = exec i { s with bus := none } := by
  rw [stepMicro, h]

theorem stepMicro_unknown {c : Byte} {e : DecodeError} (h : decodeMicro c = .error e) :
    stepMicro c s = .refused .unknownMicroOp := by
  rw [stepMicro, h]

/-- A 64-bit store whose upper half falls on a cell that ignores writes is the 32-bit store of its low half. -/
theorem hostStore_eight_low {addr : Addr} {data : List Byte} (hlen : data.length = 8)
    (ht : touchesBlock s.cfg addr.toNat 8 = true) (ha : alignedInBlock s.cfg addr.toNat 8 = true)
    (hhigh : addr.toNat - s.cfg.engineBase + 4 ∈ [0x04, 0x0c, 0x14, 0x2c, 0x34, 0x38, 0x3c]) :
    hostStore addr data s = regWrite32 (addr.toNat - s.cfg.engineBase) (le32At data 0) s := by
  cases hlow : regWrite32 (addr.toNat - s.cfg.engineBase) (le32At data 0) s with
  | next s1 => rw [hostStore_eight hlen ht ha hlow, regWrite32_unused hhigh]
  | fault f => cases f
  | refused r => simp [hostStore, hlen, ht, ha, hlow]

/-- A store to CMD, of 32 bits or with four more bytes above them, writes the word to CMD. -/
theorem hostStore_cmd (hc : s.cfg.wf = true) {w high : List Byte} (hw : w.length = 4)
    (hhigh : high = [] ∨ high.length = 4) :
    hostStore (BitVec.ofNat 64 s.cfg.engineBase) (w ++ high) s = regWrite32 0x00 (le32At w 0) s := by
  rcases hhigh with rfl | h4
  · obtain ⟨hoff, ht, ha⟩ := access_at_offset hc (off := 0) (n := 4) (by decide) (by decide) (by decide)
    rw [Nat.add_zero] at hoff ht ha
    rw [List.append_nil, hostStore_four hw ht ha, hoff]
  · obtain ⟨hoff, ht, ha⟩ := access_at_offset hc (off := 0) (n := 8) (by decide) (by decide) (by decide)
    rw [Nat.add_zero] at hoff ht ha
    have hlen : (w ++ high).length = 8 := by rw [List.length_append, hw, h4]
    rw [hostStore_eight_low hlen ht ha (by rw [hoff]; decide), hoff, le32At_append_left w high hw.ge]

theorem regWrite32_cmd_error {w : BitVec 32} {e : DecodeError} (hb : s.regs.busy = false) (hd : s.regs.done = false)
    (he : decodeCommand w = .error e) : regWrite32 0x00 w s = .next (complete .invalidArgument (setBusy s)) := by
  simp [regWrite32, cmdWrite, hb, hd, he]

end Sys2Proof.Machine
end

section
/-! The statements about the encodings and the dispatch (30_encoding.md), settled. -/

namespace Sys2Proof.Machine

/-- Settles O2: a host command by the two fields of its word, a micro-operation by its row of the table. -/
theorem decodeEncodeAgree : Obligations.DecodeEncodeAgree := by
  intro i hwf
  obtain ⟨n, rfl⟩ | rfl | ⟨n, rfl⟩ | ⟨c, hrow⟩ := command_or_mem_microTable i
  · have hn : n < 256 := of_decide_eq_true hwf
    refine (decode_toLe32 _).trans (decodeCommand_ok_iff.2 (.inl ⟨commandWord_opcode _ _, ?_⟩))
    rw [commandWord_operand _ hn]
  · exact (decode_toLe32 _).trans (decodeCommand_ok_iff.2 (.inr (.inl ⟨commandWord_opcode _ _, rfl⟩)))
  · have hn : n < 256 := of_decide_eq_true hwf
    refine (decode_toLe32 _).trans (decodeCommand_ok_iff.2 (.inr (.inr ⟨commandWord_opcode _ _, ?_⟩)))
    rw [commandWord_operand _ hn]
  · obtain ⟨_, hcode⟩ := microTable_row hrow
    rw [hcode, decode_code]
    exact decodeMicro_ok_iff.2 hrow

/-- Settles O3: field by field, for each format. -/
theorem entriesRoundTrip : Obligations.EntriesRoundTrip :=
  ⟨fun e => ⟨encodeK_length e, decodeK_encodeK e⟩, fun e => ⟨encodeD_length e, decodeD_encodeD e⟩⟩

/-- Settles O4: by the two ways to decode; `N` is a byte, so it is below 256. -/
theorem decoderAcceptsTheTableOnly : Obligations.DecoderAcceptsTheTableOnly := by
  intro f i h
  obtain ⟨hformat, hlen, hcommand⟩ | ⟨c, rfl, hrow⟩ := decode_ok_iff.1 h
  · have hcases := decodeCommand_ok_iff.1 hcommand
    rw [le32At_byte0, le32At_byte1] at hcases
    have hwf : i.wf = true := by
      obtain ⟨_, rfl⟩ | ⟨_, rfl⟩ | ⟨_, rfl⟩ := hcases
      · exact decide_eq_true (BitVec.isLt _)
      · rfl
      · exact decide_eq_true (BitVec.isLt _)
    exact ⟨hwf, fun hu => Format.noConfusion (hformat.symm.trans hu), fun _ => ⟨hlen, hcases⟩⟩
  · obtain ⟨hwf, hcode⟩ := microTable_row hrow
    exact ⟨hwf, fun _ => hcode, nofun⟩

/-- Settles O5: what each decoder reads, and the three bits of `flags` that are named. -/
theorem ignoredFields : Obligations.IgnoredFields := by
  refine ⟨fun v w => decodeCommand_congr, fun w hopc => decodeCommand_ok_iff.2 (.inr (.inl ⟨hopc, rfl⟩)),
    fun A B => decodeK_congr, fun A B => decodeD_congr, fun d v h => ?_⟩
  have flag {i : Nat} (hi : i < 3) : v.getLsbD i = d.flags.getLsbD i := by
    simpa using getLsbD_of_extractLsb'_eq h hi
  exact ⟨flag (by decide), flag (by decide), flag (by decide)⟩

/-- Settles O1: the encodings are computed, the decodings follow by the round trips. -/
theorem workedEncodings : Obligations.WorkedEncodings := by
  have hnew : decodeCommand (commandWord 0x01 2) = .ok (.newsession 2) :=
    (decode_toLe32 _).symm.trans (decodeEncodeAgree (.newsession 2) (by decide))
  have hfree : decodeCommand (commandWord 0x02 0) = .ok .freesession :=
    (decode_toLe32 _).symm.trans (decodeEncodeAgree .freesession (by decide))
  have hprocess : decodeCommand (commandWord 0x03 2) = .ok (.process 2) :=
    (decode_toLe32 _).symm.trans (decodeEncodeAgree (.process 2) (by decide))
  exact ⟨decodeEncodeAgree (.newsession 2) (by decide), hnew, rfl, hfree, rfl, hprocess, rfl,
    decodeK_of_encodeK rfl, rfl, decodeD_of_encodeD rfl, rfl, decodeD_of_encodeD rfl, rfl⟩

/-- Settles O6: the code on the bus, an unknown one, the word stored to CMD, and nothing at all. -/
theorem stepRunsDecodedInstruction : Obligations.StepRunsDecodedInstruction := by
  refine ⟨fun s c i hbus hdec => ?_, fun s c hbus hout => ?_, fun s w high rest i hc hbus hhigh hin hb hd hdec => ?_,
    fun s => step_quiet⟩
  · exact (step_code hbus).trans (stepMicro_known hdec)
  · exact (step_code hbus).trans (stepMicro_unknown (decodeMicro_unknown hout))
  · obtain ⟨_, hlen, hword⟩ | ⟨c, hcode, _⟩ := decode_ok_iff.1 hdec
    · obtain ⟨_, _, haccepted, _⟩ := commandRegister
      calc step s = hostStore (BitVec.ofNat 64 s.cfg.engineBase) (w ++ high) { s with inputs := rest } :=
            step_input hbus hin
        _ = regWrite32 0x00 (le32At w 0) { s with inputs := rest } :=
            hostStore_cmd (s := { s with inputs := rest }) hc hlen hhigh
        _ = exec i (setBusy (claim i { s with inputs := rest })) :=
            haccepted { s with inputs := rest } (le32At w 0) i hb hd hword
    · cases hcode

/-- Settles O7: the word is accepted, no command stands in it, and BUSY has come and gone. -/
theorem illegalOpcode : Obligations.IllegalOpcode :=
  fun _ _ hb hd h1 h2 h3 => regWrite32_cmd_error hb hd (decodeCommand_illegal h1 h2 h3)

end Sys2Proof.Machine
end

section
/-! SUPPORT. The word array of `KEYEXP` and the two schedules, entry by entry (40_aes_keyschedule.md R125, R128,
R132). -/

namespace Sys2Proof.Machine

/-! ### Appending words -/

theorem length_expandWords (nk k : Nat) (w : List KeyWord) : (expandWords nk k w).length = w.length + k := by
  induction k generalizing w with
  | zero => rfl
  | succ k ih => rw [expandWords, ih, List.length_append, List.length_singleton, Nat.add_right_comm, Nat.add_assoc]

theorem prefix_expandWords (nk k : Nat) (w : List KeyWord) : w <+: expandWords nk k w := by
  induction k generalizing w with
  | zero => exact List.prefix_rfl
  | succ k ih => exact (List.prefix_append w _).trans (ih _)

/-- The words already there stay. -/
theorem getD_expandWords_old (nk k : Nat) {w : List KeyWord} {i : Nat} (h : i < w.length) :
    (expandWords nk k w).getD i 0 = w.getD i 0 := by
  obtain ⟨rest, hrest⟩ := prefix_expandWords nk k w
  rw [← hrest, List.getD_append w rest 0 i h]

/-- Every appended word meets the recurrence of 40 R125 in the final array: it did when it was appended, and the
words it was made from stay. -/
theorem getD_expandWords_new {nk : Nat} (hnk : 0 < nk) (k : Nat) {w : List KeyWord} {i : Nat} (hw : nk ≤ w.length)
    (hold : w.length ≤ i) (hnew : i < w.length + k) :
    (expandWords nk k w).getD i 0
      = (expandWords nk k w).getD (i - nk) 0 ^^^ keyWordStep nk i ((expandWords nk k w).getD (i - 1) 0) := by
  induction k generalizing w with
  | zero => omega
  | succ k ih =>
    rcases Nat.eq_or_lt_of_le hold with rfl | hlater
    · have hearlier : ∀ j, j < w.length → (expandWords nk (k + 1) w).getD j 0 = w.getD j 0 :=
        fun j hj => getD_expandWords_old nk (k + 1) hj
      have happended : (expandWords nk (k + 1) w).getD w.length 0
          = w.getD (w.length - nk) 0 ^^^ keyWordStep nk w.length (w.getD (w.length - 1) 0) := by
        rw [expandWords, getD_expandWords_old nk k (by simp), List.getD_append_right _ _ _ _ le_rfl, Nat.sub_self,
          List.getD_cons_zero]
      rw [happended, hearlier (w.length - nk) (by omega), hearlier (w.length - 1) (by omega)]
    · exact ih (by simp; omega) (by simp; omega) (by simp; omega)

/-! ### The word array -/

variable {key : List Byte}

theorem keyWordCount_of_legal (h : legalKeyBytes key.length = true) :
    keyWordCount key = 4 ∨ keyWordCount key = 6 ∨ keyWordCount key = 8 := by
  have := (legalKeyBytes_iff _).1 h
  unfold keyWordCount
  omega

theorem length_keyWords (h : legalKeyBytes key.length = true) : (keyWords key).length = 4 * (keyWordCount key + 7) := by
  have := keyWordCount_of_legal h
  rw [keyWords, length_expandWords, List.length_map, List.length_range]
  omega

theorem getD_keyWords_key {i : Nat} (h : i < keyWordCount key) : (keyWords key).getD i 0 = be32At key (4 * i) := by
  rw [keyWords, getD_expandWords_old _ _ (by simpa using h), List.getD_eq_getElem _ _ (by simpa using h)]
  simp

theorem getD_keyWords_expanded (h : legalKeyBytes key.length = true) {i : Nat} (hlow : keyWordCount key ≤ i)
    (hhigh : i < 4 * (keyWordCount key + 7)) :
    (keyWords key).getD i 0
      = (keyWords key).getD (i - keyWordCount key) 0
        ^^^ keyWordStep (keyWordCount key) i ((keyWords key).getD (i - 1) 0) := by
  have := keyWordCount_of_legal h
  exact getD_expandWords_new (by omega) _ (by simp) (by simpa using hlow) (by simp; omega)

/-! ### The round keys -/

/-- An entry of a schedule that is listed round by round. -/
theorem roundKey_scheduleOf_rounds (f : Nat → Block) {n r : Nat} (hr : r < n) (hn : n ≤ 15) :
    roundKey (scheduleOf ((List.range n).map f)) r = f r := by
  rw [roundKey_scheduleOf, if_pos (hr.trans_le hn), List.getD_eq_getElem _ _ (by simpa using hr)]
  simp

theorem roundKey_keyExp (h : legalKeyBytes key.length = true) {r : Nat} (hr : r ≤ (keyExpRounds key).toNat) :
    roundKey (keyExp key) r = roundKeyOfWords (keyWords key) r := by
  have := keyWordCount_of_legal h
  rw [keyExpRounds_toNat h] at hr
  rw [keyExp, if_pos h]
  exact roundKey_scheduleOf_rounds _ (by omega) (by omega)

theorem roundKey_decKey (rk : Schedule) {nr : BitVec 4} (h : legalRounds nr = true) {i : Nat} (hi : i ≤ nr.toNat) :
    roundKey (decKey rk nr) i = decRoundKey rk nr.toNat i := by
  have := (legalRounds_iff nr).1 h
  rw [decKey, if_pos h]
  exact roundKey_scheduleOf_rounds _ (by omega) (by omega)

end Sys2Proof.Machine
end

section
/-! SUPPORT. `InvMixColumns` by bytes (40_aes_keyschedule.md R129): the column-by-column form is the reference. -/

namespace Sys2Proof.Machine

/-- Row `r` of a mixed column whose bytes are `b 0` to `b 3`, rows modulo 4 (40 R129). -/
def invMixByte (b : Nat → Byte) (r : Nat) : Byte :=
  gmul (b (r % 4)) 0x0e ^^^ gmul (b ((r + 1) % 4)) 0x0b ^^^ gmul (b ((r + 2) % 4)) 0x0d ^^^ gmul (b ((r + 3) % 4)) 0x09

theorem xor_rotate (a b c d : Byte) : b ^^^ c ^^^ d ^^^ a = a ^^^ b ^^^ c ^^^ d := by ac_rfl

/-- The four rows of one column. The model adds the products in the order of the column's bytes, the reference from
the row's own byte on. -/
theorem invMixColumns_column (a0 a1 a2 a3 : Byte) (rest : List Byte) :
    invMixColumns (a0 :: a1 :: a2 :: a3 :: rest)
      = (List.range 4).map (invMixByte (byteAt [a0, a1, a2, a3])) ++ invMixColumns rest := by
  have hrow1 : invMixByte (byteAt [a0, a1, a2, a3]) 1
      = gmul a0 0x09 ^^^ gmul a1 0x0e ^^^ gmul a2 0x0b ^^^ gmul a3 0x0d := xor_rotate _ _ _ _
  have hrow2 : invMixByte (byteAt [a0, a1, a2, a3]) 2
      = gmul a0 0x0d ^^^ gmul a1 0x09 ^^^ gmul a2 0x0e ^^^ gmul a3 0x0b :=
    (xor_rotate _ _ _ _).trans (xor_rotate _ _ _ _)
  have hrow3 : invMixByte (byteAt [a0, a1, a2, a3]) 3
      = gmul a0 0x0b ^^^ gmul a1 0x0d ^^^ gmul a2 0x09 ^^^ gmul a3 0x0e := (xor_rotate _ _ _ _).symm
  rw [invMixColumns, ← hrow1, ← hrow2, ← hrow3]
  rfl

/-- Byte `i` of the result is row `i % 4` of column `i / 4`, for any number of columns. -/
theorem invMixColumns_eq_map (n : Nat) {S : List Byte} (h : S.length = 4 * n) :
    invMixColumns S = (List.range (4 * n)).map fun i => invMixByte (fun r => byteAt S (4 * (i / 4) + r)) (i % 4) := by
  induction n generalizing S with
  | zero => rw [List.eq_nil_of_length_eq_zero h]; rfl
  | succ n ih =>
    match S, h with
    | a0 :: a1 :: a2 :: a3 :: rest, h =>
      have hrest : rest.length = 4 * n := by simp only [List.length_cons] at h; omega
      rw [invMixColumns_column, ih hrest, Nat.mul_succ, Nat.add_comm, List.range_add, List.map_append, List.map_map]
      refine congrArg₂ _ rfl (List.map_congr_left fun i _ => ?_)
      have hcol : (4 + i) / 4 = i / 4 + 1 := by omega
      have hrow : (4 + i) % 4 = i % 4 := by omega
      have hbyte (r : Nat) :
          byteAt (a0 :: a1 :: a2 :: a3 :: rest) (4 * (i / 4 + 1) + r) = byteAt rest (4 * (i / 4) + r) := by
        rw [Nat.mul_succ, Nat.add_right_comm]
        rfl
      simp only [Function.comp_apply, hcol, hrow, hbyte]

/-- On a block the model's `InvMixColumns` is the reference of 40 R129. -/
theorem blk_invMixColumns (k : Block) : blk (invMixColumns (bytes128 k)) = invMixRef k := by
  rw [invMixColumns_eq_map 4 (bytes128_length k), invMixRef]
  refine congrArg blk (List.map_congr_left fun i _ => ?_)
  simp only [invMixByte, Nat.mod_mod, Nat.mod_add_mod]

/-! ### The decryption round keys (40 R128) -/

theorem decRoundKey_zero (rk : Schedule) (nr : Nat) : decRoundKey rk nr 0 = roundKey rk nr := if_pos rfl

theorem decRoundKey_last (rk : Schedule) {nr : Nat} (h : nr ≠ 0) : decRoundKey rk nr nr = roundKey rk 0 := by
  rw [decRoundKey, if_neg h, if_pos rfl]

theorem decRoundKey_inner (rk : Schedule) {nr i : Nat} (hlow : 1 ≤ i) (hhigh : i < nr) :
    decRoundKey rk nr i = invMixRef (roundKey rk (nr - i)) := by
  rw [decRoundKey, if_neg (by omega), if_neg hhigh.ne, blk_invMixColumns]

end Sys2Proof.Machine
end

section
/-! The statements about the key-schedule unit (40_aes_keyschedule.md), settled. -/

namespace Sys2Proof.Machine

/-- Settles O26: the array by its recurrence, each round key from its four words, zeros above the last round. -/
theorem keyexpRecurrence : Obligations.KeyexpRecurrence := by
  intro s
  refine ⟨keyExpWords s.keys.key, keyExp s.keys.key, keyExpRounds s.keys.key, rfl, fun hlen => ?_⟩
  have hlegal := (legalKeyBytes_iff _).2 hlen
  have hrounds := keyExpRounds_toNat hlegal
  rw [keyExpWords, if_pos hlegal]
  refine ⟨hrounds, ?_, fun i hi => getD_keyWords_key hi, fun i hlow hhigh => ?_, fun r _ => ?_⟩
  · rw [hrounds, length_keyWords hlegal]
  · rw [hrounds] at hhigh
    exact getD_keyWords_expanded hlegal hlow hhigh
  · split
    · next hr => exact roundKey_keyExp hlegal hr
    · next hr => exact zeroAbove_keyExp hlegal r (by omega)

/-- Settles O27: the first, the last and the inner decryption round keys, zeros above the last round. -/
theorem deckeySchedule : Obligations.DeckeySchedule := by
  intro s
  refine ⟨decKey s.keys.rk s.keys.nr, rfl, fun hlegal => ?_⟩
  have hnr : s.keys.nr.toNat ≠ 0 := by
    have := (legalRounds_iff _).1 hlegal
    omega
  refine ⟨?_, ?_, fun i hlow hhigh => ?_, zeroAbove_decKey _ hlegal⟩
  · rw [roundKey_decKey _ hlegal (Nat.zero_le _), decRoundKey_zero]
  · rw [roundKey_decKey _ hlegal le_rfl, decRoundKey_last _ hnr]
  · rw [roundKey_decKey _ hlegal hhigh.le, decRoundKey_inner _ hlow hhigh]

end Sys2Proof.Machine
end

section
/-! SUPPORT. Blocks and their bytes under exclusive or (00_scope.md R12, R13; 41_aes_round.md R147). -/

namespace Sys2Proof.Machine

theorem blk_concat (B : List Byte) (b : Byte) : blk (B ++ [b]) = (blk B <<< 8) ||| b.setWidth 128 := by
  simp only [blk, List.foldl_append, List.foldl_cons, List.foldl_nil]

/-- Putting a byte behind a block adds up: the shift leaves the byte's place empty. -/
theorem shift_or_byte_xor (u v : Block) (a b : Byte) :
    ((u ^^^ v) <<< 8) ||| (a ^^^ b).setWidth 128
      = ((u <<< 8) ||| a.setWidth 128) ^^^ ((v <<< 8) ||| b.setWidth 128) := by
  refine BitVec.eq_of_getLsbD_eq fun i hi => ?_
  by_cases hlow : i < 8
  · simp [hi, hlow]
  · have ha : a.getLsbD i = false := BitVec.getLsbD_of_ge a i (by omega)
    have hb : b.getLsbD i = false := BitVec.getLsbD_of_ge b i (by omega)
    simp [hi, hlow, ha, hb]

/-- The block of bytewise sums is the sum of the blocks. -/
theorem blk_map_xor (f g : Nat → Byte) (l : List Nat) :
    blk (l.map fun i => f i ^^^ g i) = blk (l.map f) ^^^ blk (l.map g) := by
  induction l using List.reverseRecOn with
  | nil => exact BitVec.xor_self.symm
  | append_singleton l i ih =>
    simp only [List.map_append, List.map_cons, List.map_nil, blk_concat, ih, shift_or_byte_xor]

theorem map_byteAt_range (B : List Byte) : (List.range B.length).map (byteAt B) = B := by
  refine List.ext_getElem (by simp) fun i _ hi => ?_
  simp [byteAt, hi]

/-- `AddRoundKey` byte by byte (41 R147). -/
theorem addRoundKey_blk (f : Nat → Byte) (k : Block) :
    addRoundKey (blk ((List.range 16).map f)) k = blk ((List.range 16).map fun i => f i ^^^ byteAt (bytes128 k) i) := by
  have hkey : (List.range 16).map (byteAt (bytes128 k)) = bytes128 k := map_byteAt_range (bytes128 k)
  rw [blk_map_xor, hkey, blk_bytes128, addRoundKey]

end Sys2Proof.Machine
end

section
/-! SUPPORT. The AES rounds by bytes, the block encryptor and its four lanes (41_aes_round.md R144 to R158). -/

namespace Sys2Proof.Machine

/-! ### SubBytes, ShiftRows, MixColumns -/

theorem shiftedByte_mod (s : Block) (r c : Nat) : shiftedByte s (r % 4) c = shiftedByte s r c := by
  rw [shiftedByte, shiftedByte, Nat.mod_mod]

/-- `SubBytes` and `ShiftRows`: byte `r + 4c` is the shifted byte of row `r`, column `c`. -/
theorem shiftRows_subBytes (s : Block) :
    shiftRows (subBytes (bytes128 s)) = (List.range 16).map fun i => shiftedByte s (i % 4) (i / 4) := rfl

/-- Row `r` of a column with the bytes `b 0` to `b 3` after `MixColumns`, rows modulo 4 (41 R146). -/
def mixByte (b : Nat → Byte) (r : Nat) : Byte :=
  gmul (b (r % 4)) 2 ^^^ gmul (b ((r + 1) % 4)) 3 ^^^ b ((r + 2) % 4) ^^^ b ((r + 3) % 4)

/-- The four rows of one column. The model adds the products in the order of the column's bytes, the reference from
the row's own byte on. -/
theorem mixColumns_column (b : Nat → Byte) (rest : List Byte) :
    mixColumns ((List.range 4).map b ++ rest) = (List.range 4).map (mixByte b) ++ mixColumns rest := by
  have hrow1 : mixByte b 1 = b 0 ^^^ gmul (b 1) 2 ^^^ gmul (b 2) 3 ^^^ b 3 := xor_rotate _ _ _ _
  have hrow2 : mixByte b 2 = b 0 ^^^ b 1 ^^^ gmul (b 2) 2 ^^^ gmul (b 3) 3 :=
    (xor_rotate _ _ _ _).trans (xor_rotate _ _ _ _)
  have hrow3 : mixByte b 3 = gmul (b 0) 3 ^^^ b 1 ^^^ b 2 ^^^ gmul (b 3) 2 := (xor_rotate _ _ _ _).symm
  calc mixColumns ((List.range 4).map b ++ rest)
    _ = mixByte b 0 :: (b 0 ^^^ gmul (b 1) 2 ^^^ gmul (b 2) 3 ^^^ b 3)
          :: (b 0 ^^^ b 1 ^^^ gmul (b 2) 2 ^^^ gmul (b 3) 3)
          :: (gmul (b 0) 3 ^^^ b 1 ^^^ b 2 ^^^ gmul (b 3) 2) :: mixColumns rest := rfl
    _ = _ := by rw [← hrow1, ← hrow2, ← hrow3]; rfl

/-- Any number of columns, each mixed by itself. -/
theorem mixColumns_flatMap (b : Nat → Nat → Byte) (columns : List Nat) :
    mixColumns (columns.flatMap fun c => (List.range 4).map (b c))
      = columns.flatMap fun c => (List.range 4).map (mixByte (b c)) := by
  induction columns with
  | nil => rfl
  | cons c columns ih => rw [List.flatMap_cons, mixColumns_column, ih, List.flatMap_cons]

/-- The sixteen bytes of a state are its four columns one after the other. -/
theorem map_range_columns (b : Nat → Nat → Byte) :
    ((List.range 16).map fun i => b (i / 4) (i % 4)) = (List.range 4).flatMap fun c => (List.range 4).map (b c) := rfl

theorem mixColumns_map_range (b : Nat → Nat → Byte) :
    mixColumns ((List.range 16).map fun i => b (i / 4) (i % 4))
      = (List.range 16).map fun i => mixByte (b (i / 4)) (i % 4) := by
  rw [map_range_columns, mixColumns_flatMap]
  exact (map_range_columns fun c => mixByte (b c)).symm

/-! ### The rounds (41 R150, R151) -/

theorem aesEnc_eq_ref (s k : Block) : aesEnc s k = aesEncRef s k := by
  rw [aesEnc, shiftRows_subBytes, mixColumns_map_range fun c r => shiftedByte s r c, addRoundKey_blk, aesEncRef]
  refine congrArg blk (List.map_congr_left fun i _ => ?_)
  simp only [mixByte, shiftedByte_mod]
  ac_rfl

theorem aesEncLast_eq_ref (s k : Block) : aesEncLast s k = aesEncLastRef s k := by
  rw [aesEncLast, shiftRows_subBytes, addRoundKey_blk, aesEncLastRef]

/-! ### The cipher (41 R154) -/

theorem aesRounds_eq_foldl (ek : Schedule) (n r : Nat) (s : Block) :
    aesRounds ek n r s = (List.range n).foldl (fun s i => aesEncRef s (roundKey ek (i + r))) s := by
  induction n generalizing r s with
  | zero => rfl
  | succ n ih =>
    simp only [aesRounds, ih, aesEnc_eq_ref, List.range_succ_eq_map, List.foldl_cons, List.foldl_map, Nat.zero_add,
      Nat.succ_add_eq_add_succ]

theorem aesBlk_eq_ref (ek : Schedule) {nr : BitVec 4} (h : legalRounds nr = true) (x : Block) :
    aesBlk ek nr x = aesBlkRef ek nr x := by
  rw [aesBlk, if_pos h, aesRounds_eq_foldl, aesEncLast_eq_ref, aesBlkRef]

/-! ### The four lanes (41 R158, R159) -/

/-- Sharing the round keys changes no lane's result. -/
theorem laneRounds_eq_mapLanes (ek : Schedule) (n r : Nat) (L : Lanes) :
    laneRounds ek n r L = mapLanes (aesRounds ek n r) L := by
  induction n generalizing r L with
  | zero => rfl
  | succ n ih => exact ih (r + 1) (mapLanes (fun s => aesEnc s (roundKey ek r)) L)

/-- Each lane is a block encryption of its own, whatever the round count. -/
theorem aesBlk4_eq_mapLanes (ek : Schedule) (nr : BitVec 4) (L : Lanes) :
    aesBlk4 ek nr L = mapLanes (aesBlk ek nr) L := by
  by_cases h : legalRounds nr = true
  · simp only [aesBlk4, if_pos h, laneRounds_eq_mapLanes, mapLanes, aesBlk]
  · simp only [aesBlk4, if_neg h, mapLanes, aesBlk]

end Sys2Proof.Machine
end

section
/-! SUPPORT. The S-box table against GF(2^8) (41_aes_round.md R141 to R143). The table is data, so that its entries are
the inverses is checked byte by byte; the inverse is read back from the entry, which costs one product for each byte. -/

namespace Sys2Proof.Machine

/-- The affine map of 41 R142. -/
def affineMap (b : Byte) : Byte :=
  b ^^^ b.rotateLeft 1 ^^^ b.rotateLeft 2 ^^^ b.rotateLeft 3 ^^^ b.rotateLeft 4 ^^^ 0x63

/-- The inverse of the affine map. -/
def affineInverse (v : Byte) : Byte := v.rotateLeft 1 ^^^ v.rotateLeft 3 ^^^ v.rotateLeft 6 ^^^ 0x05

theorem affineMap_affineInverse : ∀ v : Byte, affineMap (affineInverse v) = v := by decide +kernel

/-- The inverse in GF(2^8), with 0 for 0, as the table has it (41 R142). -/
def sboxInverse (a : Byte) : Byte := affineInverse (sbox a)

theorem sbox_eq_affineMap (a : Byte) : sbox a = affineMap (sboxInverse a) := (affineMap_affineInverse (sbox a)).symm

theorem sboxInverse_zero : sboxInverse 0 = 0 := by decide

/-- `SBOX` holds the inverses: this is where its 256 entries are checked. -/
theorem gmul_sboxInverse : ∀ a : Byte, a ≠ 0 → gmul a (sboxInverse a) = 1 := by decide +kernel

end Sys2Proof.Machine
end

section
/-! The statements about the AES round unit (41_aes_round.md), settled. -/

namespace Sys2Proof.Machine

/-- Settles O22: the round by bytes is the model's, whatever the state. -/
theorem aesencRound : Obligations.AesencRound := by
  intro s
  rw [← aesEnc_eq_ref]
  rfl

/-- Settles O23: the last round by bytes is the model's, whatever the state. -/
theorem aesenclastRound : Obligations.AesenclastRound := by
  intro s
  rw [← aesEncLast_eq_ref]
  rfl

/-- The result port takes the block encryption of port `a`, whatever the round count (41 R154, log 3). -/
theorem exec_aesblk (s : State) :
    exec .aesblk s = .next (setResult (aesBlk (sessionOf s).ek (sessionOf s).rounds s.ports.a) s) := rfl

/-- The keystream registers take the block encryptions of ports `a` to `d` (41 R158, log 3). -/
theorem exec_aesblk4 (s : State) :
    exec .aesblk4 s
      = .next { s with work := { s.work with
                  ks0 := aesBlk (sessionOf s).ek (sessionOf s).rounds s.ports.a
                  ks1 := aesBlk (sessionOf s).ek (sessionOf s).rounds s.ports.b
                  ks2 := aesBlk (sessionOf s).ek (sessionOf s).rounds s.ports.c
                  ks3 := aesBlk (sessionOf s).ek (sessionOf s).rounds s.ports.d } } := by
  calc exec .aesblk4 s = execAesblk4 s := rfl
    _ = _ := by rw [execAesblk4, aesBlk4_eq_mapLanes]; rfl

/-- Settles O24: the model's rounds, counted up, are the reference's fold. -/
theorem aesblkCipher : Obligations.AesblkCipher := by
  refine fun s => ⟨fun hlegal => ?_, fun _ => ⟨_, exec_aesblk s⟩⟩
  rw [exec_aesblk, aesBlk_eq_ref _ hlegal]
  rfl

/-- Settles O25: the lanes are four block encryptions, each what AESBLK gives with the lane's block in port `a`. -/
theorem aesblk4Lanes : Obligations.Aesblk4Lanes := by
  intro s
  refine ⟨_, _, _, _, exec_aesblk4 s, fun x k hlane => ?_⟩
  have hk : k = aesBlk (sessionOf s).ek (sessionOf s).rounds x := by
    simp only [List.mem_cons, List.not_mem_nil, or_false, Prod.mk.injEq] at hlane
    obtain ⟨rfl, rfl⟩ | ⟨rfl, rfl⟩ | ⟨rfl, rfl⟩ | ⟨rfl, rfl⟩ := hlane <;> rfl
  rw [hk]
  exact ⟨exec_aesblk _, fun hlegal => aesBlk_eq_ref _ hlegal x⟩

/-- Settles O21: the inverse is the table's entry before the affine map. -/
theorem sboxAlgebraic : Obligations.SboxAlgebraic :=
  fun a => ⟨sboxInverse a, fun h => h ▸ sboxInverse_zero, gmul_sboxInverse a, sbox_eq_affineMap a⟩

end Sys2Proof.Machine
end

section
/-! SUPPORT. Words as polynomials over GF(2) (42_ghash.md R168): what each bit operation is to the polynomial. -/

namespace Sys2Proof.Machine

open Polynomial

variable {u w : Nat}

/-- The polynomial whose coefficients are bits `0` to `n - 1` of `v` (42 R165). -/
noncomputable def lowPoly (v : BitVec w) (n : Nat) : (ZMod 2)[X] :=
  ∑ i ∈ Finset.range n, if v.getLsbD i then X ^ i else 0

/-- The polynomial of the whole word. -/
noncomputable def toPoly (v : BitVec w) : (ZMod 2)[X] := lowPoly v w

theorem lowPoly_zero (v : BitVec w) : lowPoly v 0 = 0 := Finset.sum_range_zero _

theorem lowPoly_succ (v : BitVec w) (n : Nat) :
    lowPoly v (n + 1) = lowPoly v n + if v.getLsbD n then X ^ n else 0 := Finset.sum_range_succ _ n

theorem coeff_lowPoly (v : BitVec w) (n i : Nat) :
    (lowPoly v n).coeff i = if i < n ∧ v.getLsbD i then 1 else 0 := by
  induction n with
  | zero => simp [lowPoly_zero]
  | succ n ih =>
    rw [lowPoly_succ, coeff_add, ih]
    rcases lt_trichotomy i n with hlt | rfl | hgt
    · have hne : i ≠ n := hlt.ne
      simp [apply_ite (coeff · i), coeff_X_pow, hlt, hne, hlt.trans n.lt_succ_self]
    · simp [apply_ite (coeff · i)]
    · have hne : i ≠ n := hgt.ne'
      simp [apply_ite (coeff · i), coeff_X_pow, hne, hgt.not_gt, show ¬ i < n + 1 by omega]

/-- Each bit is a coefficient; above the word both are zero. -/
theorem coeff_toPoly (v : BitVec w) (i : Nat) : (toPoly v).coeff i = if v.getLsbD i then 1 else 0 := by
  rw [toPoly, coeff_lowPoly]
  by_cases hi : i < w
  · simp [hi]
  · simp [hi, BitVec.getLsbD_of_ge v i (not_lt.1 hi)]

/-- Words of any two widths with the same bits. -/
theorem toPoly_congr {x : BitVec u} {y : BitVec w} (h : ∀ i, x.getLsbD i = y.getLsbD i) : toPoly x = toPoly y :=
  Polynomial.ext fun i => by rw [coeff_toPoly, coeff_toPoly, h i]

theorem toPoly_injective : Function.Injective (toPoly : BitVec w → (ZMod 2)[X]) := by
  refine fun x y h => BitVec.eq_of_getLsbD_eq fun i _ => ?_
  have hcoeff : (if x.getLsbD i then (1 : ZMod 2) else 0) = if y.getLsbD i then 1 else 0 := by
    rw [← coeff_toPoly, ← coeff_toPoly, h]
  revert hcoeff
  cases x.getLsbD i <;> cases y.getLsbD i <;> simp

theorem degree_toPoly_lt (v : BitVec w) : (toPoly v).degree < w :=
  (degree_lt_iff_coeff_zero _ _).2 fun i hi => by rw [coeff_toPoly, BitVec.getLsbD_of_ge v i hi]; rfl

theorem toPoly_zero : toPoly (0 : BitVec w) = 0 := Polynomial.ext fun i => by simp [coeff_toPoly]

/-- Addition is exclusive or (42 R168). -/
theorem toPoly_xor (x y : BitVec w) : toPoly (x ^^^ y) = toPoly x + toPoly y := by
  refine Polynomial.ext fun i => ?_
  rw [coeff_add, coeff_toPoly, coeff_toPoly, coeff_toPoly, BitVec.getLsbD_xor]
  cases x.getLsbD i <;> cases y.getLsbD i <;> decide

theorem toPoly_if_xor (b : Bool) (x y : BitVec w) :
    toPoly (if b then x ^^^ y else x) = toPoly x + if b then toPoly y else 0 := by
  cases b
  · exact (add_zero _).symm
  · exact toPoly_xor x y

/-- A shift by `k` multiplies by `X ^ k` where no bit falls off. -/
theorem toPoly_shiftLeft (v : BitVec w) {k : Nat} (h : ∀ i, w ≤ i + k → v.getLsbD i = false) :
    toPoly (v <<< k) = X ^ k * toPoly v := by
  refine Polynomial.ext fun i => ?_
  rw [coeff_X_pow_mul', coeff_toPoly, coeff_toPoly, BitVec.getLsbD_shiftLeft]
  by_cases hk : k ≤ i
  · by_cases hi : i < w
    · simp [hk, hi, not_lt.2 hk]
    · simp [hi, h (i - k) (by omega)]
  · simp [hk, not_le.1 hk]

/-- One place further the top bit leaves the word. -/
theorem X_mul_toPoly (v : BitVec (w + 1)) :
    X * toPoly v = toPoly (v <<< 1) + if v.getLsbD w then X ^ (w + 1) else 0 := by
  refine Polynomial.ext fun i => ?_
  rw [← pow_one X, coeff_X_pow_mul', coeff_add, coeff_toPoly, coeff_toPoly, BitVec.getLsbD_shiftLeft, pow_one,
    apply_ite (coeff · i), coeff_X_pow, coeff_zero]
  rcases lt_trichotomy i (w + 1) with hlt | rfl | hgt
  · rcases Nat.eq_zero_or_pos i with rfl | hpos
    · simp
    · simp [hlt, hlt.ne, hpos.ne', Nat.one_le_iff_ne_zero]
  · simp
  · simp [hgt.ne', hgt.not_gt, BitVec.getLsbD_of_ge v (i - 1) (by omega)]

/-- A word in another width that holds its bits. -/
theorem toPoly_setWidth_of_high_zero (v : BitVec u) (h : ∀ i, w ≤ i → v.getLsbD i = false) :
    toPoly (v.setWidth w) = toPoly v := by
  refine toPoly_congr fun i => ?_
  by_cases hi : i < w
  · simp [hi]
  · simp [hi, h i (not_lt.1 hi)]

theorem toPoly_setWidth (v : BitVec u) (h : u ≤ w) : toPoly (v.setWidth w) = toPoly v :=
  toPoly_setWidth_of_high_zero v fun i hi => BitVec.getLsbD_of_ge v i (h.trans hi)

theorem toPoly_setWidth_shiftLeft (v : BitVec u) {k : Nat} (h : u + k ≤ w) :
    toPoly (v.setWidth w <<< k) = X ^ k * toPoly v := by
  rw [toPoly_shiftLeft _ fun i hi => by simp [BitVec.getLsbD_of_ge v i (by omega)], toPoly_setWidth v (by omega)]

/-- A word is its low `k` bits and the rest. -/
theorem toPoly_split (v : BitVec w) (k : Nat) :
    toPoly v = toPoly (v.extractLsb' 0 k) + X ^ k * toPoly (v >>> k) := by
  refine Polynomial.ext fun i => ?_
  rw [coeff_add, coeff_X_pow_mul', coeff_toPoly, coeff_toPoly, coeff_toPoly, BitVec.getLsbD_extractLsb',
    BitVec.getLsbD_ushiftRight]
  by_cases hk : k ≤ i
  · simp [hk, not_lt.2 hk, Nat.add_sub_cancel' hk]
  · simp [hk, not_le.1 hk]

theorem toPoly_one (h : 0 < w) : toPoly 1#w = 1 := by
  refine Polynomial.ext fun i => ?_
  rw [coeff_toPoly, coeff_one]
  simp [h]

end Sys2Proof.Machine
end

section
/-! SUPPORT. The carry-less products as products of polynomials (42_ghash.md R169). -/

namespace Sys2Proof.Machine

open Polynomial

/-- Twice a polynomial over GF(2). -/
theorem poly_two_eq_zero : (2 : (ZMod 2)[X]) = 0 := CharTwo.two_eq_zero

/-- One more bit of `b` adds one more shifted `a`. -/
theorem toPoly_partial_product {u w : Nat} (a b : BitVec u) {p : BitVec w} {n : Nat}
    (hp : toPoly p = lowPoly b n * toPoly a) (hn : u + n ≤ w) :
    toPoly (if b.getLsbD n then p ^^^ (a.setWidth w <<< n) else p) = lowPoly b (n + 1) * toPoly a := by
  rw [toPoly_if_xor, hp, toPoly_setWidth_shiftLeft a hn, lowPoly_succ, add_mul]
  cases b.getLsbD n <;> simp

theorem toPoly_clmul64Bits (a b : BitVec 64) {n : Nat} (hn : n ≤ 64) :
    toPoly (clmul64Bits a b n) = lowPoly b n * toPoly a := by
  induction n with
  | zero => rw [lowPoly_zero, zero_mul]; exact toPoly_zero
  | succ n ih => exact toPoly_partial_product a b (ih (by omega)) (by omega)

theorem toPoly_clmul64 (a b : BitVec 64) : toPoly (clmul64 a b) = toPoly b * toPoly a :=
  toPoly_clmul64Bits a b le_rfl

/-- The schoolbook product over bits `0` to `n - 1` of `b`. -/
theorem toPoly_clmulRef_foldl (a b : Block) {n : Nat} (hn : n ≤ 128) :
    toPoly ((List.range n).foldl (fun p i => if b.getLsbD i then p ^^^ (a.setWidth 255 <<< i) else p) (0 : BitVec 255))
      = lowPoly b n * toPoly a := by
  induction n with
  | zero => rw [lowPoly_zero, zero_mul]; exact toPoly_zero
  | succ n ih =>
    rw [List.range_succ, List.foldl_append]
    exact toPoly_partial_product a b (ih (by omega)) (by omega)

theorem toPoly_clmulRef (a b : Block) : toPoly (clmulRef a b) = toPoly a * toPoly b :=
  (toPoly_clmulRef_foldl a b le_rfl).trans (mul_comm _ _)

/-- A block by its two halves. -/
theorem toPoly_halves (v : Block) :
    toPoly v = toPoly (v.extractLsb' 0 64) + X ^ 64 * toPoly (v.extractLsb' 64 64) := by
  have hhigh : toPoly (v >>> 64) = toPoly (v.extractLsb' 64 64) := by
    refine toPoly_congr fun i => ?_
    by_cases hi : i < 64
    · simp [hi]
    · simp [hi, BitVec.getLsbD_of_ge v (64 + i) (by omega)]
  rw [← hhigh]
  exact toPoly_split v 64

/-- The three products make the fourth: the cross terms are the middle product less the outer two. -/
theorem toPoly_clmul (a b : Block) : toPoly (clmul a b) = toPoly a * toPoly b := by
  rw [toPoly_halves a, toPoly_halves b, clmul]
  simp only [toPoly_xor, toPoly_setWidth_shiftLeft _ (show 127 + 128 ≤ 255 by decide),
    toPoly_setWidth_shiftLeft _ (show 127 + 64 ≤ 255 by decide), toPoly_setWidth _ (show 127 ≤ 255 by decide),
    toPoly_clmul64]
  generalize toPoly (a.extractLsb' 0 64) = a0, toPoly (a.extractLsb' 64 64) = a1,
    toPoly (b.extractLsb' 0 64) = b0, toPoly (b.extractLsb' 64 64) = b1
  linear_combination (X ^ 64 * (a0 * b0 + a1 * b1)) * poly_two_eq_zero

theorem clmul_eq_clmulRef (a b : Block) : clmul a b = clmulRef a b :=
  toPoly_injective ((toPoly_clmul a b).trans (toPoly_clmulRef a b).symm)

end Sys2Proof.Machine
end

section
/-! SUPPORT. The field GF(2^128) (42_ghash.md R168): the element a word stands for, and the two reductions.
All it needs of the field is that it is the ring of polynomials modulo the field's polynomial. -/

namespace Sys2Proof.Machine

open Polynomial

/-- What `X ^ 128` is modulo the field's polynomial (42 R170, R171). -/
noncomputable def lowTerms : (ZMod 2)[X] := 1 + X + X ^ 2 + X ^ 7

/-- The field's polynomial (42 R168). -/
noncomputable def fieldPoly : (ZMod 2)[X] := toPoly modulus

/-- The three shifts of the reduction multiply by the low terms where no bit falls off (42 R171). -/
theorem toPoly_shifts {w : Nat} (v : BitVec w) (h : ∀ i, w ≤ i + 7 → v.getLsbD i = false) :
    toPoly (v ^^^ (v <<< 1) ^^^ (v <<< 2) ^^^ (v <<< 7)) = lowTerms * toPoly v := by
  rw [toPoly_xor, toPoly_xor, toPoly_xor, toPoly_shiftLeft v fun i hi => h i (by omega),
    toPoly_shiftLeft v fun i hi => h i (by omega), toPoly_shiftLeft v h, lowTerms]
  ring

theorem fieldPoly_eq : fieldPoly = X ^ 128 + lowTerms := by
  have hbits : modulus = (1#255 <<< 128) ^^^ (1#255 ^^^ (1#255 <<< 1) ^^^ (1#255 <<< 2) ^^^ (1#255 <<< 7)) := by decide
  have hone (i : Nat) (hi : 0 < i) : (1#255).getLsbD i = false := by simp [hi.ne']
  rw [fieldPoly, hbits, toPoly_xor, toPoly_shiftLeft _ fun i hi => hone i (by omega),
    toPoly_shifts _ fun i hi => hone i (by omega), toPoly_one (by decide), mul_one, mul_one]

theorem degree_lowTerms_lt : lowTerms.degree < (X ^ 128 : (ZMod 2)[X]).degree := by
  have hle : lowTerms.natDegree ≤ 7 := by unfold lowTerms; compute_degree
  refine degree_lt_degree (hle.trans_lt ?_)
  rw [natDegree_X_pow]
  decide

theorem degree_fieldPoly : fieldPoly.degree = (128 : Nat) := by
  rw [fieldPoly_eq, degree_add_eq_left_of_degree_lt degree_lowTerms_lt, degree_X_pow]

/-- The field element a word of any width stands for, bit `i` the coefficient of `x ^ i` (42 R165). -/
noncomputable def fieldElem {w : Nat} (v : BitVec w) : AdjoinRoot fieldPoly := AdjoinRoot.mk fieldPoly (toPoly v)

/-- The element `x`. -/
noncomputable def fieldX : AdjoinRoot fieldPoly := AdjoinRoot.root fieldPoly

/-- What `x ^ 128` is in the field. -/
noncomputable def fieldLow : AdjoinRoot fieldPoly := 1 + fieldX + fieldX ^ 2 + fieldX ^ 7

theorem mk_X_pow (n : Nat) : AdjoinRoot.mk fieldPoly (X ^ n) = fieldX ^ n := by rw [map_pow, AdjoinRoot.mk_X, fieldX]

theorem mk_lowTerms : AdjoinRoot.mk fieldPoly lowTerms = fieldLow := by
  simp only [lowTerms, fieldLow, map_add, map_one, mk_X_pow, AdjoinRoot.mk_X, fieldX]

theorem field_two_eq_zero : (2 : AdjoinRoot fieldPoly) = 0 := by
  rw [← map_ofNat (AdjoinRoot.mk fieldPoly) 2]
  exact (congrArg _ poly_two_eq_zero).trans (map_zero _)

theorem fieldX_pow_128 : fieldX ^ 128 = fieldLow := by
  have hroot : AdjoinRoot.mk fieldPoly (X ^ 128 + lowTerms) = 0 := by rw [← fieldPoly_eq, AdjoinRoot.mk_self]
  rw [map_add, mk_X_pow, mk_lowTerms] at hroot
  linear_combination hroot - fieldLow * field_two_eq_zero

/-- A block is its field element. -/
theorem fieldElem_injective {x y : Block} (h : fieldElem x = fieldElem y) : x = y := by
  have hsub : toPoly x - toPoly y = toPoly (x ^^^ y) := by rw [toPoly_xor, CharTwo.sub_eq_add]
  have hdvd : fieldPoly ∣ toPoly (x ^^^ y) := hsub ▸ AdjoinRoot.mk_eq_mk.1 h
  have hdeg : (toPoly (x ^^^ y)).degree < fieldPoly.degree := by
    rw [degree_fieldPoly]
    exact degree_toPoly_lt _
  exact toPoly_injective (sub_eq_zero.1 (hsub.trans (eq_zero_of_dvd_of_degree_lt hdvd hdeg)))

variable {w : Nat}

theorem fieldElem_zero : fieldElem (0 : BitVec w) = 0 := by rw [fieldElem, toPoly_zero, map_zero]

theorem fieldElem_one : fieldElem 1#128 = 1 := by rw [fieldElem, toPoly_one (by decide), map_one]

theorem fieldElem_xor (x y : BitVec w) : fieldElem (x ^^^ y) = fieldElem x + fieldElem y := by
  rw [fieldElem, toPoly_xor, map_add, fieldElem, fieldElem]

theorem fieldElem_shiftLeft (v : BitVec w) {k : Nat} (h : ∀ i, w ≤ i + k → v.getLsbD i = false) :
    fieldElem (v <<< k) = fieldX ^ k * fieldElem v := by
  rw [fieldElem, toPoly_shiftLeft v h, map_mul, mk_X_pow, fieldElem]

/-- A word with no bit from 128 on is the block of its low bits. -/
theorem fieldElem_low_block (v : BitVec w) (h : ∀ i, 128 ≤ i → v.getLsbD i = false) :
    fieldElem (v.extractLsb' 0 128) = fieldElem v := by
  have hbits (i : Nat) : (v.extractLsb' 0 128).getLsbD i = v.getLsbD i := by
    by_cases hi : i < 128
    · simp [hi]
    · simp [hi, h i (not_lt.1 hi)]
  rw [fieldElem, toPoly_congr hbits, fieldElem]

/-! ### The fixed-shift reduction (42 R170) -/

/-- One fold of the reduction: the bits from 128 on come down by `x ^ 128 = 1 + x + x ^ 2 + x ^ 7`. -/
theorem fieldElem_fold {u : Nat} (v : BitVec w) {high : BitVec u} (hhigh : high = (v >>> 128).setWidth u)
    (hfits : w + 7 ≤ 128 + u) :
    fieldElem v = fieldElem (v.extractLsb' 0 128)
      + fieldElem (high ^^^ (high <<< 1) ^^^ (high <<< 2) ^^^ (high <<< 7)) := by
  have hzero (i : Nat) (hi : u ≤ i + 7) : (v >>> 128).getLsbD i = false :=
    (BitVec.getLsbD_ushiftRight _ _ _).trans (BitVec.getLsbD_of_ge v _ (by omega))
  have hpoly : toPoly high = toPoly (v >>> 128) :=
    hhigh ▸ toPoly_setWidth_of_high_zero _ fun i hi => hzero i (by omega)
  have hshifts : toPoly (high ^^^ (high <<< 1) ^^^ (high <<< 2) ^^^ (high <<< 7)) = lowTerms * toPoly (v >>> 128) :=
    hpoly ▸ toPoly_shifts high fun i hi => by simp [hhigh, hzero i hi]
  simp only [fieldElem, hshifts, toPoly_split v 128, map_add, map_mul, mk_X_pow, mk_lowTerms, fieldX_pow_128]

theorem fieldElem_gfRed (p : BitVec 255) : fieldElem (gfRed p) = fieldElem p := by
  simp only [gfRed]
  generalize hph : (p >>> 128).setWidth 134 = ph
  have hp := fieldElem_fold p hph.symm (by decide)
  generalize ph ^^^ (ph <<< 1) ^^^ (ph <<< 2) ^^^ (ph <<< 7) = q at *
  have hq := fieldElem_fold (u := 128) q rfl (by decide)
  rw [hp, hq, ← fieldElem_xor, ← fieldElem_xor]
  simp only [BitVec.xor_assoc]

/-! ### The long division (42 R170) -/

theorem fieldElem_modulus : fieldElem modulus = 0 := AdjoinRoot.mk_self

theorem modulus_top : modulus.getLsbD 128 = true := by decide

theorem modulus_above {i : Nat} (hi : 128 < i) : modulus.getLsbD i = false :=
  Nat.testBit_lt_two_pow ((show modulus.toNat < 2 ^ 129 by decide).trans_le (Nat.pow_le_pow_right (by decide) hi))

/-- The modulus shifted for step `n` of the division has its top bit where the step looks. -/
theorem modulus_shift_top {n : Nat} (hn : n < 127) : (modulus <<< (126 - n)).getLsbD (254 - n) = true := by
  have htop : 254 - n - (126 - n) = 128 := by omega
  have hfits : 254 - n < 255 ∧ ¬ 254 - n < 126 - n := by omega
  simp [htop, modulus_top, hfits]

theorem modulus_shift_above {n i : Nat} (hn : n < 127) (hi : 254 < i + n) :
    (modulus <<< (126 - n)).getLsbD i = false := by
  rw [BitVec.getLsbD_shiftLeft, modulus_above (show 128 < i - (126 - n) by omega), Bool.and_false]

/-- The first `n` steps of the division. -/
def divSteps (p : BitVec 255) (n : Nat) : BitVec 255 :=
  (List.range n).foldl (fun q k => if q.getLsbD (254 - k) then q ^^^ (modulus <<< (126 - k)) else q) p

theorem gfRedRef_eq_divSteps (p : BitVec 255) : gfRedRef p = (divSteps p 127).extractLsb' 0 128 := rfl

theorem divSteps_succ (p : BitVec 255) (n : Nat) :
    divSteps p (n + 1) = if (divSteps p n).getLsbD (254 - n) then divSteps p n ^^^ (modulus <<< (126 - n))
      else divSteps p n := by
  rw [divSteps, List.range_succ, List.foldl_append]
  rfl

/-- Each step takes a multiple of the modulus away. -/
theorem fieldElem_divSteps (p : BitVec 255) {n : Nat} (hn : n ≤ 127) : fieldElem (divSteps p n) = fieldElem p := by
  induction n with
  | zero => rfl
  | succ n ih =>
    have hmultiple : fieldElem (modulus <<< (126 - n)) = 0 := by
      rw [fieldElem_shiftLeft _ fun i hi => modulus_above (by omega), fieldElem_modulus, mul_zero]
    rw [divSteps_succ]
    split
    · rw [fieldElem_xor, hmultiple, add_zero, ih (by omega)]
    · exact ih (by omega)

/-- Each step clears its bit and keeps the bits above clear. -/
theorem divSteps_high_zero (p : BitVec 255) {n : Nat} (hn : n ≤ 127) {i : Nat} (hi : 255 ≤ i + n) :
    (divSteps p n).getLsbD i = false := by
  induction n with
  | zero => exact BitVec.getLsbD_of_ge _ _ hi
  | succ n ih =>
    rw [divSteps_succ]
    rcases Nat.eq_or_lt_of_le hi with heq | hlt
    · obtain rfl : i = 254 - n := by omega
      split
      · next hset => rw [BitVec.getLsbD_xor, hset, modulus_shift_top hn, Bool.xor_self]
      · next hclear => exact Bool.eq_false_of_not_eq_true hclear
    · have habove := ih (by omega) (by omega)
      split
      · rw [BitVec.getLsbD_xor, habove, modulus_shift_above hn (by omega), Bool.xor_self]
      · exact habove

theorem fieldElem_gfRedRef (p : BitVec 255) : fieldElem (gfRedRef p) = fieldElem p := by
  rw [gfRedRef_eq_divSteps, fieldElem_low_block _ fun _ hi => divSteps_high_zero p le_rfl (by omega),
    fieldElem_divSteps p le_rfl]

theorem gfRed_eq_gfRedRef (p : BitVec 255) : gfRed p = gfRedRef p :=
  fieldElem_injective ((fieldElem_gfRed p).trans (fieldElem_gfRedRef p).symm)

end Sys2Proof.Machine
end

section
/-! SUPPORT. Bit reversal, the field product, and the right-shift product of the GCM standard (42_ghash.md R166, R172 to
R174). -/

namespace Sys2Proof.Machine

open Polynomial

/-! ### Bit reversal (42 R166) -/

theorem getLsbD_reflectBits_succ (v : Block) {n : Nat} (hn : n < 128) (i : Nat) :
    (reflectBits v (n + 1)).getLsbD i = ((reflectBits v n).getLsbD i || (decide (n = i) && v.getLsbD (127 - n))) := by
  have hbit : ((1 <<< n : Nat) : Block).getLsbD i = decide (n = i) := by
    rw [BitVec.natCast_eq_ofNat, BitVec.getLsbD_ofNat, Nat.one_shiftLeft, Nat.testBit_two_pow]
    by_cases hi : n = i
    · simp [← hi, hn]
    · simp [hi]
  rw [reflectBits]
  split
  · next hset => rw [BitVec.getLsbD_or, hset, hbit, Bool.and_true]
  · next hclear => rw [Bool.eq_false_of_not_eq_true hclear, Bool.and_false, Bool.or_false]

theorem getLsbD_reflectBits (v : Block) {n : Nat} (hn : n ≤ 128) (i : Nat) :
    (reflectBits v n).getLsbD i = (decide (i < n) && v.getLsbD (127 - i)) := by
  induction n with
  | zero => simp [reflectBits]
  | succ n ih =>
    rw [getLsbD_reflectBits_succ v hn, ih (by omega)]
    rcases lt_trichotomy i n with hlt | rfl | hgt
    · simp [hlt, hlt.ne', show i < n + 1 by omega]
    · simp
    · simp [hgt.ne, hgt.not_gt, show ¬ i < n + 1 by omega]

theorem getLsbD_reflect (v : Block) {i : Nat} (hi : i < 128) : (reflect v).getLsbD i = v.getLsbD (127 - i) := by
  rw [reflect, getLsbD_reflectBits v le_rfl, decide_eq_true hi, Bool.true_and]

theorem reflect_reflect (v : Block) : reflect (reflect v) = v := by
  refine BitVec.eq_of_getLsbD_eq fun i hi => ?_
  rw [getLsbD_reflect _ hi, getLsbD_reflect _ (by omega)]
  congr 1
  omega

theorem reflect_xor (x y : Block) : reflect (x ^^^ y) = reflect x ^^^ reflect y := by
  refine BitVec.eq_of_getLsbD_eq fun i hi => ?_
  rw [BitVec.getLsbD_xor, getLsbD_reflect _ hi, getLsbD_reflect _ hi, getLsbD_reflect _ hi, BitVec.getLsbD_xor]

theorem reflect_ushiftRight (v : Block) : reflect (v >>> 1) = reflect v <<< 1 := by
  refine BitVec.eq_of_getLsbD_eq fun i hi => ?_
  rw [getLsbD_reflect _ hi, BitVec.getLsbD_ushiftRight, BitVec.getLsbD_shiftLeft]
  rcases Nat.eq_zero_or_pos i with rfl | hpos
  · simp
  · rw [getLsbD_reflect _ (by omega), show 127 - (i - 1) = 1 + (127 - i) by omega]
    simp [hi, hpos.ne']

/-! ### The field product (42 R172) -/

theorem fieldElem_gfMul (a b : Block) : fieldElem (gfMul a b) = fieldElem a * fieldElem b := by
  rw [gfMul, fieldElem_gfRed, fieldElem, toPoly_clmul, map_mul, fieldElem, fieldElem]

theorem gfMul_zero (a : Block) : gfMul a 0 = 0 :=
  fieldElem_injective (by rw [fieldElem_gfMul, fieldElem_zero, mul_zero])

theorem gfMul_one (a : Block) : gfMul a 1 = a :=
  fieldElem_injective ((fieldElem_gfMul a 1).trans ((congrArg _ fieldElem_one).trans (mul_one _)))

theorem gfMul_comm (a b : Block) : gfMul a b = gfMul b a :=
  fieldElem_injective (by rw [fieldElem_gfMul, fieldElem_gfMul, mul_comm])

theorem gfMul_xor (a b c : Block) : gfMul a (b ^^^ c) = gfMul a b ^^^ gfMul a c :=
  fieldElem_injective (by rw [fieldElem_xor, fieldElem_gfMul, fieldElem_gfMul, fieldElem_gfMul, fieldElem_xor, mul_add])

/-! ### The right-shift product (42 R174) -/

/-- The element a block in block form stands for: its first bit is the coefficient of `x ^ 0` (42 R167). -/
noncomputable def blockElem (v : Block) : AdjoinRoot fieldPoly := fieldElem (reflect v)

theorem blockElem_injective {x y : Block} (h : blockElem x = blockElem y) : x = y := by
  rw [← reflect_reflect x, fieldElem_injective h, reflect_reflect]

theorem blockElem_blockMul (x y : Block) : blockElem (blockMul x y) = blockElem x * blockElem y := by
  rw [blockElem, blockMul, reflect_reflect, fieldElem_gfMul, blockElem, blockElem]

theorem blockElem_zero : blockElem 0 = 0 := by
  have hreflect : reflect 0 = 0 := by decide
  rw [blockElem, hreflect, fieldElem_zero]

theorem blockElem_xor (x y : Block) : blockElem (x ^^^ y) = blockElem x + blockElem y := by
  rw [blockElem, reflect_xor, fieldElem_xor, blockElem, blockElem]

/-- `R` is the block form of what `x ^ 128` is. -/
theorem blockElem_R : blockElem 0xe1000000000000000000000000000000 = fieldLow := by
  have hreflect : reflect 0xe1000000000000000000000000000000
      = 1#128 ^^^ (1#128 <<< 1) ^^^ (1#128 <<< 2) ^^^ (1#128 <<< 7) := by decide
  have hone (i : Nat) (hi : 0 < i) : (1#128).getLsbD i = false := by simp [hi.ne']
  rw [blockElem, hreflect, fieldElem, toPoly_shifts _ fun i hi => hone i (by omega), toPoly_one (by decide), mul_one,
    mk_lowTerms]

/-- Multiplying by `x` shifts a block right; the bit that falls off is the coefficient of `x ^ 128`. -/
theorem fieldX_mul_blockElem (v : Block) :
    fieldX * blockElem v = blockElem (v >>> 1) + if v.getLsbD 0 then fieldLow else 0 := by
  have hpoly : X * toPoly (reflect v) = toPoly (reflect (v >>> 1)) + if v.getLsbD 0 then X ^ 128 else 0 := by
    rw [X_mul_toPoly, reflect_ushiftRight, getLsbD_reflect v (by decide)]
  have helem := congrArg (AdjoinRoot.mk fieldPoly) hpoly
  rw [map_mul, AdjoinRoot.mk_X, map_add, apply_ite (AdjoinRoot.mk fieldPoly), map_zero, mk_X_pow,
    fieldX_pow_128] at helem
  exact helem

/-- One step: `V` is multiplied by `x`. -/
theorem blockElem_shiftStep_snd (x : Block) (zv : Block × Block) (i : Nat) :
    blockElem (shiftStep x zv i).2 = fieldX * blockElem zv.2 := by
  rw [fieldX_mul_blockElem]
  by_cases hbit : zv.2.getLsbD 0 = true
  · have hstep : (shiftStep x zv i).2 = (zv.2 >>> 1) ^^^ 0xe1000000000000000000000000000000 := if_pos hbit
    rw [hstep, blockElem_xor, blockElem_R, if_pos hbit]
  · have hstep : (shiftStep x zv i).2 = zv.2 >>> 1 := if_neg hbit
    rw [hstep, if_neg hbit, add_zero]

/-- One step: `Z` takes `V` where the bit of the first factor is set. -/
theorem blockElem_shiftStep_fst (x : Block) (zv : Block × Block) {i : Nat} (hi : i < 128) :
    blockElem (shiftStep x zv i).1 = blockElem zv.1 + if (reflect x).getLsbD i then blockElem zv.2 else 0 := by
  rw [getLsbD_reflect x hi]
  by_cases hbit : x.getLsbD (127 - i) = true
  · have hstep : (shiftStep x zv i).1 = zv.1 ^^^ zv.2 := if_pos hbit
    rw [hstep, blockElem_xor, if_pos hbit]
  · have hstep : (shiftStep x zv i).1 = zv.1 := if_neg hbit
    rw [hstep, if_neg hbit, add_zero]

/-- After `n` steps `V` is `x ^ n` times the second factor, and `Z` is the second factor times the first `n` bits of the
first. -/
theorem blockElem_shiftSteps (x y : Block) {n : Nat} (hn : n ≤ 128) :
    blockElem ((List.range n).foldl (shiftStep x) (0, y)).2 = fieldX ^ n * blockElem y
      ∧ blockElem ((List.range n).foldl (shiftStep x) (0, y)).1
          = AdjoinRoot.mk fieldPoly (lowPoly (reflect x) n) * blockElem y := by
  induction n with
  | zero =>
    rw [List.range_zero, List.foldl_nil, pow_zero, one_mul, lowPoly_zero, map_zero, zero_mul]
    exact ⟨rfl, blockElem_zero⟩
  | succ n ih =>
    obtain ⟨hV, hZ⟩ := ih (by omega)
    rw [List.range_succ, List.foldl_append, List.foldl_cons, List.foldl_nil]
    refine ⟨?_, ?_⟩
    · rw [blockElem_shiftStep_snd, hV]
      ring
    · rw [blockElem_shiftStep_fst x _ hn, hV, hZ, lowPoly_succ, map_add, apply_ite (AdjoinRoot.mk fieldPoly), mk_X_pow,
        map_zero, add_mul, ite_mul, zero_mul]

theorem blockElem_blockMulRef (x y : Block) : blockElem (blockMulRef x y) = blockElem x * blockElem y :=
  (blockElem_shiftSteps x y le_rfl).2

theorem blockMul_eq_blockMulRef (x y : Block) : blockMul x y = blockMulRef x y :=
  blockElem_injective ((blockElem_blockMul x y).trans (blockElem_blockMulRef x y).symm)

end Sys2Proof.Machine
end

section
/-! SUPPORT. The accumulator: the blocks of a byte string and the length block (42_ghash.md R176 to R181). -/

namespace Sys2Proof.Machine

theorem ghFold_eq (w : Work) (b : Block) : ghFold w b = { w with x := blockMulRef (w.x ^^^ b) w.h } := by
  rw [ghFold, blockMul_eq_blockMulRef]

/-- Folding block after block changes `W.X` alone. -/
theorem foldl_ghFold (f : Nat → Block) (l : List Nat) (w : Work) :
    (l.map f).foldl ghFold w = { w with x := l.foldl (fun x i => blockMulRef (x ^^^ f i) w.h) w.x } := by
  induction l generalizing w with
  | nil => rfl
  | cons i l ih => rw [List.map_cons, List.foldl_cons, ih, ghFold_eq, List.foldl_cons]

/-! ### The padded blocks (42 R178) -/

theorem length_pad16 (S : List Byte) : (pad16 S).length = 16 * ((S.length + 15) / 16) := by
  simp only [pad16, zeros, List.length_append, List.length_replicate]
  omega

/-- The padding reads as the zeros behind the string. -/
theorem byteAt_pad16 (S : List Byte) (i : Nat) : byteAt (pad16 S) i = byteAt S i := by
  by_cases hi : i < S.length
  · exact byteAt_append_left S _ hi
  · have hS : byteAt S i = 0 := List.getD_eq_default S 0 (not_lt.1 hi)
    rw [hS, pad16, byteAt, List.getD_append_right _ _ _ _ (not_lt.1 hi), zeros,
      List.getD_eq_getElem?_getD, List.getElem?_getD_replicate_default_eq]

/-- A slice inside a string, byte by byte. -/
theorem slice_eq_map_byteAt {S : List Byte} {a n : Nat} (h : a + n ≤ S.length) :
    slice S a n = (List.range n).map fun k => byteAt S (a + k) := by
  have hlen : (slice S a n).length = n := by simp only [slice, List.length_take, List.length_drop]; omega
  refine List.ext_getElem (by rw [hlen, List.length_map, List.length_range]) fun k hk _ => ?_
  have hin : a + k < S.length := by omega
  simp [slice, byteAt, hin]

theorem paddedBlocks_eq (S : List Byte) :
    paddedBlocks S = (List.range ((S.length + 15) / 16)).map (blockAt S) := by
  rw [paddedBlocks, length_pad16, Nat.mul_div_cancel_left _ (by decide)]
  refine List.map_congr_left fun i hi => ?_
  have hblock : 16 * i + 16 ≤ (pad16 S).length := by
    rw [length_pad16]
    have := List.mem_range.1 hi
    omega
  simp only [slice_eq_map_byteAt hblock, byteAt_pad16, blockAt]

theorem ghBytes_eq (w : Work) (S : List Byte) : ghBytes w S = { w with x := ghashRef w.h w.x S } := by
  rw [ghBytes, paddedBlocks_eq, foldl_ghFold, ghashRef]

/-! ### The length block (42 R181) -/

/-- Two 64-bit words, the first one's bytes in front. -/
theorem blk_be64_be64 (u v : BitVec 64) : blk (be64 u ++ be64 v) = (u ++ v : BitVec 128) := by
  have hbytes : be64 u ++ be64 v = bytes128 (u ++ v) := by
    have hfront {i : Nat} (hi : 64 ≤ i) : (u ++ v : BitVec 128).extractLsb' i 8 = u.extractLsb' (i - 64) 8 :=
      BitVec.extractLsb'_append_eq_of_le hi
    have hback {i : Nat} (hi : i + 8 ≤ 64) : (u ++ v : BitVec 128).extractLsb' i 8 = v.extractLsb' i 8 :=
      BitVec.extractLsb'_append_eq_of_add_le hi
    simp [bytes128, be64, List.range_succ, hfront, hback]
  rw [hbytes, blk_bytes128]

/-- For byte counts of 32 bits the bit lengths fit their 64-bit fields. -/
theorem lengthBlock_eq_lengthRef (a c : BitVec 32) : lengthBlock a.toNat c.toNat = lengthRef a.toNat c.toNat := by
  have ha : 8 * a.toNat < 2 ^ 64 := by omega
  have hc : 8 * c.toNat < 2 ^ 64 := by omega
  rw [lengthBlock, blk_be64_be64, lengthRef]
  refine BitVec.eq_of_toNat_eq ?_
  rw [BitVec.toNat_append, ← Nat.shiftLeft_add_eq_or_of_lt (BitVec.isLt _), Nat.shiftLeft_eq, BitVec.toNat_ofNat,
    BitVec.toNat_ofNat, BitVec.toNat_ofNat, Nat.mod_eq_of_lt ha, Nat.mod_eq_of_lt hc, Nat.mod_eq_of_lt (by omega)]

end Sys2Proof.Machine
end

section
/-! The statements about the GHASH multiplier and accumulator (42_ghash.md), settled. -/

namespace Sys2Proof.Machine

/-- Settles O28: bit by bit. -/
theorem Ghash.reflectBits : Obligations.ReflectBits :=
  fun s => ⟨reflect s.ports.a, rfl, fun _ hi => getLsbD_reflect _ hi⟩

/-- Settles O29: both are the product of the two polynomials. -/
theorem clmulSchoolbook : Obligations.ClmulSchoolbook := by
  intro s
  rw [← clmul_eq_clmulRef]
  rfl

/-- Settles O30: both reductions keep the field element, and a block is its field element. -/
theorem gfredLongDivision : Obligations.GfredLongDivision := by
  intro s
  rw [← gfRed_eq_gfRedRef]
  rfl

/-- Settles O31: the two references are the model's operations; the laws are those of the field. -/
theorem gfmulFieldProduct : Obligations.GfmulFieldProduct := by
  refine ⟨fun s => ?_, fun a b c => ⟨gfMul_zero a, gfMul_one a, gfMul_comm a b, gfMul_xor a b c⟩⟩
  rw [← clmul_eq_clmulRef, ← gfRed_eq_gfRedRef]
  rfl

/-- Settles O32: both products are the product of the elements that the blocks stand for. -/
theorem ghfoldRightShift : Obligations.GhfoldRightShift := by
  intro s
  rw [← ghFold_eq]
  rfl

/-- Settles O33: the padded blocks are the reference's, folded one by one. -/
theorem ghbytesFold : Obligations.GhbytesFold := by
  intro s
  rw [← ghBytes_eq]
  rfl

/-- Settles O34: the length block is the reference's number, folded as any block. -/
theorem ghlenBlock : Obligations.GhlenBlock := by
  intro s
  rw [← lengthBlock_eq_lengthRef, ← ghFold_eq]
  rfl

end Sys2Proof.Machine
end

section
/-! SUPPORT. Counter blocks, and byte strings as numbers (00_scope.md R13; 43_ctr.md R190, R191, R194, R195). -/

namespace Sys2Proof.Machine

/-! ### Counter blocks (43 R190, R191) -/

theorem toNat_cbRef (y : Block) (i : Nat) :
    (cbRef y i).toNat = y.toNat / 2 ^ 32 * 2 ^ 32 + (y.toNat + i) % 2 ^ 32 := by
  have hy := y.isLt
  rw [cbRef, BitVec.toNat_ofNat]
  exact Nat.mod_eq_of_lt (by omega)

/-- The upper 96 bits stay, the low word wraps by itself. -/
theorem toNat_inc32 (y : Block) :
    (inc32 y).toNat = y.toNat / 2 ^ 32 * 2 ^ 32 + (y.toNat + 1) % 2 ^ 32 := by
  have hy := y.isLt
  have hone : (1 : BitVec 32).toNat = 1 := rfl
  rw [inc32, BitVec.toNat_append, ← Nat.shiftLeft_add_eq_or_of_lt (BitVec.isLt _), Nat.shiftLeft_eq, BitVec.toNat_add,
    BitVec.extractLsb'_toNat, BitVec.extractLsb'_toNat, Nat.shiftRight_eq_div_pow, Nat.shiftRight_eq_div_pow, hone]
  omega

theorem inc32_eq_cbRef (y : Block) : inc32 y = cbRef y 1 :=
  BitVec.eq_of_toNat_eq ((toNat_inc32 y).trans (toNat_cbRef y 1).symm)

theorem cbRef_zero (y : Block) : cbRef y 0 = y := by
  refine BitVec.eq_of_toNat_eq ?_
  rw [toNat_cbRef, Nat.add_zero, Nat.div_add_mod']

theorem cbRef_cbRef (y : Block) (i j : Nat) : cbRef (cbRef y i) j = cbRef y (i + j) := by
  refine BitVec.eq_of_toNat_eq ?_
  rw [toNat_cbRef, toNat_cbRef, toNat_cbRef]
  omega

/-! ### The number a block's bytes spell -/

theorem beNat_concat (B : List Byte) (b : Byte) : beNat (B ++ [b]) = 256 * beNat B + b.toNat := by
  simp only [beNat, List.foldl_append, List.foldl_cons, List.foldl_nil]

theorem shift_or_byte_ofNat (n : Nat) (b : Byte) :
    (BitVec.ofNat 128 n <<< 8) ||| b.setWidth 128 = BitVec.ofNat 128 (256 * n + b.toNat) := by
  have hb : b.toNat < 2 ^ 8 := b.isLt
  have hlow : ((BitVec.ofNat 128 n <<< 8) &&& b.setWidth 128) = 0 := by
    refine BitVec.eq_of_getLsbD_eq fun i hi => ?_
    by_cases h : i < 8
    · simp [h]
    · simp [BitVec.getLsbD_of_ge b i (by omega)]
  refine BitVec.eq_of_toNat_eq ?_
  rw [← BitVec.add_eq_or_of_and_eq_zero _ _ hlow, BitVec.toNat_add, BitVec.toNat_shiftLeft, BitVec.toNat_ofNat,
    BitVec.toNat_ofNat, BitVec.toNat_setWidth, Nat.shiftLeft_eq]
  omega

/-- A block is the number its bytes spell, modulo `2 ^ 128` for a longer string. -/
theorem blk_eq_ofNat (B : List Byte) : blk B = BitVec.ofNat 128 (beNat B) := by
  induction B using List.reverseRecOn with
  | nil => rfl
  | append_singleton B b ih => rw [blk_concat, beNat_concat, ih, shift_or_byte_ofNat]

/-! ### The initial counter block (43 R193 to R195) -/

theorem length_region (B : List Byte) (n : Nat) : (region B n).length = n := by
  simp only [region, zeros, List.length_append, List.length_take, List.length_replicate]
  omega

/-- The IV of 12 bytes stands before a counter of 1. -/
theorem blk_iv_one (iv : List Byte) :
    blk (iv ++ [0x00, 0x00, 0x00, 0x01]) = BitVec.ofNat 128 (beNat iv * 2 ^ 32 + 1) := by
  have hspell : beNat (iv ++ [0x00, 0x00, 0x00, 0x01]) = beNat iv * 2 ^ 32 + 1 := by
    have hzero : (0 : Byte).toNat = 0 := rfl
    have hone : (1 : Byte).toNat = 1 := rfl
    simp only [beNat, List.foldl_append, List.foldl_cons, List.foldl_nil, hzero, hone]
    omega
  rw [blk_eq_ofNat, hspell]

/-- The last block of the IV's hash is the length block of no AAD and the IV. -/
theorem blk_iv_length (n : BitVec 32) :
    blk (zeros 8 ++ be64 (BitVec.ofNat 64 (8 * n.toNat))) = BitVec.ofNat 128 (8 * n.toNat) := by
  calc blk (zeros 8 ++ be64 (BitVec.ofNat 64 (8 * n.toNat)))
    _ = lengthBlock (0 : BitVec 32).toNat n.toNat := rfl
    _ = lengthRef (0 : BitVec 32).toNat n.toNat := lengthBlock_eq_lengthRef 0 n
    _ = BitVec.ofNat 128 (8 * n.toNat) := by simp [lengthRef]

variable {st : Staging} (w : Work)

theorem y0Gen_twelve (h : st.ivlen.toNat = 12) : y0Gen st w = { w with y0 := y0Ref w.h (ivOf st) } := by
  rw [y0Gen, if_pos h, y0Ref, ivOf, length_region, if_pos h, blk_iv_one]

theorem y0Gen_empty (h : st.ivlen.toNat = 0) : y0Gen st w = { w with y0 := Config.y0Empty w.h, x := 0 } := by
  rw [y0Gen, if_neg (by omega), if_pos h]

theorem y0Gen_hashed (h12 : st.ivlen.toNat ≠ 12) (h0 : st.ivlen.toNat ≠ 0) :
    y0Gen st w = { w with y0 := y0Ref w.h (ivOf st), x := 0 } := by
  rw [y0Gen, if_neg h12, if_neg h0, y0Ref, ivOf, length_region, if_neg h12, blk_iv_length]
  simp only [ghBytes_eq, ghFold_eq]

end Sys2Proof.Machine
end

section
/-! SUPPORT. GHASH over a string in two pieces, the first of whole blocks (42_ghash.md R178, 43_ctr.md R199). -/

namespace Sys2Proof.Machine

theorem byteAt_append_right (A B : List Byte) (i : Nat) : byteAt (A ++ B) (A.length + i) = byteAt B i := by
  rw [byteAt, List.getD_append_right _ _ _ _ (Nat.le_add_right _ _), Nat.add_sub_cancel_left, byteAt]

theorem ghashRef_append (h x : Block) {A : List Byte} (B : List Byte) {k : Nat} (hA : A.length = 16 * k) :
    ghashRef h x (A ++ B) = ghashRef h (ghashRef h x A) B := by
  have hcount : ((A ++ B).length + 15) / 16 = k + (B.length + 15) / 16 := by rw [List.length_append, hA]; omega
  have hcountA : (A.length + 15) / 16 = k := by omega
  have hfront (i : Nat) (hi : i < k) : blockAt (A ++ B) i = blockAt A i := by
    refine congrArg blk (List.map_congr_left fun j hj => byteAt_append_left A B ?_)
    have := List.mem_range.1 hj
    omega
  have hback (i : Nat) : blockAt (A ++ B) (k + i) = blockAt B i := by
    refine congrArg blk (List.map_congr_left fun j _ => ?_)
    rw [Nat.mul_add, ← hA, Nat.add_assoc, byteAt_append_right]
  rw [ghashRef, hcount, List.range_add, List.foldl_append, List.foldl_map, ghashRef, ghashRef, hcountA]
  simp only [hback]
  congr 1
  exact List.foldl_ext _ _ _ fun x i hi => by rw [hfront i (List.mem_range.1 hi)]

theorem ghashRef_nil (h x : Block) : ghashRef h x [] = x := rfl

/-- `W.X` after `emit` of the output `o`: on decrypt nothing is folded (43 R199, 46 R277). -/
def emitX (enc : Bool) (h x : Block) (o : List Byte) : Block := if enc then ghashRef h x o else x

theorem emitX_nil (enc : Bool) (h x : Block) : emitX enc h x [] = x := by rw [emitX, ghashRef_nil, ite_self]

theorem emitX_append (enc : Bool) (h x : Block) {A : List Byte} (B : List Byte) {k : Nat} (hA : A.length = 16 * k) :
    emitX enc h (emitX enc h x A) B = emitX enc h x (A ++ B) := by
  cases enc with
  | false => simp only [emitX, Bool.false_eq_true, if_false]
  | true => simp only [emitX, if_true, ghashRef_append h x B hA]

theorem paddedBlocks_block {o : List Byte} (hpos : 1 ≤ o.length) (hle : o.length ≤ 16) :
    paddedBlocks o = [blk (pad16 o)] := by
  have hcount : (o.length + 15) / 16 = 1 := by omega
  have hlen : (pad16 o).length = 16 := by rw [length_pad16, hcount]
  have hslice : slice (pad16 o) 0 16 = pad16 o := by rw [slice, List.drop_zero, List.take_of_length_le hlen.le]
  rw [paddedBlocks, hlen, Nat.div_self (by decide), List.range_one, List.map_singleton, Nat.mul_zero, hslice]

/-- A block, whole or partial, is folded as its own string. -/
theorem emit_eq_emitX (enc : Bool) (w : Work) {o : List Byte} (hpos : 1 ≤ o.length) (hle : o.length ≤ 16) :
    emit enc w o = { w with x := emitX enc w.h w.x o } := by
  have hfold : ghFold w (blk (pad16 o)) = { w with x := ghashRef w.h w.x o } := by
    calc ghFold w (blk (pad16 o))
      _ = (paddedBlocks o).foldl ghFold w := by rw [paddedBlocks_block hpos hle, List.foldl_cons, List.foldl_nil]
      _ = ghBytes w o := by rw [ghBytes]
      _ = _ := ghBytes_eq w o
  cases enc with
  | false => simp only [emit, emitX, Bool.false_eq_true, if_false]
  | true => simp only [emit, emitX, if_true, hfold]

end Sys2Proof.Machine
end

section
/-! SUPPORT. The keystream generator: what each iteration of CTRXOR does, and the whole loop (43_ctr.md R198 to R200,
46_gcm_engine.md R277). -/

namespace Sys2Proof.Machine

/-! ### The counter-mode equation in two pieces (43 R200) -/

theorem length_ctrWith (E : Block → Block) (y : Block) (D : List Byte) : (ctrWith E y D).length = D.length := by
  rw [ctrWith, List.length_map, List.length_range]

theorem ctrWith_nil (E : Block → Block) (y : Block) : ctrWith E y [] = [] := rfl

/-- After `k` whole blocks the counter has gone on by `k`. -/
theorem ctrWith_append (E : Block → Block) (y : Block) {A : List Byte} (B : List Byte) {k : Nat}
    (hA : A.length = 16 * k) : ctrWith E y (A ++ B) = ctrWith E y A ++ ctrWith E (cbRef y k) B := by
  simp only [ctrWith, List.length_append, List.range_add, List.map_append, List.map_map]
  refine congrArg₂ _ (List.map_congr_left fun i hi => ?_) (List.map_congr_left fun i _ => ?_)
  · rw [byteAt_append_left A B (List.mem_range.1 hi)]
  · have hblock : (A.length + i) / 16 + 1 = k + (i / 16 + 1) := by omega
    have hplace : (A.length + i) % 16 = i % 16 := by omega
    rw [Function.comp_apply, byteAt_append_right, hblock, hplace, cbRef_cbRef]

/-- Up to a block, the keystream is the next counter's, cut to the length (43 R198). -/
theorem xorBytes_keystream (E : Block → Block) (y : Block) {D : List Byte} (h : D.length ≤ 16) :
    xorBytes D (bytes128 (E (cbRef y 1))) = ctrWith E y D := by
  have hlen : (xorBytes D (bytes128 (E (cbRef y 1)))).length = D.length := by
    rw [xorBytes, List.length_zipWith, bytes128_length, Nat.min_eq_left h]
  refine List.ext_getElem (hlen.trans (length_ctrWith E y D).symm) fun i hi _ => ?_
  rw [hlen] at hi
  have hkey : i < (bytes128 (E (cbRef y 1))).length := by rw [bytes128_length]; omega
  simp only [xorBytes, ctrWith, List.getElem_zipWith, List.getElem_map, List.getElem_range,
    Nat.div_eq_of_lt (hi.trans_le h), Nat.mod_eq_of_lt (hi.trans_le h), byteAt, List.getD_eq_getElem _ _ hi,
    List.getD_eq_getElem _ _ hkey]

/-! ### The registers -/

/-- What a keystream register holds after `four` four-lane iterations: the key of the block that stands `back` blocks
before the last one they took, or what it held. -/
def laneKey (key : Nat → Block) (four back : Nat) (old : Block) : Block :=
  if 0 < four then key (4 * four - back) else old

/-- `W` after the payload `D` from the counter in `W.Y` on: four lanes at a time, then single blocks (43 R198). -/
def ctrAfter (E : Block → Block) (enc : Bool) (w : Work) (D : List Byte) : Work :=
  let key := fun i => E (cbRef w.y i)
  let four := D.length / 64
  let blocks := (D.length + 15) / 16
  { w with
      x := emitX enc w.h w.x (ctrWith E w.y D),
      y := cbRef w.y blocks,
      ks0 := if 4 * four < blocks then key blocks else laneKey key four 3 w.ks0,
      ks1 := laneKey key four 2 w.ks1,
      ks2 := laneKey key four 1 w.ks2,
      ks3 := laneKey key four 0 w.ks3 }

/-- Four blocks further on, every lane's block is `4` further on too. -/
theorem laneKey_succ (key : Nat → Block) (four : Nat) {back : Nat} (h : back ≤ 4) (old : Block) :
    laneKey (fun i => key (4 + i)) four back (key (4 - back)) = laneKey key (1 + four) back old := by
  rw [laneKey, laneKey, if_pos (show 0 < 1 + four by omega)]
  split <;> congr 1 <;> omega

variable (E : Block → Block) (enc : Bool) (w : Work)

theorem ctrAfter_nil : ctrAfter E enc w [] = w := by
  simp only [ctrAfter, ctrWith_nil, List.length_nil, emitX_nil, laneKey, Nat.zero_div,
    Nat.zero_add, Nat.reduceDiv, cbRef_zero, Nat.mul_zero, lt_irrefl, if_false]

/-- `k` whole blocks use `k` counters. -/
theorem ctrAfter_y {A : List Byte} {k : Nat} (hA : A.length = 16 * k) : (ctrAfter E enc w A).y = cbRef w.y k := by
  have hblocks : (A.length + 15) / 16 = k := by omega
  simp only [ctrAfter, hblocks]

/-- An iteration of four lanes, then the rest. -/
theorem ctrAfter_four {A : List Byte} (B : List Byte) (hA : A.length = 16 * 4) :
    ctrAfter E enc (ctrAfter E enc w A) B = ctrAfter E enc w (A ++ B) := by
  have hlen : (ctrWith E w.y A).length = 16 * 4 := by rw [length_ctrWith, hA]
  have hfour : (A ++ B).length / 64 = 1 + B.length / 64 := by rw [List.length_append]; omega
  have hblocks : ((A ++ B).length + 15) / 16 = 4 + (B.length + 15) / 16 := by rw [List.length_append]; omega
  have hsingle : 4 * (1 + B.length / 64) < 4 + (B.length + 15) / 16 ↔ 4 * (B.length / 64) < (B.length + 15) / 16 := by
    omega
  have hlane (back : Nat) (hback : back ≤ 4) (old : Block) :=
    laneKey_succ (fun i => E (cbRef w.y i)) (B.length / 64) hback old
  have hone (back : Nat) (old : Block) :
      laneKey (fun i => E (cbRef w.y i)) 1 back old = E (cbRef w.y (4 - back)) := if_pos Nat.one_pos
  simp only [ctrAfter, hA, hfour, hblocks, hsingle, cbRef_cbRef, emitX_append enc w.h w.x _ hlen,
    ctrWith_append E w.y B hA, hone, Nat.reduceDiv, Nat.reduceMul, Nat.reduceAdd, lt_irrefl, if_false]
  rw [hlane 3 (by decide) w.ks0, hlane 2 (by decide) w.ks1, hlane 1 (by decide) w.ks2, hlane 0 (by decide) w.ks3]

/-- A single block, then fewer than four. -/
theorem ctrAfter_one {A : List Byte} (B : List Byte) (hA : A.length = 16 * 1) (hB : B.length < 48) :
    ctrAfter E enc (ctrAfter E enc w A) B = ctrAfter E enc w (A ++ B) := by
  have hlen : (ctrWith E w.y A).length = 16 * 1 := by rw [length_ctrWith, hA]
  have hfour : (A ++ B).length / 64 = 0 := by rw [List.length_append]; omega
  have hfourB : B.length / 64 = 0 := by omega
  have hblocks : ((A ++ B).length + 15) / 16 = 1 + (B.length + 15) / 16 := by rw [List.length_append]; omega
  have hnone (key : Nat → Block) (back : Nat) (old : Block) : laneKey key 0 back old = old := if_neg (lt_irrefl 0)
  have hsingle : 0 < 1 + (B.length + 15) / 16 := by omega
  have hks0 : (if 0 < (B.length + 15) / 16 then E (cbRef w.y (1 + (B.length + 15) / 16)) else E (cbRef w.y 1))
      = E (cbRef w.y (1 + (B.length + 15) / 16)) := by
    rcases Nat.eq_zero_or_pos ((B.length + 15) / 16) with hzero | hpos
    · rw [hzero, if_neg (lt_irrefl 0)]
    · rw [if_pos hpos]
  simp only [ctrAfter, hA, hfour, hfourB, hblocks, hsingle, cbRef_cbRef, emitX_append enc w.h w.x _ hlen,
    ctrWith_append E w.y B hA, hnone, hks0, Nat.reduceDiv, Nat.reduceMul, Nat.reduceAdd, Nat.one_pos, if_true]

/-- Four whole blocks: every lane's register takes the key of its block. -/
theorem ctrAfter_lanes {A : List Byte} (hA : A.length = 64) :
    ctrAfter E enc w A
      = setKeystream (mapLanes E ⟨cbRef w.y 1, cbRef w.y 2, cbRef w.y 3, cbRef w.y 4⟩)
          { w with x := emitX enc w.h w.x (ctrWith E w.y A), y := cbRef w.y 4 } := by
  simp only [ctrAfter, hA, laneKey, setKeystream, mapLanes, Nat.reduceDiv, Nat.reduceMul, Nat.reduceAdd,
    Nat.reduceSub, lt_irrefl, Nat.one_pos, if_true, if_false]

/-! ### The iterations (43 R198) -/

theorem ctrOne_eq (ek : Schedule) (nr : BitVec 4) {d : List Byte} (h : 1 ≤ d.length) :
    ctrOne ek nr enc w d
      = (ctrAfter (aesBlk ek nr) enc w (d.take 16), ctrWith (aesBlk ek nr) w.y (d.take 16)) := by
  have hpos : 1 ≤ (d.take 16).length := by rw [List.length_take]; omega
  have hle : (d.take 16).length ≤ 16 := List.length_take_le 16 d
  have hfour : (d.take 16).length / 64 = 0 := by omega
  have hblocks : ((d.take 16).length + 15) / 16 = 1 := by omega
  have hout := length_ctrWith (aesBlk ek nr) w.y (d.take 16)
  simp only [ctrOne, slice, List.drop_zero, inc32_eq_cbRef, xorBytes_keystream (aesBlk ek nr) w.y hle]
  rw [emit_eq_emitX enc _ (by omega) (by omega)]
  simp only [ctrAfter, hfour, hblocks, laneKey, Nat.mul_zero, Nat.one_pos, lt_irrefl, if_true, if_false]

theorem take_four_blocks (d : List Byte) :
    d.take 64 = slice d 0 16 ++ (slice d 16 16 ++ (slice d 32 16 ++ slice d 48 16)) := by
  calc d.take 64 = d.take (16 + (16 + (16 + 16))) := rfl
    _ = _ := by rw [List.take_add, List.take_add, List.take_add, List.drop_drop, List.drop_drop]; rfl

/-- The output of the whole block `k` of the payload `d`, counted from the counter `y`. -/
def outputBlock (E : Block → Block) (y : Block) (d : List Byte) (k : Nat) : List Byte :=
  ctrWith E (cbRef y k) (slice d (16 * k) 16)

section
variable (y : Block) {d : List Byte} {k : Nat} (h : 16 * k + 16 ≤ d.length)
include h

theorem length_slice_block : (slice d (16 * k) 16).length = 16 * 1 := by
  simp only [slice, List.length_take, List.length_drop]
  omega

theorem length_outputBlock : (outputBlock E y d k).length = 16 * 1 := by
  rw [outputBlock, length_ctrWith, length_slice_block h]

theorem xorBytes_lane : xorBytes (slice d (16 * k) 16) (bytes128 (E (cbRef y (k + 1)))) = outputBlock E y d k := by
  rw [← cbRef_cbRef, xorBytes_keystream _ _ (length_slice_block h).le, outputBlock]

theorem emit_outputBlock :
    emit enc w (outputBlock E y d k) = { w with x := emitX enc w.h w.x (outputBlock E y d k) } := by
  have hlen := length_outputBlock E y h
  exact emit_eq_emitX enc w (by omega) (by omega)

end

/-- The output of four lanes is that of their blocks. -/
theorem ctrWith_take_four (y : Block) {d : List Byte} (h : 64 ≤ d.length) :
    ctrWith E y (d.take 64)
      = outputBlock E y d 0 ++ (outputBlock E y d 1 ++ (outputBlock E y d 2 ++ outputBlock E y d 3)) := by
  have hlen (k : Nat) (hk : k ≤ 3) := length_slice_block (d := d) (k := k) (by omega)
  have hout (k : Nat) : ctrWith E (cbRef y k) (slice d (16 * k) 16) = outputBlock E y d k := rfl
  rw [take_four_blocks, ctrWith_append _ _ _ (hlen 0 (by decide)), ctrWith_append _ _ _ (hlen 1 (by decide)),
    ctrWith_append _ _ _ (hlen 2 (by decide)), cbRef_cbRef, cbRef_cbRef, ← hout 0, cbRef_zero]
  rfl

theorem ctrFour_eq (ek : Schedule) (nr : BitVec 4) {d : List Byte} (h : 64 ≤ d.length) :
    ctrFour ek nr enc w d
      = (ctrAfter (aesBlk ek nr) enc w (d.take 64), ctrWith (aesBlk ek nr) w.y (d.take 64)) := by
  have hinside (k : Nat) (hk : k ≤ 3) : 16 * k + 16 ≤ d.length := by omega
  have hlen (k : Nat) (hk : k ≤ 3) := length_outputBlock (aesBlk ek nr) w.y (hinside k hk)
  have hlane (k : Nat) (hk : k ≤ 3) := xorBytes_lane (aesBlk ek nr) w.y (hinside k hk)
  have hemit (v : Work) (k : Nat) (hk : k ≤ 3) := emit_outputBlock (aesBlk ek nr) enc v w.y (hinside k hk)
  have htake : (d.take 64).length = 64 := by rw [List.length_take]; omega
  rw [ctrAfter_lanes _ _ _ htake, ctrWith_take_four _ _ h, ← emitX_append _ _ _ _ (hlen 0 (by decide)),
    ← emitX_append _ _ _ _ (hlen 1 (by decide)), ← emitX_append _ _ _ _ (hlen 2 (by decide))]
  simp only [ctrFour, aesBlk4_eq_mapLanes, mapLanes, setKeystream, inc32_eq_cbRef, cbRef_cbRef, Nat.reduceAdd]
  rw [hlane 0 (by decide), hlane 1 (by decide), hlane 2 (by decide), hlane 3 (by decide)]
  simp only [hemit _ 0 (by decide), hemit _ 1 (by decide), hemit _ 2 (by decide), hemit _ 3 (by decide),
    List.append_assoc]

/-! ### The loop -/

theorem ctrLoop_nil (ek : Schedule) (nr : BitVec 4) (fuel : Nat) (o : List Byte) :
    ctrLoop ek nr enc fuel w [] o = (w, o) := by
  cases fuel with
  | zero => rfl
  | succ fuel => rfl

/-- One unit of fuel for each block suffices; `o` is the output so far. -/
theorem ctrLoop_eq (ek : Schedule) (nr : BitVec 4) (fuel : Nat) (d o : List Byte)
    (hfuel : (d.length + 15) / 16 ≤ fuel) :
    ctrLoop ek nr enc fuel w d o = (ctrAfter (aesBlk ek nr) enc w d, o ++ ctrWith (aesBlk ek nr) w.y d) := by
  induction fuel generalizing w d o with
  | zero =>
    have hnil : d = [] := List.eq_nil_of_length_eq_zero (by omega)
    rw [hnil, ctrLoop_nil, ctrAfter_nil, ctrWith_nil, List.append_nil]
  | succ fuel ih =>
    rw [ctrLoop]
    by_cases hfour : 64 ≤ d.length
    · have htake : (d.take 64).length = 16 * 4 := by rw [List.length_take]; omega
      have hy := ctrAfter_y (aesBlk ek nr) enc w (k := 4) htake
      rw [if_pos hfour, ctrFour_eq enc w ek nr hfour, ih _ _ _ (by rw [List.length_drop]; omega),
        ctrAfter_four _ _ _ _ htake, List.append_assoc, hy, ← ctrWith_append _ _ _ htake, List.take_append_drop]
    · rw [if_neg hfour]
      by_cases hone : 1 ≤ d.length
      · rw [if_pos hone, ctrOne_eq enc w ek nr hone]
        by_cases hwhole : 16 ≤ d.length
        · have htake : (d.take 16).length = 16 * 1 := by rw [List.length_take]; omega
          have hy := ctrAfter_y (aesBlk ek nr) enc w (k := 1) htake
          rw [ih _ _ _ (by rw [List.length_drop]; omega), ctrAfter_one _ _ _ _ htake (by rw [List.length_drop]; omega),
            List.append_assoc, hy, ← ctrWith_append _ _ _ htake, List.take_append_drop]
        · have hlast : d.length ≤ 16 := by omega
          rw [List.take_of_length_le hlast, List.drop_of_length_le hlast, ctrLoop_nil]
      · have hnil : d = [] := List.eq_nil_of_length_eq_zero (by omega)
        rw [if_neg hone, hnil, ctrAfter_nil, ctrWith_nil, List.append_nil]

/-- CTRXOR starts from `Y0`. -/
theorem ctrXor_eq (ek : Schedule) (nr : BitVec 4) (d : List Byte) :
    ctrXor ek nr enc w d
      = (ctrAfter (aesBlk ek nr) enc { w with y := w.y0 } d, ctrWith (aesBlk ek nr) w.y0 d) := by
  rw [ctrXor, ctrLoop_eq _ _ _ _ _ _ _ (by omega), List.nil_append]

end Sys2Proof.Machine
end

section
/-! The statements about the counter-mode keystream generator (43_ctr.md), settled. -/

namespace Sys2Proof.Machine

/-- Settles O35: the upper 96 bits as they were, the low word with its carry dropped. -/
theorem inc32Counter : Obligations.Inc32Counter := fun s => ⟨inc32 s.ports.a, rfl, toNat_inc32 s.ports.a⟩

/-- Y0GEN works on W alone (43 R193). -/
theorem exec_y0gen (s : State) : exec .y0gen s = .next { s with work := y0Gen s.stage s.work } := rfl

/-- Settles O36: by the length of the IV. -/
theorem y0genIv : Obligations.Y0genIv := by
  refine fun s => ⟨fun h12 => ?_, fun h12 h0 => ?_, fun h0 => ⟨Config.y0Empty s.work.h, ?_⟩⟩
  · rw [exec_y0gen, y0Gen_twelve _ h12]
  · rw [exec_y0gen, y0Gen_hashed _ h12 h0]
  · rw [exec_y0gen, y0Gen_empty _ h0]

/-- CTRXOR leaves the registers in W and the output in S.O (43 R198, R199, log 20). -/
theorem exec_ctrxor (s : State) :
    exec .ctrxor s
      = .next { s with
                  work := ctrAfter (aesBlk (sessionOf s).ek (sessionOf s).rounds) (isEncrypt (encOf s))
                            { s.work with y := s.work.y0 } (payloadOf s.stage)
                  stage := { s.stage with
                               o := ctrWith (aesBlk (sessionOf s).ek (sessionOf s).rounds) s.work.y0
                                      (payloadOf s.stage) } } := by
  calc exec .ctrxor s = execCtrxor s := rfl
    _ = _ := by simp only [execCtrxor, ctrXorStage, ctrXor_eq, sessionOf]

/-- Settles O37: the payload's length is `dlen`, and `E` is what AESBLK gives, whatever the round count. -/
theorem ctrxorKeystream : Obligations.CtrxorKeystream := by
  intro s
  have hlen : (payloadOf s.stage).length = s.stage.dlen.toNat := length_region _ _
  refine ⟨aesBlk (sessionOf s).ek (sessionOf s).rounds, fun x => exec_aesblk _,
    fun hlegal => aesBlk_eq_ref _ hlegal, ?_, ?_⟩
  · rw [length_ctrWith, hlen]
  · rw [exec_ctrxor]
    simp only [ctrAfter, hlen, emitX, laneKey, Nat.sub_zero]

end Sys2Proof.Machine
end

section
/-! SUPPORT. Which accesses to the buffer go unanswered, and what STAGEIN answers (20_memory.md R62 to R64; 44_staging_iv.md
R212, R213). -/

namespace Sys2Proof.Machine

/-- The action meets an access that the bus does not answer (20 R62, R64). -/
def Act.Unanswered {α : Type} (x : Act α) : Prop := x = .refuse .addressPastEnd ∨ x = .refuse .hostAccessFailed

/-- Nothing after an unanswered access runs. -/
theorem Act.Unanswered.bind {α β : Type} {x : Act α} (h : x.Unanswered) (f : α → Act β) : (x.bind f).Unanswered :=
  bind_refusesAccess h

variable {s : State}

theorem bufRead_answers {off n : Nat} (h : bufOk s off n = true) : bufRead s off n = .ok (bufAt s off n) :=
  memRead_answers h

theorem bufRead_unanswered {off n : Nat} (h : bufOk s off n = false) : (bufRead s off n).Unanswered := memRead_refuses h

theorem bufWrite_answers {off : Nat} {B : List Byte} (h : bufOk s off B.length = true) :
    bufWrite s off B = .ok { s with mem := writeBytes s.mem (s.regs.bufPtr.toNat + off) B } := memWrite_answers h

theorem bufWrite_unanswered {off : Nat} {B : List Byte} (h : bufOk s off B.length = false) :
    (bufWrite s off B).Unanswered := memWrite_refuses h

/-! ### STAGEIN -/

/-- What STAGEIN leaves where both regions fit and answer (44 R212). -/
def staged (s : State) : State :=
  { s with
      stage := { s.stage with
                   d := bufAt s (encOf s).offset.toNat (encOf s).length.toNat, dlen := (encOf s).length,
                   a := bufAt s (authOf s).offset.toNat (authOf s).length.toNat, alen := (authOf s).length },
      phase := .deriveIv }

theorem stageIn_exhausts (h : ¬StagingFits s (encOf s) (authOf s)) : stageIn s = .raise .resourceExhausted s :=
  if_pos (by unfold StagingFits at h; omega)

/-- Where both lengths fit, STAGEIN is its two reads (44 R213). -/
theorem stageIn_fits (h : StagingFits s (encOf s) (authOf s)) :
    stageIn s
      = (bufRead s (encOf s).offset.toNat (encOf s).length.toNat).bind fun d =>
        (bufRead s (authOf s).offset.toNat (authOf s).length.toNat).bind fun a =>
        .ok { s with
                stage := { s.stage with d := d, dlen := (encOf s).length, a := a, alen := (authOf s).length },
                phase := .deriveIv } :=
  if_neg (by unfold StagingFits at h; omega)

theorem stageIn_answers (hfit : StagingFits s (encOf s) (authOf s)) (hok : StagedOk s (encOf s) (authOf s)) :
    stageIn s = .ok (staged s) := by
  obtain ⟨hd, ha⟩ := hok
  rw [stageIn_fits hfit, bufRead_answers hd, bind_ok, bufRead_answers ha, bind_ok, staged]

theorem stageIn_unanswered (hfit : StagingFits s (encOf s) (authOf s)) (hno : ¬StagedOk s (encOf s) (authOf s)) :
    (stageIn s).Unanswered := by
  rw [stageIn_fits hfit]
  cases hd : bufOk s (encOf s).offset.toNat (encOf s).length.toNat with
  | false => exact (bufRead_unanswered hd).bind _
  | true =>
    have ha : bufOk s (authOf s).offset.toNat (authOf s).length.toNat = false :=
      eq_false_of_ne_true fun ha => hno ⟨hd, ha⟩
    rw [bufRead_answers hd, bind_ok]
    exact (bufRead_unanswered ha).bind _

end Sys2Proof.Machine
end

section
/-! SUPPORT. What CTRFAI and IVDERIVE answer, source by source (44_staging_iv.md R218 to R222; 45_session.md R262, R263). -/

namespace Sys2Proof.Machine

variable {s : State} {j : BitVec 32}

/-! ### The counter -/

/-- The session counter of slot `j` counted (45 R262). -/
def counted (j : BitVec 32) (s : State) : State :=
  putSlot j { getSlot s j with counter := (getSlot s j).counter + 1 } s

theorem counter_eq_allOnes_iff (c : BitVec 64) : c = BitVec.allOnes 64 ↔ c.toNat = 2 ^ 64 - 1 := by
  rw [BitVec.toNat_eq, BitVec.toNat_allOnes]

theorem ctrFai_answers (h : (getSlot s j).counter.toNat ≠ 2 ^ 64 - 1) :
    ctrFai j s = .ok ((getSlot s j).counter, counted j s) :=
  if_neg fun hc => h ((counter_eq_allOnes_iff _).1 hc)

theorem ctrFai_exhausted (h : (getSlot s j).counter.toNat = 2 ^ 64 - 1) : ctrFai j s = .refuse .counterExhausted :=
  if_pos ((counter_eq_allOnes_iff _).2 h)

theorem counter_succ_toNat {c : BitVec 64} (h : c.toNat ≠ 2 ^ 64 - 1) : (c + 1).toNat = c.toNat + 1 := by
  bv_omega

/-- Counting leaves the nonce (45 R262). -/
theorem counted_nonce (hw : slotsWf s.slots = true) : (getSlot (counted j s) j).nonce = (getSlot s j).nonce := by
  rw [counted, getSlot_putSlot_same hw]

/-! ### The three sources -/

theorem ivDerive_explicit (hx : ivExplicit (encOf s) = true) :
    ivDerive j s = .ok (setIv (explicitIv (encOf s).iv (encOf s).ivlen.toNat) (encOf s).ivlen s) := if_pos hx

theorem ivDerive_generated (hg : ivGenerated (encOf s) = true) :
    ivDerive j s
      = (ctrFai j s).bind fun r =>
        (bufWrite r.2 (encOf s).inject.toNat (be32 (getSlot r.2 j).nonce ++ be64 r.1)).bind fun u =>
        .ok (setIv (be32 (getSlot r.2 j).nonce ++ be64 r.1) 12 u) := by
  obtain ⟨hx, henc⟩ := (ivGenerated_iff _).1 hg
  exact (if_neg (by simp [hx])).trans (if_pos henc)

theorem ivDerive_buffer (hx : ivExplicit (encOf s) = false) (hg : ivGenerated (encOf s) = false) :
    ivDerive j s
      = (bufRead s (encOf s).inject.toNat (encOf s).ivlen.toNat).bind fun iv => .ok (setIv iv (encOf s).ivlen s) := by
  have henc : ¬(isEncrypt (encOf s) && !ivPresent (encOf s)) = true := fun henc => by
    rw [(ivGenerated_iff _).2 ⟨hx, henc⟩] at hg; cases hg
  exact (if_neg (by simp [hx])).trans (if_neg henc)

/-- The first sixteen bytes of an explicit IV are those of the descriptor (44 R219). -/
theorem explicitIv_within (iv : Block) {n : Nat} (h : n ≤ 16) : explicitIv iv n = (bytes128 iv).take n := by
  rw [explicitIv, Nat.sub_eq_zero_of_le h, List.range_zero, List.map_nil, List.append_nil]

/-! ### What IVDERIVE answers -/

/-- A generated IV is twelve bytes long (44 R222). -/
theorem length_nonce_counter (v : BitVec 32) (c : BitVec 64) : (be32 v ++ be64 c).length = 12 := rfl

theorem ivDerive_exhausted (hg : ivGenerated (encOf s) = true) (hc : (getSlot s j).counter.toNat = 2 ^ 64 - 1) :
    ivDerive j s = .refuse .counterExhausted := by
  rw [ivDerive_generated hg, ctrFai_exhausted hc, bind_refuse]

theorem ivDerive_generates (hg : ivGenerated (encOf s) = true) (hc : (getSlot s j).counter.toNat ≠ 2 ^ 64 - 1)
    (hok : bufOk s (encOf s).inject.toNat 12 = true) :
    ivDerive j s
      = .ok (setIv (be32 (getSlot (counted j s) j).nonce ++ be64 (getSlot s j).counter) 12
          { counted j s with
              mem := writeBytes s.mem (bufAddr s (encOf s).inject)
                       (be32 (getSlot (counted j s) j).nonce ++ be64 (getSlot s j).counter) }) := by
  rw [ivDerive_generated hg, ctrFai_answers hc, bind_ok, bufWrite_answers hok, bind_ok]
  rfl

theorem ivDerive_reads (hx : ivExplicit (encOf s) = false) (hg : ivGenerated (encOf s) = false)
    (hok : bufOk s (encOf s).inject.toNat (encOf s).ivlen.toNat = true) :
    ivDerive j s = .ok (setIv (bufAt s (encOf s).inject.toNat (encOf s).ivlen.toNat) (encOf s).ivlen s) := by
  rw [ivDerive_buffer hx hg, bufRead_answers hok, bind_ok]

/-- An IV that goes to or comes from the buffer, in a region the bus does not answer. -/
theorem ivDerive_unanswered (hx : ivExplicit (encOf s) = false)
    (hc : ivGenerated (encOf s) = true → (getSlot s j).counter.toNat ≠ 2 ^ 64 - 1)
    (hno : bufOk s (encOf s).inject.toNat (ivBufferLength (encOf s)) = false) : (ivDerive j s).Unanswered := by
  cases hg : ivGenerated (encOf s) with
  | true =>
    rw [ivBufferLength, if_pos hg] at hno
    rw [ivDerive_generated hg, ctrFai_answers (hc hg), bind_ok]
    refine (bufWrite_unanswered ?_).bind _
    exact hno
  | false =>
    rw [ivBufferLength, hg] at hno
    rw [ivDerive_buffer hx hg]
    exact (bufRead_unanswered hno).bind _

end Sys2Proof.Machine
end

section
/-! The statements about staging and the IV manager (44_staging_iv.md), settled. -/

namespace Sys2Proof.Machine

/-- Settles O49: both lengths are checked, then both regions are read. -/
theorem stageinCopies : Obligations.StageinCopies := by
  intro s enc auth
  have hexec : exec .stagein s = settle .process (stageIn s) := rfl
  refine ⟨fun hfit hd ha => ?_, fun hlong => ?_, fun hfit hno => ?_⟩
  · rw [hexec, stageIn_answers hfit ⟨hd, ha⟩]; rfl
  · rw [hexec, stageIn_exhausts hlong]; rfl
  · refine settle_refusesAccess _ (stageIn_unanswered hfit fun ⟨hd, ha⟩ => ?_)
    rcases hno with hno | hno
    · exact absurd hd (by simp [enc, hno])
    · exact absurd ha (by simp [auth, hno])

/-- Settles O50: the source is chosen by the flags; a generated IV counts in the session's slot, then is stored. -/
theorem ivderiveSources : Obligations.IvderiveSources := by
  intro s ⟨hmem, hslots⟩ enc
  have hexec : exec .ivderive s = settle .process (ivDerive s.regs.sid s) := rfl
  refine ⟨fun hx => ?_, fun hx hgiven hok => ?_, fun hg hc hok => ?_, fun hg hc => ?_, fun hg hc hno => ?_,
    fun hx hg hno => ?_⟩
  · refine ⟨explicitIv enc.iv enc.ivlen.toNat, ?_, explicitIv_within enc.iv⟩
    rw [hexec, ivDerive_explicit hx]; rfl
  · have hg : ivGenerated enc = false := by rcases hgiven with h | h <;> simp [ivGenerated, h]
    rw [hexec, ivDerive_reads hx hg hok]; rfl
  · have hiv : be32 (getSlot (counted s.regs.sid s) s.regs.sid).nonce ++ be64 (getSlot s s.regs.sid).counter
        = generatedIv s := by rw [counted_nonce hslots]; rfl
    have hanswer := ivDerive_generates (j := s.regs.sid) hg hc hok
    rw [hiv] at hanswer
    refine ⟨_, (sessionOf s).counter + 1, hexec.trans (congrArg (settle .process) hanswer), rfl, ?_,
      counter_succ_toNat hc, ?_⟩
    · exact byteOf_writeBytes hmem hok
    · exact slotOf_putSlot hslots _ _
  · rw [hexec, ivDerive_exhausted hg hc]; rfl
  · have hx := ((ivGenerated_iff _).1 hg).1
    have hlen : ivBufferLength enc = 12 := if_pos hg
    exact settle_refusesAccess _ (ivDerive_unanswered hx (fun _ => hc) (by rw [hlen]; exact hno))
  · have hlen : ivBufferLength enc = enc.ivlen.toNat := if_neg (by simp [hg])
    exact settle_refusesAccess _
      (ivDerive_unanswered hx (fun h => absurd h (by simp [enc, hg])) (by rw [hlen]; exact hno))

end Sys2Proof.Machine
end

section
/-! SUPPORT. What validation answers on a GCM chain and on a CBC or XTS chain (47_process.md R302 to R316). -/

namespace Sys2Proof.Machine

variable {s : State} {n : Nat} {enc auth : DEntry}

/-- The sub-descriptors of the chain of `n` entries in memory (20 R78). -/
def chainEntries (n : Nat) (s : State) : List DEntry := (chainAt s 64 n).map decodeD

/-- PROCESS after the chain fetch (47 R302). -/
def fetched (n : Nat) (s : State) : State :=
  { s with chain := { s.chain with n := BitVec.ofNat 8 n, entries := chainAt s 64 n }, phase := .validate }

theorem fetchChain_process (h : chainOk s 64 n = true) : fetchChain 64 n (setPhase .validate s) = .ok (fetched n s) :=
  fetchChain_answers (s := setPhase .validate s) h

/-- PROCESS after a successful validation of a GCM operation (47 R313). -/
def validated (n : Nat) (s : State) : State :=
  { s with
      chain := { n := BitVec.ofNat 8 n, entries := chainAt s 64 n, enc := BitVec.ofNat 8 (encIndex (chainEntries n s)),
                 auth := BitVec.ofNat 8 (authIndex (chainEntries n s)) },
      phase := .stage }

theorem validate_gcm (hpass : checksPass (fetched n s) = true) (htag : (sessionOf s).tag = .gcm) :
    validate (fetched n s) = .ok (validated n s) := (if_pos hpass).trans (if_pos htag)

theorem validate_cbcXts (hpass : checksPass (fetched n s) = true) (htag : (sessionOf s).tag ≠ .gcm) :
    validate (fetched n s) = .refuse .cbcXtsDataPath := (if_pos hpass).trans (if_neg htag)

/-! ### The two sub-descriptors of a GCM chain -/

/-- What a GCM chain holds, in whatever order (47 R304 to R307). -/
theorem GcmChain.entries (h : GcmChain n s enc auth) :
    (chainEntries n s).length = 2 ∧ enc ∈ chainEntries n s ∧ auth ∈ chainEntries n s
      ∧ (∀ d ∈ chainEntries n s, isRecognised d.alg = true)
      ∧ (chainEntries n s).countP (fun d => isEncAlg d.alg) = 1
      ∧ (chainEntries n s).countP (fun d => isAuthAlg d.alg) = 1 := by
  obtain ⟨_, henc, hauth, hds⟩ := h
  have hencAlg : isRecognised enc.alg = true ∧ isEncAlg enc.alg = true ∧ isAuthAlg enc.alg = false := by
    rw [henc]; decide
  have hauthAlg : isRecognised auth.alg = true ∧ isEncAlg auth.alg = false ∧ isAuthAlg auth.alg = true := by
    rw [hauth]; decide
  rcases hds with hds | hds <;> simp [chainEntries, hds, hencAlg, hauthAlg]

theorem GcmChain.enc_at (h : GcmChain n s enc auth) (d : DEntry) :
    (chainEntries n s).getD (encIndex (chainEntries n s)) d = enc := by
  obtain ⟨_, hmem, _, _, hone, _⟩ := h.entries
  obtain ⟨_, halg, _⟩ := h
  exact getD_findIdx d hone hmem (by rw [halg]; decide)

theorem GcmChain.auth_at (h : GcmChain n s enc auth) (d : DEntry) :
    (chainEntries n s).getD (authIndex (chainEntries n s)) d = auth := by
  obtain ⟨_, _, hmem, _, _, hone⟩ := h.entries
  obtain ⟨_, _, halg, _⟩ := h
  exact getD_findIdx d hone hmem (by rw [halg]; decide)

/-- The latched index finds the sub-descriptor validation found (10 R43). -/
theorem decodeD_entryAt_validated {i : Nat} (hi : i < 256) :
    decodeD (entryAt (validated n s).chain (BitVec.ofNat 8 i).toNat) = (chainEntries n s).getD i (decodeD []) := by
  rw [BitVec.toNat_ofNat, Nat.mod_eq_of_lt hi, chainEntries, List.getD_map]
  rfl

theorem GcmChain.encOf_validated (h : GcmChain n s enc auth) : encOf (validated n s) = enc := by
  obtain ⟨hlen, hmem, _⟩ := h.entries
  obtain ⟨_, halg, _⟩ := id h
  have hlt : encIndex (chainEntries n s) < (chainEntries n s).length :=
    List.findIdx_lt_length_of_exists ⟨enc, hmem, by rw [halg]; decide⟩
  exact (decodeD_entryAt_validated (by omega)).trans (h.enc_at _)

theorem GcmChain.authOf_validated (h : GcmChain n s enc auth) : authOf (validated n s) = auth := by
  obtain ⟨hlen, _, hmem, _⟩ := h.entries
  obtain ⟨_, _, halg, _⟩ := id h
  have hlt : authIndex (chainEntries n s) < (chainEntries n s).length :=
    List.findIdx_lt_length_of_exists ⟨auth, hmem, by rw [halg]; decide⟩
  exact (decodeD_entryAt_validated (by omega)).trans (h.auth_at _)

/-! ### The checks V1 to V8 -/

theorem checkV8_gcm (hv : GivenIvOk s enc ∨ GeneratedIvOk s enc) (slot : Slot) : checkV8 slot enc = true := by
  rcases hv with ⟨hg, h1, h16, _⟩ | ⟨hg, h12, _⟩ <;> simp [checkV8, *]

theorem checkV7_gcm (hc : GcmChecks s enc auth) (hv : GivenIvOk s enc ∨ GeneratedIvOk s enc) :
    checkV7 (sessionOf s) s.regs.bufLen.toNat enc auth = true := by
  obtain ⟨_, _, _, hpayload, haad, htag⟩ := hc
  have hiv : ivExplicit enc = true ∨ enc.inject.toNat + ivBufferLength enc ≤ s.regs.bufLen.toNat := by
    rcases hv with ⟨hg, _, _, hx⟩ | ⟨hg, _, hin⟩
    · rwa [ivBufferLength, hg]
    · rw [ivBufferLength, if_pos hg]; exact .inr hin
  simp [checkV7, hpayload, haad, htag, hiv]

/-- A GCM operation within its bounds passes validation (47 R302). -/
theorem checksPass_gcm (h : GcmChain n s enc auth) (hc : GcmChecks s enc auth)
    (hv : GivenIvOk s enc ∨ GeneratedIvOk s enc) : checksPass (fetched n s) = true := by
  obtain ⟨_, _, _, hrec, hencs, hauths⟩ := h.entries
  obtain ⟨_, halg, _⟩ := id h
  obtain ⟨hin, hused, htag, _⟩ := id hc
  have hds : descriptors (fetched n s) = chainEntries n s := rfl
  have hslot : sessionOf (fetched n s) = sessionOf s := rfl
  have hbuf : (fetched n s).regs = s.regs := rfl
  have h1 : checkV1 (fetched n s) = true := (Bool.and_eq_true _ _).mpr ⟨hin, hused⟩
  have h2 : checkV2 (chainEntries n s) = true := List.all_eq_true.2 hrec
  have h3 : checkV3 (chainEntries n s) = true := decide_eq_true hencs
  have h4 : checkV4 (sessionOf s) enc = true := by rw [checkV4, htag, halg]; decide
  have h5 : checkV5 (sessionOf s) (chainEntries n s) = true := (if_pos htag).trans (decide_eq_true hauths)
  have h6 : checkV6 (sessionOf s) enc = true := by simp [checkV6, htag]
  simp only [checksPass, hds, hslot, hbuf, h.enc_at, h.auth_at, h1, h2, h3, h4, h5, h6, checkV7_gcm hc hv,
    checkV8_gcm hv, Bool.and_self]

/-- An algorithm code that names a session tag is recognised, encrypts and does not authenticate (10 R39, 30 R90). -/
theorem alg_of_tagOfCode {a : BitVec 32} {t : Tag} (h : tagOfCode a = some t) :
    isRecognised a = true ∧ isEncAlg a = true ∧ isAuthAlg a = false := by
  refine ⟨?_, by rw [isEncAlg, h]; rfl, ?_⟩
  all_goals
    unfold tagOfCode at h
    cases halg : algOfCode a with
    | none => rw [halg] at h; cases h
    | some c => cases c <;> simp_all [isRecognised, isAuthAlg]

/-- A CBC or XTS operation within its bounds passes validation (47 R302). -/
theorem checksPass_cbcXts (h : CbcXtsChecks n s enc) : checksPass (fetched n s) = true := by
  obtain ⟨_, hchain, hin, hused, htag, halg, hlen, hregion⟩ := h
  have hds : descriptors (fetched n s) = [enc] := hchain
  have hslot : sessionOf (fetched n s) = sessionOf s := rfl
  have hbuf : (fetched n s).regs = s.regs := rfl
  have hgcm : (sessionOf s).tag ≠ .gcm := by rcases htag with h | h <;> rw [h] <;> decide
  obtain ⟨hrec, henc, hauth⟩ := alg_of_tagOfCode halg
  have h1 : checkV1 (fetched n s) = true := (Bool.and_eq_true _ _).mpr ⟨hin, hused⟩
  have h2 : checkV2 [enc] = true := by simp [checkV2, hrec]
  have h3 : checkV3 [enc] = true := by simp [checkV3, henc]
  have h4 : checkV4 (sessionOf s) enc = true := decide_eq_true halg
  have h5 : checkV5 (sessionOf s) [enc] = true := by simp [checkV5, hgcm, hauth]
  have h6 : checkV6 (sessionOf s) enc = true := by simp [checkV6, hlen]
  have h7 : ∀ auth, checkV7 (sessionOf s) s.regs.bufLen.toNat enc auth = true := by simp [checkV7, hregion, hgcm]
  have h8 : checkV8 (sessionOf s) enc = true := by simp [checkV8, hgcm]
  have hat : [enc].getD (encIndex [enc]) (decodeD []) = enc := by simp [encIndex, henc]
  simp only [checksPass, hds, hslot, hbuf, hat, h1, h2, h3, h4, h5, h6, h7, h8, Bool.and_self]

end Sys2Proof.Machine
end

section
/-! SUPPORT. The phases of PROCESS from STAGE on: how each one that is not answered ends them (47_process.md R300, R320 to
R326). -/

namespace Sys2Proof.Machine

variable {s : State} {j : BitVec 32}

/-- PROCESS from phase STAGE on (47 R300). -/
def fromStage (j : BitVec 32) (s : State) : Act State :=
  (stageIn s).bind fun s3 => (ivDerive j s3).bind fun s4 => (execute j s4).bind fun s5 => wrBack s5

/-- A valid GCM operation reaches phase STAGE with its sub-descriptors latched (47 R313). -/
theorem process_gcm {n : Nat} {enc auth : DEntry} (h : GcmChain n s enc auth) (hc : GcmChecks s enc auth)
    (hv : GivenIvOk s enc ∨ GeneratedIvOk s enc) : process n s = fromStage s.regs.sid (validated n s) := by
  obtain ⟨hok, _⟩ := id h
  obtain ⟨_, _, htag, _⟩ := id hc
  rw [process, fetchChain_process hok, bind_ok, validate_gcm (checksPass_gcm h hc hv) htag, bind_ok, fromStage]

/-- IVDERIVE changes neither the chain nor the registers nor the parameters (44 R218). -/
theorem ivDerive_frame {t : State} (h : ivDerive j s = .ok t) : t.chain = s.chain ∧ t.regs = s.regs ∧ t.cfg = s.cfg := by
  obtain ⟨_, rfl⟩ | ⟨_, _, u, iv, rfl, _, _, rfl⟩ | ⟨_, _, rfl⟩ := ivDerive_ok h
  all_goals exact ⟨rfl, rfl, rfl⟩

/-- Where neither the counter nor the bus stands in its way, IVDERIVE goes on to EXECUTE (44 R218). -/
theorem ivDerive_answers (hc : ivGenerated (encOf s) = true → (getSlot s j).counter.toNat ≠ 2 ^ 64 - 1)
    (hok : ivExplicit (encOf s) = true ∨ bufOk s (encOf s).inject.toNat (ivBufferLength (encOf s)) = true) :
    ∃ t, ivDerive j s = .ok t := by
  cases hx : ivExplicit (encOf s) with
  | true => exact ⟨_, ivDerive_explicit hx⟩
  | false =>
    have hok := hok.resolve_left (by simp [hx])
    cases hg : ivGenerated (encOf s) with
    | true =>
      rw [ivBufferLength, if_pos hg] at hok
      exact ⟨_, ivDerive_generates hg (hc hg) hok⟩
    | false =>
      rw [ivBufferLength, hg] at hok
      exact ⟨_, ivDerive_reads hx hg hok⟩

/-- A generated IV of the length validation demands takes `ivlen` bytes of the buffer, as a given one does (47 R309
(d), R310). -/
theorem ivBufferLength_eq_ivlen {e : DEntry} (h : ivGenerated e = true → e.ivlen.toNat = 12) :
    ivBufferLength e = e.ivlen.toNat := by
  unfold ivBufferLength
  split
  case isTrue hg => exact (h hg).symm
  case isFalse => rfl

/-! ### The tag -/

/-- WRBACK stores the tag of an encryption last (47 R325). -/
theorem wrBack_unanswered (henc : isEncrypt (encOf s) = true) (hno : bufOk s (authOf s).inject.toNat 16 = false) :
    (wrBack s).Unanswered := by
  unfold wrBack
  cases hout : bufOk s (encOf s).offset.toNat (outputOf s.stage).length with
  | false => exact (bufWrite_unanswered hout).bind _
  | true =>
    rw [bufWrite_answers hout, bind_ok, if_pos henc]
    refine (bufWrite_unanswered ?_).bind _
    rw [bytes128_length]
    exact hno

/-- The tag is read on decrypt and stored on encrypt (47 R321, R325). -/
theorem execute_wrBack_unanswered (hno : bufOk s (authOf s).inject.toNat 16 = false) :
    ((execute j s).bind fun s5 => wrBack s5).Unanswered := by
  cases henc : isEncrypt (encOf s) with
  | true =>
    have hexec : execute j s = .ok (setPhase .writeback (gcmEnc j (setCtxActive true s))) := if_pos henc
    obtain ⟨w, st, ht⟩ := execute_ok hexec
    rw [hexec, bind_ok, ht]
    exact wrBack_unanswered henc hno
  | false =>
    rw [execute, if_neg (by simp [henc])]
    exact ((bufRead_unanswered hno).bind _).bind _

/-! ### From STAGE on -/

theorem fromStage_exhausts (h : ¬StagingFits s (encOf s) (authOf s)) :
    fromStage j s = .raise .resourceExhausted s := by
  rw [fromStage, stageIn_exhausts h, bind_raise]

theorem fromStage_staged_unanswered (hfit : StagingFits s (encOf s) (authOf s)) (hno : ¬StagedOk s (encOf s) (authOf s)) :
    (fromStage j s).Unanswered := (stageIn_unanswered hfit hno).bind _

theorem fromStage_counterExhausted (hfit : StagingFits s (encOf s) (authOf s)) (hok : StagedOk s (encOf s) (authOf s))
    (hg : ivGenerated (encOf s) = true) (hc : (getSlot s j).counter.toNat = 2 ^ 64 - 1) :
    fromStage j s = .refuse .counterExhausted := by
  have hiv : ivDerive j (staged s) = .refuse .counterExhausted := ivDerive_exhausted (s := staged s) hg hc
  rw [fromStage, stageIn_answers hfit hok, bind_ok, hiv, bind_refuse]

/-- A region the bus does not answer is met in one of the phases: payload and AAD in STAGE, the IV in DERIVE_IV, the tag
in EXECUTE or WRITEBACK (20 R80, R81). -/
theorem fromStage_unanswered (hfit : StagingFits s (encOf s) (authOf s))
    (hlen : ivGenerated (encOf s) = true → (encOf s).ivlen.toNat = 12)
    (hc : ivGenerated (encOf s) = true → (getSlot s j).counter.toNat ≠ 2 ^ 64 - 1)
    (hno : ¬RegionsOk s (encOf s) (authOf s)) : (fromStage j s).Unanswered := by
  by_cases hstaged : StagedOk s (encOf s) (authOf s)
  case neg => exact fromStage_staged_unanswered hfit hstaged
  rw [fromStage, stageIn_answers hfit hstaged, bind_ok]
  have hivlen := ivBufferLength_eq_ivlen hlen
  by_cases hiv : ivExplicit (encOf s) = true ∨ bufOk s (encOf s).inject.toNat (ivBufferLength (encOf s)) = true
  case neg =>
    rw [not_or, Bool.not_eq_true, Bool.not_eq_true] at hiv
    obtain ⟨hx, hbuf⟩ := hiv
    exact (ivDerive_unanswered (s := staged s) hx hc hbuf).bind _
  have htag : bufOk s (authOf s).inject.toNat 16 = false := eq_false_of_ne_true fun htag =>
    hno ⟨hstaged, htag, fun hx => by rw [← hivlen]; exact hiv.resolve_left (by simp [hx])⟩
  obtain ⟨t, ht⟩ := ivDerive_answers (s := staged s) (j := j) hc hiv
  obtain ⟨hchain, hregs, hcfg⟩ := ivDerive_frame ht
  rw [ht, bind_ok]
  refine execute_wrBack_unanswered ?_
  rw [authOf, bufOk, hchain, hregs, hcfg]
  exact htag

end Sys2Proof.Machine
end

section
/-! The statement about PROCESS operations that end at the staging limit or without a meaning (44_staging_iv.md R213;
47_process.md R312, R316), settled. -/

namespace Sys2Proof.Machine

/-- Settles O56: a chain that passes validation has its two sub-descriptors latched; from there phase by phase. -/
theorem processExhaustedOrRefused : Obligations.ProcessExhaustedOrRefused := by
  intro n s enc auth
  have hexec : exec (.process n) s = finish .process (process n s) := rfl
  refine ⟨fun hno => ?_, fun hchecks => ?_, fun hchain hchecks hiv => ?_⟩
  · exact finish_refusesAccess _ (Act.Unanswered.bind (fetchChain_refuses (s := setPhase .validate s) hno) _)
  · obtain ⟨hok, _, _, _, htag, _⟩ := id hchecks
    have hgcm : (sessionOf s).tag ≠ .gcm := by rcases htag with h | h <;> rw [h] <;> decide
    rw [hexec, process, fetchChain_process hok, bind_ok, validate_cbcXts (checksPass_cbcXts hchecks) hgcm]
    rfl
  · rw [hexec, process_gcm hchain hchecks hiv]
    have henc := hchain.encOf_validated
    have hauth := hchain.authOf_validated
    subst henc hauth
    have hlen : ivGenerated (encOf (validated n s)) = true → (encOf (validated n s)).ivlen.toNat = 12 := by
      intro hg
      rcases hiv with ⟨hgiven, _⟩ | ⟨_, h12, _⟩
      · rw [hg] at hgiven; cases hgiven
      · exact h12
    refine ⟨fun hlong => ?_, fun hfit hno => ?_, fun hfit hok ⟨hg, _⟩ hc => ?_, fun hfit hno hc => ?_⟩
    · rw [fromStage_exhausts hlong]; rfl
    · exact finish_refusesAccess _ (fromStage_staged_unanswered hfit hno)
    · rw [fromStage_counterExhausted hfit hok hg hc]; rfl
    · refine finish_refusesAccess _ (fromStage_unanswered hfit hlen (fun hg => ?_) hno)
      rcases hc with ⟨hgiven, _⟩ | hc
      · rw [hg] at hgiven; cases hgiven
      · exact hc

end Sys2Proof.Machine
end

section
/-! SUPPORT. Which slot of a table is written, and what the micro-operations on sessions answer (45_session.md R236, R244,
R255, R262). -/

namespace Sys2Proof.Machine

variable {s : State} {j : BitVec 32}

/-- The slot list `sl'` is canonical and that of `sl` but for slot `j`, which holds `v` (10 R36). -/
structure SlotWritten (sl sl' : List (Nat × Slot)) (j : BitVec 32) (v : Slot) : Prop where
  canonical : slotsWf sl' = true
  slots : ∀ k, slotOf sl' k = if k = j.toNat then v else slotOf sl k

theorem slotWritten_putSlot (hw : slotsWf s.slots = true) (j : BitVec 32) (v : Slot) :
    SlotWritten s.slots (putSlot j v s).slots j v := ⟨slotsWf_putSlot hw j v, slotOf_putSlot hw j v⟩

/-- The second of two writes of a slot counts. -/
theorem SlotWritten.trans {sl sl' sl'' : List (Nat × Slot)} {v w : Slot} (h : SlotWritten sl sl' j v)
    (h' : SlotWritten sl' sl'' j w) : SlotWritten sl sl'' j w := by
  refine ⟨h'.canonical, fun k => ?_⟩
  rw [h'.slots k, h.slots k]
  split <;> rfl

theorem SlotWritten.putSlot {sl : List (Nat × Slot)} {v : Slot} (h : SlotWritten sl s.slots j v) (w : Slot) :
    SlotWritten sl (putSlot j w s).slots j w := h.trans (slotWritten_putSlot h.canonical j w)

theorem SlotWritten.getSlot {sl : List (Nat × Slot)} {v : Slot} (h : SlotWritten sl s.slots j v) : getSlot s j = v :=
  (h.slots j.toNat).trans (if_pos rfl)

/-! ### The micro-operations -/

theorem slookup_answers {sid : BitVec 32} (h1 : 1 ≤ sid.toNat) (h2 : sid.toNat < s.cap.toNat) :
    slookup sid s = .ok sid := if_pos ((inRange_iff s sid).2 ⟨h1, h2⟩)

theorem slookup_outOfRange {sid : BitVec 32} (h : sid.toNat = 0 ∨ s.cap.toNat ≤ sid.toNat) :
    slookup sid s = .raise .invalidArgument s :=
  if_neg fun hr => by rw [inRange_iff] at hr; omega

theorem sgrow_answers (h : 2 * s.cap.toNat ≤ s.cfg.maxCap) :
    sgrow s = .ok (s.cap, { s with cap := BitVec.ofNat 32 (2 * s.cap.toNat) }) := if_neg (by omega)

theorem sgrow_exhausted (h : s.cfg.maxCap < 2 * s.cap.toNat) : sgrow s = .raise .resourceExhausted s := if_pos h

end Sys2Proof.Machine
end

section
/-! The statements about the micro-operations on sessions and about FREESESSION (45_session.md R236 to R263), settled. -/

namespace Sys2Proof.Machine

/-- Settles O40: the id is in range or it is not; the exception is that of the command the lookup serves. -/
theorem slookupRange : Obligations.SlookupRange := by
  intro s
  have hexec : exec .slookup s
      = settle (lookupCommand s.phase) ((slookup s.regs.sid s).bind fun j => .ok (setIndex j s)) := rfl
  refine ⟨fun h1 h2 => ?_, fun hout => ?_⟩
  · rw [hexec, slookup_answers h1 h2]; rfl
  · rw [hexec, slookup_outOfRange hout, bind_raise, lookupCommand]
    by_cases hphase : s.phase = .validate
    · rw [if_pos hphase, if_pos hphase]; rfl
    · rw [if_neg hphase, if_neg hphase]; rfl

/-- Settles O41: the choice of the slot is made by `salloc`; its index is written as its id. -/
theorem sallocLeastFree : Obligations.SallocLeastFree := by
  intro s _ ⟨_, hslots⟩
  have hexec : exec .salloc s = settle .newSession ((salloc s).bind fun r => .ok (setIndex r.1 r.2)) := rfl
  refine ⟨fun j cap hchosen => ?_, fun hfull hmax => ?_⟩
  · rw [hexec, salloc_answers hchosen]
    exact ⟨_, rfl, rfl, slotOf_putSlot hslots j { getSlot s j with id := j }⟩
  · rw [hexec, salloc_full hfull hmax]; rfl

/-- Settles O42: the double of a capacity that may still grow fits in 32 bits. -/
theorem sgrowDoubles : Obligations.SgrowDoubles := by
  intro s hcfg
  have hexec : exec .sgrow s = settle .newSession ((sgrow s).bind fun r => .ok (setIndex r.1 r.2)) := rfl
  refine ⟨fun hroom => ⟨_, doubled_toNat hcfg hroom, ?_⟩, fun hmax => ?_⟩
  · rw [hexec, sgrow_answers hroom]; rfl
  · rw [hexec, sgrow_exhausted hmax]; rfl

/-- Settles O43: SCLEAR is one write of a slot. -/
theorem sclearSlot : Obligations.SclearSlot := by
  intro s ⟨_, hslots⟩
  exact ⟨_, rfl, rfl, slotOf_putSlot hslots s.ports.j _⟩

/-- Settles O44: short of its end the counter does not wrap. -/
theorem ctrfaiCounts : Obligations.CtrfaiCounts := by
  intro s ⟨_, hslots⟩
  have hexec : exec .ctrfai s
      = settle .process ((ctrFai s.ports.j s).bind fun r => .ok { r.2 with ports := { r.2.ports with cnt := r.1 } }) := rfl
  refine ⟨fun hc => ?_, fun hc => ?_⟩
  · rw [hexec, ctrFai_answers hc]
    exact ⟨_, _, rfl, rfl, counter_succ_toNat hc, slotOf_putSlot hslots s.ports.j _⟩
  · rw [hexec, ctrFai_exhausted hc]; rfl

/-- Settles O48: FREESESSION is a lookup of REG.SID, then SCLEAR on what it answers. -/
theorem freesessionClears : Obligations.FreesessionClears := by
  intro s ⟨_, hslots⟩
  have hexec : exec .freesession s
      = finish .freeSession ((slookup s.regs.sid (setPhase .session s)).bind fun j =>
          .ok (sclear j (setPhase .session s))) := rfl
  refine ⟨fun h1 h2 => ?_, fun hout => ?_⟩
  · rw [hexec, slookup_answers (s := setPhase .session s) h1 h2]
    exact ⟨_, rfl, rfl, slotOf_putSlot hslots s.regs.sid _⟩
  · rw [hexec, slookup_outOfRange (s := setPhase .session s) hout]; rfl

end Sys2Proof.Machine
end

section
/-! SUPPORT. No NEWSESSION touches a session (45_session.md R250, R259): it writes the slot it has chosen, which holds
none. -/

namespace Sys2Proof.Machine

/-- The table of `t` holds the sessions of `s` and is no smaller (45 R259). -/
def KeepsSessions (s t : State) : Prop :=
  s.cap.toNat ≤ t.cap.toNat
    ∧ ∀ k, 1 ≤ k → k < s.cap.toNat → (slotOf s.slots k).used = true → slotOf t.slots k = slotOf s.slots k

/-- Slot `j` holds no session of the table of `s`. -/
def HoldsNone (s : State) (j : BitVec 32) : Prop :=
  ∀ k, 1 ≤ k → k < s.cap.toNat → (slotOf s.slots k).used = true → k ≠ j.toNat

variable {s t : State} {j : BitVec 32}

theorem keepsSessions_refl (s : State) : KeepsSessions s s := ⟨le_rfl, fun _ _ _ _ => rfl⟩

/-- Only these fields matter to it. -/
theorem keepsSessions_congr {u : State} (h : KeepsSessions s t) (hcap : u.cap = t.cap) (hslots : u.slots = t.slots) :
    KeepsSessions s u := by unfold KeepsSessions; rw [hcap, hslots]; exact h

theorem keepsSessions_putSlot (h : KeepsSessions s t) (hj : HoldsNone s j) (v : Slot) :
    KeepsSessions s (putSlot j v t) := by
  obtain ⟨hcap, hslots⟩ := h
  refine ⟨hcap, fun k h1 h2 hu => ?_⟩
  exact (slotOf_cellWrite_other _ (hj k h1 h2 hu) v).trans (hslots k h1 h2 hu)

/-- The chosen slot is unused, or lies past the table it is added to (45 R240, R244). -/
theorem Chosen.holdsNone {cap : BitVec 32} (h : Chosen s j cap) : HoldsNone s j := by
  rintro k h1 h2 hu rfl
  obtain ⟨⟨_, _, hfree, _⟩, _⟩ | ⟨_, _, rfl, _⟩ := h
  · rw [getSlot, hu] at hfree; cases hfree
  · omega

theorem Chosen.cap_le {cap : BitVec 32} (h : Chosen s j cap) : s.cap.toNat ≤ cap.toNat := by
  obtain ⟨_, rfl⟩ | ⟨_, _, _, hcap⟩ := h <;> omega

theorem salloc_keepsSessions (hcfg : s.cfg.wf = true) :
    (salloc s).Yields (fun r => HoldsNone s r.1 ∧ KeepsSessions s r.2) (KeepsSessions s) := by
  refine Act.yields_of (fun r hr => ?_) fun e t ht => ?_
  · obtain ⟨j, t⟩ := r
    obtain ⟨cap, hchosen, rfl⟩ := salloc_ok hcfg hr
    obtain ⟨_, hslots⟩ := keepsSessions_putSlot (keepsSessions_refl s) hchosen.holdsNone { getSlot s j with id := j }
    exact ⟨hchosen.holdsNone, hchosen.cap_le, hslots⟩
  · obtain ⟨_, _, _, rfl⟩ := salloc_raise ht
    exact keepsSessions_refl _

theorem lease_keepsSessions (h : KeepsSessions s t) (hj : HoldsNone s j) :
    (lease j t).Yields (KeepsSessions s) (KeepsSessions s) := by
  have hasked : KeepsSessions s (afterLease t) := keepsSessions_congr h (by simp) (by simp)
  refine Act.yields_of (fun u hu => ?_) fun e u hu => ?_
  · obtain ⟨_, ⟨_, rfl⟩ | ⟨_, rfl⟩⟩ := lease_ok hu
    · exact h
    · exact keepsSessions_putSlot hasked hj _
  · obtain ⟨_, _, rfl⟩ := lease_raise hu
    exact hasked

theorem keySetup_keepsSessions (tag : Tag) (e : KEntry) (h : KeepsSessions s t) (hj : HoldsNone s j) :
    (keySetup j tag e t).Yields (KeepsSessions s) (KeepsSessions s) := by
  refine Act.yields_of (fun u hu => ?_) fun er u hu => ?_
  · obtain ⟨_, _, rfl⟩ := keySetup_ok hu
    exact keepsSessions_putSlot (t := latchKey tag _ t) h hj _
  · obtain ⟨_, _, rfl⟩ := keySetup_raise hu
    exact keepsSessions_putSlot h hj _

theorem createSession_keepsSessions (tag : Tag) (e : KEntry) (hcfg : s.cfg.wf = true) :
    (createSession tag e s).Yields (KeepsSessions s) (KeepsSessions s) := by
  refine (salloc_keepsSessions hcfg).bind fun r ⟨hj, h1⟩ => ?_
  refine (lease_keepsSessions h1 hj).bind fun s2 h2 => ?_
  exact (keySetup_keepsSessions (t := setCtxActive true s2) tag e h2 hj).bind fun s3 h3 => h3

theorem newSession_keepsSessions (n : Nat) (hcfg : s.cfg.wf = true) :
    (newSession n s).Yields (KeepsSessions s) (KeepsSessions s) := by
  rw [newSession]
  cases hfetch : fetchChain 32 n (setPhase .session s) with
  | raise e t => exact absurd hfetch fetchChain_no_raise
  | refuse r => trivial
  | ok s1 =>
    obtain ⟨_, rfl⟩ := fetchChain_ok hfetch
    rw [bind_ok]
    split
    · exact keepsSessions_refl s
    · exact createSession_keepsSessions _ _ hcfg

/-- Settles O47: the slot a NEWSESSION writes holds no session, at whatever phase the command ends. -/
theorem newsessionKeepsSessions : Obligations.NewsessionKeepsSessions := by
  intro n s t hcfg _ hx
  exact (newSession_keepsSessions n hcfg).finish (R := KeepsSessions s) hx (fun _ hu => hu) fun _ _ hu => hu

end Sys2Proof.Machine
end

section
/-! SUPPORT. NEWSESSION phase by phase: the chain, the slot, the lease, the key (45_session.md R239 to R250). -/

namespace Sys2Proof.Machine

variable {s : State} {n : Nat} {j cap : BitVec 32} {t : Tag} {e : KEntry}

/-! ### The chain -/

/-- NEWSESSION after the chain fetch (45 R239). -/
def keyFetched (n : Nat) (s : State) : State :=
  { s with chain := { s.chain with n := BitVec.ofNat 8 n, entries := chainAt s 32 n }, phase := .session }

theorem fetchChain_newSession (h : chainOk s 32 n = true) :
    fetchChain 32 n (setPhase .session s) = .ok (keyFetched n s) := fetchChain_answers (s := setPhase .session s) h

theorem newSession_unanswered (h : chainOk s 32 n = false) : (newSession n s).Unanswered :=
  Act.Unanswered.bind (fetchChain_refuses (s := setPhase .session s) h) _

theorem newSession_rejects (hok : chainOk s 32 n = true)
    (hbad : (∃ k ∈ (chainAt s 32 n).map decodeK, isRecognised k.alg = false)
      ∨ ((chainAt s 32 n).map decodeK).countP (fun k => isEncAlg k.alg) ≠ 1) :
    newSession n s = .raise .invalidArgument (keyFetched n s) := by
  have hnone : sessionEntry (keyFetched n s).chain.entries = none := sessionEntry_none.2 hbad
  rw [newSession, fetchChain_newSession hok, bind_ok, hnone]

theorem newSession_accepts (h : KeyChain n s t e) : newSession n s = createSession t e (keyFetched n s) := by
  obtain ⟨hok, hentry⟩ := h
  have hsome : sessionEntry (keyFetched n s).chain.entries = some (t, e) := sessionEntry_some.2 hentry
  rw [newSession, fetchChain_newSession hok, bind_ok, hsome]

/-! ### The slot -/

/-- NEWSESSION on an accepted chain after the choice of slot `j`, which leaves the capacity `cap` (45 R240, R244). -/
def slotChosen (n : Nat) (j cap : BitVec 32) (s : State) : State :=
  { putSlot j { getSlot s j with id := j } (keyFetched n s) with cap := cap }

theorem salloc_keyFetched (h : Chosen s j cap) : salloc (keyFetched n s) = .ok (j, slotChosen n j cap s) :=
  salloc_answers (s := keyFetched n s) h

theorem newSession_exhausted (h : KeyChain n s t e) (hfull : TableFull s) (hmax : s.cfg.maxCap < 2 * s.cap.toNat) :
    newSession n s = .raise .resourceExhausted (keyFetched n s) := by
  rw [newSession_accepts h, createSession, salloc_full (s := keyFetched n s) hfull hmax, bind_raise]

theorem newSession_chosen (h : KeyChain n s t e) (hchosen : Chosen s j cap) :
    newSession n s
      = (lease j (slotChosen n j cap s)).bind fun s2 =>
        (keySetup j t e (setCtxActive true s2)).bind fun s3 => .ok (setSid j s3) := by
  rw [newSession_accepts h, createSession, salloc_keyFetched hchosen, bind_ok]

theorem slotWritten_slotChosen (hw : slotsWf s.slots = true) (n : Nat) (j cap : BitVec 32) :
    SlotWritten s.slots (slotChosen n j cap s).slots j { getSlot s j with id := j } := slotWritten_putSlot hw j _

/-! ### The lease -/

theorem lease_denied (h : leasedCtx s j = 0) : lease j s = .raise .resourceUnavailable (afterLease s) := by
  unfold leasedCtx at h
  unfold lease
  by_cases hheld : (getSlot s j).ctx = 0
  · rw [if_pos hheld] at h
    rw [if_pos hheld, if_pos h]
  · rw [if_neg hheld] at h
    exact absurd h hheld

/-- A lease that is not denied leaves the handle in the slot, held before or granted (45 R246). -/
theorem lease_grants (hw : slotsWf s.slots = true) (h : leasedCtx s j ≠ 0) :
    ∃ sl, lease j s = .ok { leased s j with slots := sl }
      ∧ SlotWritten s.slots sl j { getSlot s j with ctx := leasedCtx s j } := by
  unfold leasedCtx at h ⊢
  unfold lease leased
  by_cases hheld : (getSlot s j).ctx = 0
  · rw [if_pos hheld] at h
    simp only [if_pos hheld, if_neg h]
    refine ⟨_, rfl, ?_⟩
    simpa using slotWritten_putSlot hw j { getSlot s j with ctx := leaseAnswer s }
  · simp only [if_neg hheld]
    refine ⟨s.slots, rfl, hw, fun k => ?_⟩
    split
    case isTrue hk => subst hk; rfl
    case isFalse => rfl

/-- The provider is asked alike in whatever phase and over whatever table. -/
theorem afterLease_slotChosen (n : Nat) (j cap : BitVec 32) (s : State) :
    afterLease (slotChosen n j cap s)
      = { afterLease s with
            slots := (slotChosen n j cap s).slots, cap := cap, chain := (keyFetched n s).chain, phase := .session } := by
  cases hp : s.provider <;> simp [afterLease, slotChosen, keyFetched, hp]

theorem getSlot_slotChosen (hw : slotsWf s.slots = true) (n : Nat) (j cap : BitVec 32) :
    getSlot (slotChosen n j cap s) j = { getSlot s j with id := j } := (slotWritten_slotChosen hw n j cap).getSlot

theorem leasedCtx_slotChosen (hw : slotsWf s.slots = true) (n : Nat) (j cap : BitVec 32) :
    leasedCtx (slotChosen n j cap s) j = leasedCtx s j := by
  unfold leasedCtx; rw [getSlot_slotChosen hw]; rfl

theorem leased_slotChosen (hw : slotsWf s.slots = true) (n : Nat) (j cap : BitVec 32) :
    leased (slotChosen n j cap s) j
      = { leased s j with
            slots := (slotChosen n j cap s).slots, cap := cap, chain := (keyFetched n s).chain, phase := .session } := by
  unfold leased
  rw [getSlot_slotChosen hw]
  by_cases hheld : (getSlot s j).ctx = 0
  · rw [if_pos hheld, if_pos hheld]; exact afterLease_slotChosen n j cap s
  · rw [if_neg hheld, if_neg hheld]; rfl

theorem newSession_denied (hw : slotsWf s.slots = true) (h : KeyChain n s t e) (hchosen : Chosen s j cap)
    (hdeny : leasedCtx s j = 0) :
    newSession n s = .raise .resourceUnavailable (afterLease (slotChosen n j cap s)) := by
  rw [newSession_chosen h hchosen, lease_denied ((leasedCtx_slotChosen hw n j cap).trans hdeny), bind_raise]

/-- NEWSESSION after a lease that is not denied, with the context active and the slots `sl` (45 R246). -/
def leaseHeld (n : Nat) (j cap : BitVec 32) (sl : List (Nat × Slot)) (s : State) : State :=
  { leased s j with
      slots := sl, cap := cap, chain := (keyFetched n s).chain, phase := .session, ctxActive := true }

@[simp] theorem leaseHeld_mem (sl : List (Nat × Slot)) : (leaseHeld n j cap sl s).mem = s.mem := by
  unfold leaseHeld leased; split <;> simp

@[simp] theorem leaseHeld_cfg (sl : List (Nat × Slot)) : (leaseHeld n j cap sl s).cfg = s.cfg := by
  unfold leaseHeld leased; split <;> simp

/-- With a handle what is left of NEWSESSION is key setup, in a state whose chosen slot holds its id and the handle (45
R247). -/
theorem newSession_leased (hw : slotsWf s.slots = true) (h : KeyChain n s t e) (hchosen : Chosen s j cap)
    (hgrant : leasedCtx s j ≠ 0) :
    ∃ sl, newSession n s = (keySetup j t e (leaseHeld n j cap sl s)).bind (fun s3 => .ok (setSid j s3))
      ∧ SlotWritten s.slots sl j { getSlot s j with id := j, ctx := leasedCtx s j } := by
  have hid := slotWritten_slotChosen hw n j cap
  have hctx := leasedCtx_slotChosen hw n j cap
  obtain ⟨sl, hlease, hsl⟩ := lease_grants hid.canonical (hctx.trans_ne hgrant)
  rw [getSlot_slotChosen hw, hctx] at hsl
  refine ⟨sl, ?_, hid.trans hsl⟩
  rw [newSession_chosen h hchosen, hlease, bind_ok, leased_slotChosen hw]
  rfl

/-! ### The key -/

theorem keySetup_illegal (h : legalKeyLength t e.klen.toNat = false) :
    keySetup j t e s = .raise .invalidArgument (sclear j s) := if_neg (by simp [h])

theorem keySetup_legal (h : legalKeyLength t e.klen.toNat = true) :
    keySetup j t e s
      = (memRead s e.keyPtr.toNat (e.klen.toNat / 8)).bind fun key =>
        .ok (putSlot j (sessionSlot t e.nonce key (getSlot s j)) (latchKey t key s)) := if_pos h

theorem keySetup_answers (h : legalKeyLength t e.klen.toNat = true)
    (hok : accessOk s.cfg e.keyPtr.toNat (e.klen.toNat / 8) = true) :
    keySetup j t e s
      = .ok (putSlot j (sessionSlot t e.nonce (readBytes s.mem e.keyPtr.toNat (e.klen.toNat / 8)) (getSlot s j))
          (latchKey t (readBytes s.mem e.keyPtr.toNat (e.klen.toNat / 8)) s)) := by
  rw [keySetup_legal h, memRead_answers hok, bind_ok]

theorem keySetup_unanswered (h : legalKeyLength t e.klen.toNat = true)
    (hno : accessOk s.cfg e.keyPtr.toNat (e.klen.toNat / 8) = false) : (keySetup j t e s).Unanswered := by
  rw [keySetup_legal h]; exact Act.Unanswered.bind (memRead_refuses hno) _

/-- Key setup expands the first half of an XTS key as the data key and the second as the tweak key, and all of another
key (40 R130, R131). -/
theorem sessionSlot_halves (nonce : BitVec 32) {klen : Nat} {key : List Byte} (hk : key.length = klen / 8) (old : Slot) :
    let half := if t = .xts then klen / 16 else klen / 8
    sessionSlot t nonce key old
      = { id := old.id, used := true, tag := t, rounds := keyExpRounds (key.take half), ek := keyExp (key.take half),
          dk := decKey (keyExp (key.take half)) (keyExpRounds (key.take half)),
          xk := if t = .xts then keyExp (key.drop half) else zeroSchedule,
          nonce := if t = .gcm then nonce else 0, counter := 0, ctx := old.ctx } := by
  by_cases hx : t = .xts
  · have hhalf : key.length / 2 = klen / 16 := by omega
    simp only [sessionSlot, dataKey, tweakSchedule, tweakKey, if_pos hx, hhalf]
  · have hall : key.take (klen / 8) = key := List.take_of_length_le hk.le
    simp only [sessionSlot, dataKey, tweakSchedule, if_neg hx, hall]

end Sys2Proof.Machine
end

section
/-! The statements about NEWSESSION (45_session.md R239 to R250), settled. -/

namespace Sys2Proof.Machine

/-- Settles O45: chain, slot and lease lead to key setup, which fills the slot that holds its id and the handle. -/
theorem newsessionCreates : Obligations.NewsessionCreates := by
  intro n s t e j cap _ ⟨_, hslots⟩ hchain hchosen hgrant hlegal hok key half
  have hexec : exec (.newsession n) s = finish .newSession (newSession n s) := rfl
  obtain ⟨sl, hnew, hsl⟩ := newSession_leased hslots hchain hchosen hgrant
  have hkey := keySetup_answers (j := j) (s := leaseHeld n j cap sl s) hlegal (by rwa [leaseHeld_cfg])
  rw [hexec, hnew, hkey, bind_ok, leaseHeld_mem, SlotWritten.getSlot (s := leaseHeld n j cap sl s) hsl,
    sessionSlot_halves e.nonce (readBytes_length s.mem _ _)]
  exact ⟨_, rfl, rfl, (SlotWritten.putSlot (s := leaseHeld n j cap sl s) hsl _).slots⟩

/-- Settles O46: each phase that fails ends the command with what the phases before it have left. -/
theorem newsessionFailures : Obligations.NewsessionFailures := by
  intro n s _ ⟨_, hslots⟩
  have hexec : exec (.newsession n) s = finish .newSession (newSession n s) := rfl
  refine ⟨fun hno => ?_, fun hok hbad => ?_, fun t e hchain => ⟨fun hfull hmax => ?_, fun j cap hchosen => ?_⟩⟩
  · exact finish_refusesAccess _ (newSession_unanswered hno)
  · rw [hexec, newSession_rejects hok hbad]; rfl
  · rw [hexec, newSession_exhausted hchain hfull hmax]; rfl
  · refine ⟨fun hdeny => ?_, fun hgrant hillegal => ?_, fun hgrant hlegal hno => ?_⟩
    · rw [hexec, newSession_denied hslots hchain hchosen hdeny, afterLease_slotChosen]
      exact ⟨_, rfl, rfl, (slotWritten_slotChosen hslots n j cap).slots⟩
    · obtain ⟨sl, hnew, hsl⟩ := newSession_leased hslots hchain hchosen hgrant
      rw [hexec, hnew, keySetup_illegal hillegal, bind_raise, sclear,
        SlotWritten.getSlot (s := leaseHeld n j cap sl s) hsl]
      exact ⟨_, rfl, rfl, (SlotWritten.putSlot (s := leaseHeld n j cap sl s) hsl _).slots⟩
    · obtain ⟨sl, hnew, _⟩ := newSession_leased hslots hchain hchosen hgrant
      rw [hexec, hnew]
      exact finish_refusesAccess _ ((keySetup_unanswered hlegal (by rwa [leaseHeld_cfg])).bind _)

end Sys2Proof.Machine
end

section
/-! SUPPORT. The GCM engine in closed form over the block encryption of a session (46_gcm_engine.md R272 to R282). -/

namespace Sys2Proof.Machine

/-! ### The initial counter block (43 R193) -/

/-- What `W.Y0` holds after Y0GEN with the hash subkey `h`: for the empty IV a free value (log 12). -/
def y0Block (st : Staging) (h : Block) : Block :=
  if st.ivlen.toNat = 0 then Config.y0Empty h else y0Ref h (ivOf st)

/-- Y0GEN writes `W.Y0` and, but for an IV of twelve bytes, clears `W.X` (43 R194, R195). -/
theorem y0Gen_eq (st : Staging) (w : Work) :
    y0Gen st w = { w with y0 := y0Block st w.h, x := if st.ivlen.toNat = 12 then w.x else 0 } := by
  by_cases h12 : st.ivlen.toNat = 12
  · have h0 : st.ivlen.toNat ≠ 0 := by omega
    rw [y0Gen_twelve w h12, y0Block, if_neg h0, if_pos h12]
  · rw [if_neg h12]
    by_cases h0 : st.ivlen.toNat = 0
    · rw [y0Gen_empty w h0, y0Block, if_pos h0]
    · rw [y0Gen_hashed w h12 h0, y0Block, if_neg h0]

/-! ### What GCMENC and GCMDEC compute -/

/-- The staged payload under the keystream of the staged IV, for the block encryption `E` (46 R278, R281). -/
def stagedCipher (E : Block → Block) (st : Staging) : List Byte := ctrWith E (y0Block st (E 0)) (payloadOf st)

/-- The tag of the staged AAD and the ciphertext `C` (46 R278). -/
def stagedTag (E : Block → Block) (st : Staging) (C : List Byte) : Block :=
  blockMulRef (ghashRef (E 0) (ghashRef (E 0) 0 (aadOf st)) C ^^^ lengthBlock st.alen.toNat st.dlen.toNat) (E 0)
    ^^^ E (y0Block st (E 0))

/-- The block encryption of the session in slot `j`. -/
def slotCipher (j : BitVec 32) (s : State) : Block → Block := aesBlk (getSlot s j).ek (getSlot s j).rounds

variable (j : BitVec 32) (s : State)

/-- Steps 1 to 3 of both directions (46 R272, R273, R275). -/
theorem gcmPrepare_eq :
    gcmPrepare j s
      = { s with work := { s.work with
                             h := slotCipher j s 0,
                             y0 := y0Block s.stage (slotCipher j s 0),
                             t := slotCipher j s (y0Block s.stage (slotCipher j s 0)),
                             x := ghashRef (slotCipher j s 0) 0 (aadOf s.stage) } } := by
  simp only [gcmPrepare, y0Gen_eq, ghBytes_eq, slotCipher]

/-- Steps 6 and 7 write `W.X` and `W.TAG` (46 R274, R282). -/
theorem gcmTag_eq :
    ∃ x, x = blockMulRef (s.work.x ^^^ lengthBlock s.stage.alen.toNat s.stage.dlen.toNat) s.work.h
      ∧ gcmTag s = { s with work := { s.work with x := x, tag := x ^^^ s.work.t } } :=
  ⟨_, rfl, by rw [gcmTag, tagGen, ghLen, ghFold_eq]⟩

theorem ctrXorStage_eq (enc : Bool) :
    ctrXorStage j enc s
      = { s with
            work := ctrAfter (slotCipher j s) enc { s.work with y := s.work.y0 } (payloadOf s.stage),
            stage := { s.stage with o := ctrWith (slotCipher j s) s.work.y0 (payloadOf s.stage) } } := by
  simp only [ctrXorStage, ctrXor_eq, slotCipher]

/-- GCMENC leaves the ciphertext in S.O and its tag in `W.TAG` (46 R276, R278). -/
theorem gcmEnc_eq :
    ∃ w, gcmEnc j s
        = { s with work := w, stage := { s.stage with o := stagedCipher (slotCipher j s) s.stage }, authOk := true }
      ∧ w.tag = stagedTag (slotCipher j s) s.stage (stagedCipher (slotCipher j s) s.stage) := by
  rw [gcmEnc, gcmPrepare_eq, ctrXorStage_eq]
  obtain ⟨x, rfl, htag⟩ := gcmTag_eq _
  rw [htag]
  exact ⟨_, rfl, rfl⟩

/-- Equal tags pass (46 R284). -/
theorem tagVfy_equal {s : State} (h : s.work.tag = s.work.tagin) : tagVfy s = .ok (setAuthOk true s) := if_pos h

/-- Any difference raises (46 R284, R285). -/
theorem tagVfy_different {s : State} (h : s.work.tag ≠ s.work.tagin) :
    tagVfy s = .raise .authenticationFailure (setAuthOk false s) := if_neg h

/-- The state in which GCMDEC compares the tags: that of the staged ciphertext stands in `W.TAG` (46 R280). -/
theorem gcmDec_eq :
    ∃ w, gcmDec j s = (tagVfy { s with work := w }).bind (fun u => .ok (ctrXorStage j false u))
      ∧ w.tag = stagedTag (slotCipher j s) s.stage (payloadOf s.stage) ∧ w.tagin = s.work.tagin
      ∧ w.y0 = y0Block s.stage (slotCipher j s 0) := by
  rw [gcmDec, gcmPrepare_eq, ghBytes_eq]
  obtain ⟨x, rfl, htag⟩ := gcmTag_eq _
  dsimp only
  rw [htag]
  exact ⟨_, rfl, rfl, rfl, rfl⟩

/-- GCMDEC under the tag of the staged ciphertext leaves the plaintext in S.O (46 R280, R281). -/
theorem gcmDec_match (h : s.work.tagin = stagedTag (slotCipher j s) s.stage (payloadOf s.stage)) :
    ∃ w, gcmDec j s
      = .ok { s with
                work := w, stage := { s.stage with o := stagedCipher (slotCipher j s) s.stage }, authOk := true } := by
  obtain ⟨w, hdec, htag, htagin, hy0⟩ := gcmDec_eq j s
  have heq : w.tag = w.tagin := htag.trans (h.symm.trans htagin.symm)
  rw [hdec, tagVfy_equal (s := { s with work := w }) heq, bind_ok, ctrXorStage_eq, stagedCipher, ← hy0]
  exact ⟨_, rfl⟩

/-- GCMDEC under any other tag raises and leaves S.O as it was (46 R284, R285). -/
theorem gcmDec_mismatch (h : s.work.tagin ≠ stagedTag (slotCipher j s) s.stage (payloadOf s.stage)) :
    ∃ w, gcmDec j s = .raise .authenticationFailure { s with work := w, authOk := false } := by
  obtain ⟨w, hdec, htag, htagin, _⟩ := gcmDec_eq j s
  have hne : w.tag ≠ w.tagin := fun heq => h (htagin.symm.trans (heq.symm.trans htag))
  rw [hdec, tagVfy_different (s := { s with work := w }) hne, bind_raise]
  exact ⟨w, rfl⟩

end Sys2Proof.Machine
end

section
/-! SUPPORT. The staged operation is its own inverse (46_gcm_engine.md R288). -/

namespace Sys2Proof.Machine

theorem byteAt_ctrWith (E : Block → Block) (y : Block) {D : List Byte} {i : Nat} (h : i < D.length) :
    byteAt (ctrWith E y D) i = byteAt D i ^^^ byteAt (bytes128 (E (cbRef y (i / 16 + 1)))) (i % 16) := by
  rw [byteAt, List.getD_eq_getElem _ _ ((length_ctrWith E y D).symm ▸ h)]
  simp only [ctrWith, List.getElem_map, List.getElem_range]

theorem map_byteAt (D : List Byte) : (List.range D.length).map (fun i => byteAt D i) = D := by
  have hall : slice D 0 D.length = D := by rw [slice, List.drop_zero, List.take_length]
  simpa only [hall, Nat.zero_add] using (slice_eq_map_byteAt (S := D) (a := 0) (Nat.zero_add _).le).symm

/-- The keystream added twice is gone (43 R200). -/
theorem ctrWith_ctrWith (E : Block → Block) (y : Block) (D : List Byte) : ctrWith E y (ctrWith E y D) = D := by
  calc ctrWith E y (ctrWith E y D)
    _ = (List.range D.length).map (fun i => byteAt D i) := by
      rw [ctrWith, length_ctrWith]
      refine List.map_congr_left fun i hi => ?_
      rw [byteAt_ctrWith E y (List.mem_range.1 hi), BitVec.xor_assoc, BitVec.xor_self, BitVec.xor_zero]
    _ = D := map_byteAt D

/-- A region of the length of its string is the string (10 R42). -/
theorem region_of_length {B : List Byte} {n : Nat} (h : B.length = n) : region B n = B := by
  rw [← h, region, List.take_length, Nat.sub_self, zeros, List.replicate_zero, List.append_nil]

theorem length_stagedCipher (E : Block → Block) (st : Staging) : (stagedCipher E st).length = st.dlen.toNat := by
  rw [stagedCipher, length_ctrWith, payloadOf, length_region]

/-- The staged ciphertext in the place of the payload, whatever stands in S.O. -/
theorem payloadOf_stagedCipher (E : Block → Block) (st : Staging) (o : List Byte) :
    payloadOf { st with d := stagedCipher E st, o := o } = stagedCipher E st :=
  region_of_length (length_stagedCipher E st)

/-- The cipher on the staged ciphertext gives the payload back (46 R288). -/
theorem stagedCipher_stagedCipher (E : Block → Block) (st : Staging) (o : List Byte) :
    stagedCipher E { st with d := stagedCipher E st, o := o } = payloadOf st := by
  rw [stagedCipher, payloadOf_stagedCipher]
  exact ctrWith_ctrWith E (y0Block st (E 0)) (payloadOf st)

end Sys2Proof.Machine
end

section
/-! The statements about the GCM engine and the tag controller (46_gcm_engine.md R278 to R288), settled. -/

namespace Sys2Proof.Machine

/-- Settles O38: TAGGEN is one write of a working register. -/
theorem taggenXor : Obligations.TaggenXor := ⟨rfl, fun _ => rfl⟩

/-- Settles O39: tags that differ in a bit are not equal. -/
theorem tagvfyVerdict : Obligations.TagvfyVerdict := by
  intro s
  have hexec : exec .tagvfy s = settle .process (tagVfy s) := rfl
  refine ⟨fun heq => ?_, fun k hk => ?_⟩
  · rw [hexec, tagVfy_equal heq]; rfl
  · have hne : s.work.tag ≠ s.work.tagin := fun heq => hk (by rw [heq])
    rw [hexec, tagVfy_different hne]; rfl

/-- Settles O58: both directions compute the tag of the same ciphertext, and the same keystream. -/
theorem gcmRoundTrip : Obligations.GcmRoundTrip := by
  intro s j w o e
  obtain ⟨we, henc, htag⟩ := gcmEnc_eq j s
  have hcipher : e.stage.o = stagedCipher (slotCipher j s) s.stage := congrArg (fun t => t.stage.o) henc
  have htagin : e.work.tag = stagedTag (slotCipher j s) s.stage (stagedCipher (slotCipher j s) s.stage) :=
    (congrArg (fun t => t.work.tag) henc).trans htag
  refine ⟨rfl, ?_⟩
  rw [hcipher, htagin]
  obtain ⟨wd, hdec⟩ := gcmDec_match j
    { s with
        stage := { s.stage with d := stagedCipher (slotCipher j s) s.stage, o := o },
        work := { w with tagin := stagedTag (slotCipher j s) s.stage (stagedCipher (slotCipher j s) s.stage) } }
    (by rw [payloadOf_stagedCipher]; rfl)
  refine ⟨_, hdec, rfl, ?_⟩
  have hback := stagedCipher_stagedCipher (slotCipher j s) s.stage o
  exact (congrArg (fun B => region B s.stage.dlen.toNat) hback).trans (region_of_length (length_region _ _))

end Sys2Proof.Machine
end

section
/-! SUPPORT. What the engine computes is what the GCM equations give (46_gcm_engine.md R278, R281), for a legal round
count and an IV that is not empty. -/

namespace Sys2Proof.Machine

/-! ### GHASH over padded strings (42 R178, R180) -/

theorem ghashRef_pad16 (h x : Block) (S : List Byte) : ghashRef h x (pad16 S) = ghashRef h x S := by
  have hcount : ((pad16 S).length + 15) / 16 = (S.length + 15) / 16 := by rw [length_pad16]; omega
  simp only [ghashRef, hcount, blockAt, byteAt_pad16]

theorem ghashRef_block (h x : Block) {B : List Byte} (hB : B.length = 16) :
    ghashRef h x B = blockMulRef (x ^^^ blk B) h := by
  have hblock : blockAt B 0 = blk B := by
    rw [blockAt, ← hB]
    simp only [Nat.mul_zero, Nat.zero_add, map_byteAt]
  simp only [ghashRef, hB, Nat.reduceAdd, Nat.reduceDiv, List.range_one, List.foldl_cons, List.foldl_nil, hblock]

/-- The hash of a GCM message: AAD and ciphertext, each padded to blocks, and the length block (46 R278). -/
theorem ghashRef_message (h : Block) (A C : List Byte) :
    ghashRef h 0 (pad16 A ++ pad16 C ++ be64 (BitVec.ofNat 64 (8 * A.length)) ++ be64 (BitVec.ofNat 64 (8 * C.length)))
      = blockMulRef (ghashRef h (ghashRef h 0 A) C ^^^ lengthBlock A.length C.length) h := by
  rw [List.append_assoc, List.append_assoc, ghashRef_append h 0 _ (length_pad16 A),
    ghashRef_append h _ _ (length_pad16 C), ghashRef_pad16, ghashRef_pad16, ghashRef_block h _ rfl, lengthBlock]

/-! ### The staged operation -/

variable {ek : Schedule} {nr : BitVec 4} {st : Staging}

theorem stagedCipher_eq_gcmCipherRef (hlegal : legalRounds nr = true) (hiv : st.ivlen.toNat ≠ 0) :
    stagedCipher (aesBlk ek nr) st = gcmCipherRef ek nr (ivOf st) (payloadOf st) := by
  have hE : aesBlk ek nr = aesBlkRef ek nr := funext fun x => aesBlk_eq_ref ek hlegal x
  rw [stagedCipher, y0Block, if_neg hiv, hE, gcmCipherRef, ctrRef]

theorem stagedTag_eq_gcmTagRef (hlegal : legalRounds nr = true) (hiv : st.ivlen.toNat ≠ 0) {C : List Byte}
    (hC : C.length = st.dlen.toNat) :
    stagedTag (aesBlk ek nr) st C = gcmTagRef ek nr (ivOf st) (aadOf st) C := by
  have hE : aesBlk ek nr = aesBlkRef ek nr := funext fun x => aesBlk_eq_ref ek hlegal x
  have hA : (aadOf st).length = st.alen.toNat := length_region _ _
  rw [stagedTag, y0Block, if_neg hiv, hE, gcmTagRef, ghashRef_message, hA, hC]

end Sys2Proof.Machine
end

section
/-! SUPPORT. The phases EXECUTE and WRITEBACK on a GCM operation whose regions answer (47_process.md R320 to R326). -/

namespace Sys2Proof.Machine

variable {s : State} (j : BitVec 32)

/-! ### WRBACK -/

/-- A write to the buffer over the memory `m`: the address does not depend on what memory holds. -/
theorem bufWrite_over (m : List Host.Cell) {off : BitVec 32} {B : List Byte} (h : bufOk s off.toNat B.length = true) :
    bufWrite { s with mem := m } off.toNat B = .ok { s with mem := writeBytes m (bufAddr s off) B } :=
  bufWrite_answers (s := { s with mem := m }) h

/-- The tag has its sixteen bytes. -/
theorem bufOk_tag {off : Nat} (v : Block) (h : bufOk s off 16 = true) : bufOk s off (bytes128 v).length = true := by
  rwa [bytes128_length]

/-- WRBACK where output and tag answer (47 R325). -/
theorem wrBack_answers (hout : bufOk s (encOf s).offset.toNat (outputOf s.stage).length = true)
    (htag : isEncrypt (encOf s) = true → bufOk s (authOf s).inject.toNat 16 = true) :
    wrBack s = .ok { s with mem := wrBackMem s, phase := .release } := by
  rw [wrBack, bufWrite_over s.mem hout, bind_ok, wrBackMem]
  cases henc : isEncrypt (encOf s) with
  | false => rfl
  | true =>
    rw [if_pos rfl, if_pos rfl, bufWrite_over _ (bufOk_tag s.work.tag (htag henc)), bind_ok, setPhase]

/-- What every address reads as after WRBACK (47 R325). -/
theorem byteOf_wrBackMem (hw : Memory.wf s.mem = true)
    (hout : bufOk s (encOf s).offset.toNat (outputOf s.stage).length = true)
    (htag : isEncrypt (encOf s) = true → bufOk s (authOf s).inject.toNat 16 = true) (x : Nat) :
    byteOf (wrBackMem s) x
      = if isEncrypt (encOf s) then
          stored (stored (byteOf s.mem) (bufAddr s (encOf s).offset) (outputOf s.stage)) (bufAddr s (authOf s).inject)
            (bytes128 s.work.tag) x
        else stored (byteOf s.mem) (bufAddr s (encOf s).offset) (outputOf s.stage) x := by
  have houtput := byteOf_writeBytes hw hout
  rw [wrBackMem]
  split
  case isTrue henc =>
    refine (byteOf_writeBytes (writeBytes_canonical hw hout) (bufOk_tag s.work.tag (htag henc)) x).trans ?_
    rw [funext houtput]
    rfl
  case isFalse => exact houtput x

/-! ### EXECUTE -/

/-- EXECUTE on decrypt when the tag of the buffer has been read (47 R321). -/
def tagRead (s : State) : State := setTagIn (blk (bufAt s (authOf s).inject.toNat 16)) (setCtxActive true s)

/-- A GCM operation after EXECUTE: the registers `w` and the output `o`, the tag made or verified (47 R320). -/
def executed (w : Work) (o : List Byte) (s : State) : State :=
  { s with work := w, stage := { s.stage with o := o }, authOk := true, ctxActive := true, phase := .writeback }

/-- EXECUTE on encrypt leaves the ciphertext and its tag (46 R278, 47 R320). -/
theorem execute_encrypts (henc : isEncrypt (encOf s) = true) :
    ∃ w, execute j s = .ok (executed w (stagedCipher (slotCipher j s) s.stage) s)
      ∧ w.tag = stagedTag (slotCipher j s) s.stage (stagedCipher (slotCipher j s) s.stage) := by
  obtain ⟨w, hexec, htag⟩ := gcmEnc_eq j (setCtxActive true s)
  refine ⟨w, ?_, htag⟩
  rw [execute, if_pos henc, hexec]
  rfl

/-- EXECUTE on decrypt reads the tag, then runs GCMDEC (47 R321). -/
theorem execute_decrypts (henc : isEncrypt (encOf s) = false) (htag : bufOk s (authOf s).inject.toNat 16 = true) :
    execute j s = (gcmDec j (tagRead s)).bind fun u => .ok (setPhase .writeback u) := by
  rw [execute, if_neg (by simp [henc]), bufRead_answers htag, bind_ok, tagRead]

/-- The plaintext under a matching tag (46 R281). -/
theorem execute_match (henc : isEncrypt (encOf s) = false) (htag : bufOk s (authOf s).inject.toNat 16 = true)
    (h : blk (bufAt s (authOf s).inject.toNat 16) = stagedTag (slotCipher j s) s.stage (payloadOf s.stage)) :
    ∃ w, execute j s = .ok (executed w (stagedCipher (slotCipher j s) s.stage) s) := by
  obtain ⟨w, hdec⟩ := gcmDec_match j (tagRead s) h
  rw [execute_decrypts j henc htag, hdec, bind_ok]
  exact ⟨w, rfl⟩

/-- No output under any other tag (46 R285). -/
theorem execute_mismatch (henc : isEncrypt (encOf s) = false) (htag : bufOk s (authOf s).inject.toNat 16 = true)
    (h : blk (bufAt s (authOf s).inject.toNat 16) ≠ stagedTag (slotCipher j s) s.stage (payloadOf s.stage)) :
    ∃ w, execute j s = .raise .authenticationFailure { s with work := w, authOk := false, ctxActive := true } := by
  obtain ⟨w, hdec⟩ := gcmDec_mismatch j (tagRead s) h
  rw [execute_decrypts j henc htag, hdec, bind_raise]
  exact ⟨w, rfl⟩

/-! ### The end of the command -/

/-- From WRITEBACK on: the output and, on encrypt, the tag are stored; then Success (47 R325, R330, R331). -/
theorem finish_executed {o : List Byte} (w : Work) (ho : o.length = s.stage.dlen.toNat) (hw : Memory.wf s.mem = true)
    (hout : bufOk s (encOf s).offset.toNat s.stage.dlen.toNat = true)
    (htag : bufOk s (authOf s).inject.toNat 16 = true) :
    ∃ m, finish .process (wrBack (executed w o s)) = .next (afterProcess .success { s with mem := m })
      ∧ ∀ x, byteOf m x
          = if isEncrypt (encOf s) then
              stored (stored (byteOf s.mem) (bufAddr s (encOf s).offset) o) (bufAddr s (authOf s).inject)
                (bytes128 w.tag) x
            else stored (byteOf s.mem) (bufAddr s (encOf s).offset) o x := by
  have houtput : outputOf (executed w o s).stage = o := region_of_length ho
  have hout' : bufOk (executed w o s) (encOf (executed w o s)).offset.toNat (outputOf (executed w o s).stage).length
      = true := by rw [houtput, ho]; exact hout
  refine ⟨wrBackMem (executed w o s), ?_, fun x => ?_⟩
  · rw [wrBack_answers hout' fun _ => htag]
    rfl
  · rw [byteOf_wrBackMem (s := executed w o s) hw hout' fun _ => htag, houtput]
    rfl

end Sys2Proof.Machine
end

section
/-! SUPPORT. PROCESS on a valid GCM operation from its chain to phase EXECUTE (44_staging_iv.md R212 to R222;
47_process.md R300 to R320). -/

namespace Sys2Proof.Machine

variable {n : Nat} {s : State} {enc auth : DEntry}

/-! ### The IV -/

/-- An IV that is not generated is the given one (44 R219, R221). -/
theorem ivDerive_given {j : BitVec 32} (hg : ivGenerated (encOf s) = false) (h16 : (encOf s).ivlen.toNat ≤ 16)
    (hok : ivExplicit (encOf s) = false → bufOk s (encOf s).inject.toNat (encOf s).ivlen.toNat = true) :
    ivDerive j s = .ok (setIv (givenIv s (encOf s)) (encOf s).ivlen s) := by
  rw [givenIv]
  cases hx : ivExplicit (encOf s) with
  | true => rw [ivDerive_explicit hx, explicitIv_within _ h16, if_pos rfl]
  | false => rw [ivDerive_reads hx hg (hok hx), if_neg Bool.false_ne_true]

theorem length_givenIv (h16 : enc.ivlen.toNat ≤ 16) : (givenIv s enc).length = enc.ivlen.toNat := by
  rw [givenIv]
  split
  · rw [List.length_take, bytes128_length, Nat.min_eq_left h16]
  · exact readBytes_length _ _ _

/-- Counting changes the slot's counter alone (45 R262). -/
theorem getSlot_counted {j : BitVec 32} (hw : slotsWf s.slots = true) :
    getSlot (counted j s) j = { getSlot s j with counter := (getSlot s j).counter + 1 } := by
  rw [counted, getSlot_putSlot_same hw]

/-! ### The state at EXECUTE -/

/-- A GCM operation at phase EXECUTE: chain latched, payload and AAD staged, the IV `iv` of `k` bytes derived; `sl` and
`m` are the slots and the memory that IVDERIVE leaves. -/
def atExecute (n : Nat) (iv : List Byte) (k : BitVec 32) (sl : List (Nat × Slot)) (m : List Host.Cell) (s : State) :
    State :=
  { setIv iv k (staged (validated n s)) with slots := sl, mem := m }

variable (iv : List Byte) (k : BitVec 32) (sl : List (Nat × Slot)) (m : List Host.Cell)

theorem encOf_atExecute (h : GcmChain n s enc auth) : encOf (atExecute n iv k sl m s) = enc := h.encOf_validated

theorem authOf_atExecute (h : GcmChain n s enc auth) : authOf (atExecute n iv k sl m s) = auth := h.authOf_validated

/-- Payload, AAD and IV stand in the staging memory (44 R212, R218). -/
theorem staged_atExecute (h : GcmChain n s enc auth) (hiv : iv.length = k.toNat) :
    payloadOf (atExecute n iv k sl m s).stage = bufAt s enc.offset.toNat enc.length.toNat
      ∧ aadOf (atExecute n iv k sl m s).stage = bufAt s auth.offset.toNat auth.length.toNat
      ∧ ivOf (atExecute n iv k sl m s).stage = iv := by
  have henc := h.encOf_validated
  have hauth := h.authOf_validated
  subst henc hauth
  exact ⟨region_of_length (readBytes_length _ _ _), region_of_length (readBytes_length _ _ _), region_of_length hiv⟩

/-- A valid operation that fits the staging memory, with payload and AAD answered, is staged (44 R212). -/
theorem stageIn_validated (h : GcmChain n s enc auth) (hfit : StagingFits s enc auth) (hok : StagedOk s enc auth) :
    stageIn (validated n s) = .ok (staged (validated n s)) := by
  obtain ⟨hpayload, haad⟩ := hfit
  obtain ⟨hpayloadOk, haadOk⟩ := hok
  refine stageIn_answers ?_ ?_
  · rw [h.encOf_validated, h.authOf_validated]; exact ⟨hpayload, haad⟩
  · rw [h.encOf_validated, h.authOf_validated]; exact ⟨hpayloadOk, haadOk⟩

/-- Where the bus answers payload, AAD and IV, a PROCESS with a given IV reaches EXECUTE (47 R300). -/
theorem process_given (h : GcmChain n s enc auth) (hc : GcmChecks s enc auth) (hv : GivenIvOk s enc)
    (hfit : StagingFits s enc auth) (hok : RegionsOk s enc auth) :
    process n s
      = (execute s.regs.sid (atExecute n (givenIv s enc) enc.ivlen s.slots s.mem s)).bind fun u => wrBack u := by
  obtain ⟨hgiven, _, h16, _⟩ := id hv
  obtain ⟨hstaged, _, hbuf⟩ := hok
  rw [process_gcm h hc (.inl hv), fromStage, stageIn_validated h hfit hstaged, bind_ok]
  have henc := h.encOf_validated
  subst henc
  rw [ivDerive_given (s := staged (validated n s)) hgiven h16 hbuf, bind_ok]
  rfl

/-- With a generated IV it does so with the IV stored and the generation counted (44 R222). -/
theorem process_generated (h : GcmChain n s enc auth) (hc : GcmChecks s enc auth) (hv : GeneratedIvOk s enc)
    (hfit : StagingFits s enc auth) (hok : RegionsOk s enc auth) (hw : slotsWf s.slots = true)
    (hcount : (sessionOf s).counter.toNat ≠ 2 ^ 64 - 1) :
    process n s
      = (execute s.regs.sid
          (atExecute n (generatedIv s) 12 (counted s.regs.sid s).slots
            (writeBytes s.mem (bufAddr s enc.inject) (generatedIv s)) s)).bind fun u => wrBack u := by
  obtain ⟨hg, h12, _⟩ := id hv
  obtain ⟨hstaged, _, hbuf⟩ := hok
  rw [process_gcm h hc (.inr hv), fromStage, stageIn_validated h hfit hstaged, bind_ok]
  have henc := h.encOf_validated
  subst henc
  have hregion := hbuf ((ivGenerated_iff _).1 hg).1
  rw [h12] at hregion
  have hiv : be32 (getSlot (counted s.regs.sid s) s.regs.sid).nonce ++ be64 (getSlot s s.regs.sid).counter
      = generatedIv s := by rw [counted_nonce hw]; rfl
  rw [← hiv, ivDerive_generates (s := staged (validated n s)) hg hcount hregion, bind_ok]
  rfl

end Sys2Proof.Machine
end

section
/-! SUPPORT. PROCESS on a valid GCM operation from phase EXECUTE to its end, against the GCM equations (46_gcm_engine.md
R278, R281; 47_process.md R320 to R331). -/

namespace Sys2Proof.Machine

/-- The output of the operation `enc` of the session under the IV `iv`, as the GCM equations give it (46 R278, R281). -/
def outputRef (s : State) (enc : DEntry) (iv : List Byte) : List Byte :=
  gcmCipherRef (sessionOf s).ek (sessionOf s).rounds iv (bufAt s enc.offset.toNat enc.length.toNat)

/-- The tag of the ciphertext `C` and the AAD of `auth` under the session and the IV `iv` (46 R278). -/
def tagRef (s : State) (auth : DEntry) (iv C : List Byte) : Block :=
  gcmTagRef (sessionOf s).ek (sessionOf s).rounds iv (bufAt s auth.offset.toNat auth.length.toNat) C

/-- The block encryption of the session in REG.SID. -/
def sessionCipher (s : State) : Block → Block := aesBlk (sessionOf s).ek (sessionOf s).rounds

variable {n : Nat} {s : State} {enc auth : DEntry} {iv : List Byte} {k : BitVec 32} {sl : List (Nat × Slot)}
  {m : List Host.Cell}

variable (h : GcmChain n s enc auth) (hlen : iv.length = k.toNat) (hpos : k.toNat ≠ 0)
  (hlegal : legalRounds (sessionOf s).rounds = true)
include h

theorem dlen_atExecute : (atExecute n iv k sl m s).stage.dlen = enc.length :=
  congrArg DEntry.length h.encOf_validated

include hlen hpos hlegal

/-- What is staged gives the output the GCM equations give for the operation's regions. -/
theorem stagedCipher_atExecute :
    stagedCipher (sessionCipher s) (atExecute n iv k sl m s).stage = outputRef s enc iv := by
  obtain ⟨hpayload, _, hiv⟩ := staged_atExecute iv k sl m h hlen
  rw [sessionCipher, stagedCipher_eq_gcmCipherRef hlegal hpos, hpayload, hiv, outputRef]

theorem stagedTag_atExecute {C : List Byte} (hC : C.length = enc.length.toNat) :
    stagedTag (sessionCipher s) (atExecute n iv k sl m s).stage C = tagRef s auth iv C := by
  obtain ⟨_, haad, hiv⟩ := staged_atExecute iv k sl m h hlen
  rw [sessionCipher, stagedTag_eq_gcmTagRef hlegal hpos (by rw [dlen_atExecute h, hC]), haad, hiv, tagRef]

/-- On decrypt the payload is the ciphertext. -/
theorem stagedTag_payload_atExecute :
    stagedTag (sessionCipher s) (atExecute n iv k sl m s).stage (payloadOf (atExecute n iv k sl m s).stage)
      = tagRef s auth iv (bufAt s enc.offset.toNat enc.length.toNat) := by
  obtain ⟨hpayload, _⟩ := staged_atExecute iv k sl m h hlen
  rw [hpayload]
  exact stagedTag_atExecute h hlen hpos hlegal (readBytes_length _ _ _)

variable (hok : RegionsOk s enc auth)
include hok

/-- An encryption ends with ciphertext and tag stored over the memory `m` that IVDERIVE leaves (46 R278, 47 R325). -/
theorem finish_atExecute_encrypts (hm : Memory.wf m = true) (henc : isEncrypt enc = true)
    (hkey : slotCipher s.regs.sid (atExecute n iv k sl m s) = sessionCipher s) :
    ∃ m', finish .process ((execute s.regs.sid (atExecute n iv k sl m s)).bind fun u => wrBack u)
        = .next (afterProcess .success { s with slots := sl, mem := m' })
      ∧ ∀ x, byteOf m' x
          = stored (stored (byteOf m) (bufAddr s enc.offset) (outputRef s enc iv)) (bufAddr s auth.inject)
              (bytes128 (tagRef s auth iv (outputRef s enc iv))) x := by
  obtain ⟨⟨hpayload, _⟩, htag, _⟩ := hok
  have hencOf := encOf_atExecute iv k sl m h
  have hauthOf := authOf_atExecute iv k sl m h
  have hdlen := dlen_atExecute (iv := iv) (k := k) (sl := sl) (m := m) h
  have hcipher := stagedCipher_atExecute (sl := sl) (m := m) h hlen hpos hlegal
  have hlenC : (outputRef s enc iv).length = (atExecute n iv k sl m s).stage.dlen.toNat :=
    hcipher ▸ length_stagedCipher _ _
  obtain ⟨w, hexec, hw⟩ := execute_encrypts s.regs.sid (s := atExecute n iv k sl m s) (by rw [hencOf, henc])
  rw [hkey, hcipher] at hexec
  rw [hkey, hcipher, stagedTag_atExecute h hlen hpos hlegal (by rw [hlenC, hdlen])] at hw
  obtain ⟨m', hfinish, hm'⟩ := finish_executed w hlenC hm
    (by rw [hencOf, hdlen]; exact hpayload) (by rw [hauthOf]; exact htag)
  rw [hencOf, hauthOf, henc, hw] at hm'
  rw [hexec, bind_ok]
  exact ⟨m', hfinish, hm'⟩

section
variable (henc : isEncrypt enc = false)
include henc

/-- A decryption under a matching tag ends with the plaintext stored (46 R281, 47 R325). -/
theorem finish_atExecute_match (hm : Memory.wf s.mem = true)
    (hmatch : blk (bufAt s auth.inject.toNat 16) = tagRef s auth iv (bufAt s enc.offset.toNat enc.length.toNat)) :
    ∃ m', finish .process ((execute s.regs.sid (atExecute n iv k s.slots s.mem s)).bind fun u => wrBack u)
        = .next (afterProcess .success { s with mem := m' })
      ∧ ∀ x, byteOf m' x = stored (byteOf s.mem) (bufAddr s enc.offset) (outputRef s enc iv) x := by
  obtain ⟨⟨hpayload, _⟩, htag, _⟩ := hok
  have hencOf := encOf_atExecute iv k s.slots s.mem h
  have hauthOf := authOf_atExecute iv k s.slots s.mem h
  have hdlen := dlen_atExecute (iv := iv) (k := k) (sl := s.slots) (m := s.mem) h
  have hcipher := stagedCipher_atExecute (sl := s.slots) (m := s.mem) h hlen hpos hlegal
  have hlenP : (outputRef s enc iv).length = (atExecute n iv k s.slots s.mem s).stage.dlen.toNat :=
    hcipher ▸ length_stagedCipher _ _
  have hT := stagedTag_payload_atExecute (sl := s.slots) (m := s.mem) h hlen hpos hlegal
  have hkey : slotCipher s.regs.sid (atExecute n iv k s.slots s.mem s) = sessionCipher s := rfl
  obtain ⟨w, hexec⟩ := execute_match s.regs.sid (s := atExecute n iv k s.slots s.mem s) (by rw [hencOf, henc])
    (by rw [hauthOf]; exact htag) (by rw [hauthOf, hkey, hT]; exact hmatch)
  rw [hkey, hcipher] at hexec
  obtain ⟨m', hfinish, hm'⟩ := finish_executed w hlenP hm
    (by rw [hencOf, hdlen]; exact hpayload) (by rw [hauthOf]; exact htag)
  rw [hencOf, henc] at hm'
  rw [hexec, bind_ok]
  exact ⟨m', hfinish, hm'⟩

/-- A decryption under another tag ends without it (46 R285). -/
theorem finish_atExecute_mismatch
    (hdiffer : blk (bufAt s auth.inject.toNat 16) ≠ tagRef s auth iv (bufAt s enc.offset.toNat enc.length.toNat)) :
    finish .process ((execute s.regs.sid (atExecute n iv k s.slots s.mem s)).bind fun u => wrBack u)
      = .next (afterProcess .authenticationFailure s) := by
  obtain ⟨_, htag, _⟩ := hok
  have hencOf := encOf_atExecute iv k s.slots s.mem h
  have hauthOf := authOf_atExecute iv k s.slots s.mem h
  have hT := stagedTag_payload_atExecute (sl := s.slots) (m := s.mem) h hlen hpos hlegal
  have hkey : slotCipher s.regs.sid (atExecute n iv k s.slots s.mem s) = sessionCipher s := rfl
  obtain ⟨w, hexec⟩ := execute_mismatch s.regs.sid (s := atExecute n iv k s.slots s.mem s) (by rw [hencOf, henc])
    (by rw [hauthOf]; exact htag) (by rw [hauthOf, hkey, hT]; exact hdiffer)
  rw [hexec, bind_raise]
  rfl

end

end Sys2Proof.Machine
end

section
/-! The statements about PROCESS on a GCM operation (46_gcm_engine.md R278, R281; 47_process.md R300 to
R331), settled. -/

namespace Sys2Proof.Machine

/-- The schedule of the session in a state that has counted a generation (45 R262). -/
theorem slotCipher_counted {s : State} (hw : slotsWf s.slots = true) (n : Nat) (iv : List Byte) (k : BitVec 32)
    (m : List Host.Cell) :
    slotCipher s.regs.sid (atExecute n iv k (counted s.regs.sid s).slots m s) = sessionCipher s := by
  have hslot : getSlot (atExecute n iv k (counted s.regs.sid s).slots m s) s.regs.sid
      = { sessionOf s with counter := (sessionOf s).counter + 1 } := getSlot_counted hw
  rw [slotCipher, hslot, sessionCipher]

/-- Settles O53: both kinds of IV lead to EXECUTE; a generated one is in memory and counted by then. -/
theorem processEncrypts : Obligations.ProcessEncrypts := by
  intro n s enc auth hchain hchecks hfit hok ⟨hmem, hslots⟩ hlegal henc ek nr P A out
  have hexec : exec (.process n) s = finish .process (process n s) := rfl
  refine ⟨fun hv => ?_, fun hv hcount => ?_⟩
  · obtain ⟨_, h1, h16, _⟩ := id hv
    rw [hexec, process_given hchain hchecks hv hfit hok]
    obtain ⟨m, hfinish, hm⟩ := finish_atExecute_encrypts (sl := s.slots) hchain (length_givenIv h16) (by omega)
      hlegal hok hmem henc rfl
    exact ⟨_, hfinish, rfl, hm⟩
  · obtain ⟨hg, h12, _⟩ := id hv
    obtain ⟨_, _, hbuf⟩ := id hok
    have hregion : bufOk s enc.inject.toNat (generatedIv s).length = true := by
      have hiv := hbuf ((ivGenerated_iff _).1 hg).1
      rwa [h12] at hiv
    have hstored : byteOf (writeBytes s.mem (bufAddr s enc.inject) (generatedIv s))
        = stored (byteOf s.mem) (bufAddr s enc.inject) (generatedIv s) := funext (byteOf_writeBytes hmem hregion)
    rw [hexec, process_generated hchain hchecks hv hfit hok hslots hcount]
    obtain ⟨m, hfinish, hm⟩ := finish_atExecute_encrypts (k := 12) (iv := generatedIv s)
      (m := writeBytes s.mem (bufAddr s enc.inject) (generatedIv s)) hchain rfl (by decide) hlegal hok
      (writeBytes_canonical hmem hregion) henc (slotCipher_counted hslots _ _ _ _)
    rw [hstored] at hm
    exact ⟨_, (sessionOf s).counter + 1, hfinish, rfl, hm, counter_succ_toNat hcount, slotOf_putSlot hslots _ _⟩

/-- Settles O54: EXECUTE compares the tag in the buffer with that of the staged ciphertext. -/
theorem processDecrypts : Obligations.ProcessDecrypts := by
  intro n s enc auth hchain hchecks hv hfit hok ⟨hmem, _⟩ hlegal henc ek nr C A iv
  have hexec : exec (.process n) s = finish .process (process n s) := rfl
  obtain ⟨_, h1, h16, _⟩ := id hv
  have hlen := length_givenIv (s := s) h16
  rw [hexec, process_given hchain hchecks hv hfit hok]
  refine ⟨fun hmatch => ?_, fun hdiffer => ?_⟩
  · obtain ⟨m, hfinish, hm⟩ := finish_atExecute_match hchain hlen (by omega) hlegal hok henc hmem hmatch
    exact ⟨_, hfinish, rfl, hm⟩
  · exact finish_atExecute_mismatch hchain hlen (by omega) hlegal hok henc hdiffer

end Sys2Proof.Machine
end

section
/-! SUPPORT. Validation turns down every malformed chain (47_process.md R303 to R311): what each check that passes rules
out. -/

namespace Sys2Proof.Machine

variable {s : State} {n : Nat} {enc auth : DEntry} {slot : Slot} {bufLen : Nat}

/-- The regions V7 bounds: the payload, and under GCM the AAD, the tag and an IV in the buffer (47 R309). -/
theorem checkV7_iff :
    checkV7 slot bufLen enc auth = true
      ↔ enc.offset.toNat + enc.length.toNat ≤ bufLen
          ∧ (slot.tag = .gcm →
              auth.offset.toNat + auth.length.toNat ≤ bufLen ∧ auth.inject.toNat + 16 ≤ bufLen
                ∧ (ivExplicit enc = false → enc.inject.toNat + ivBufferLength enc ≤ bufLen)) := by
  simp only [checkV7, Bool.and_eq_true, Bool.or_eq_true, decide_eq_true_eq, ne_eq, and_assoc, ← imp_iff_not_or]
  rw [← Bool.not_eq_true, ← or_iff_not_imp_left]

/-- Under GCM, V7 and V8 leave no bad IV (47 R309 (d), R310). -/
theorem not_badIv (h7 : checkV7 (sessionOf s) s.regs.bufLen.toNat enc auth = true)
    (h8 : checkV8 (sessionOf s) enc = true) (hgcm : (sessionOf s).tag = .gcm) : ¬BadIv s enc := by
  obtain ⟨_, hregions⟩ := checkV7_iff.1 h7
  obtain ⟨_, _, hiv⟩ := hregions hgcm
  rintro (⟨hg, hbad⟩ | ⟨hg, hbad⟩)
  · have h12 : enc.ivlen.toNat = 12 := by simpa [checkV8, hgcm, hg] using h8
    have hin := hiv ((ivGenerated_iff _).1 hg).1
    rw [ivBufferLength, if_pos hg] at hin
    omega
  · have hlen : 1 ≤ enc.ivlen.toNat ∧ enc.ivlen.toNat ≤ 16 := by simpa [checkV8, hgcm, hg] using h8
    rw [ivBufferLength, hg] at hiv
    rcases hbad with h | h | ⟨hx, h⟩
    · omega
    · omega
    · exact absurd (hiv hx) (by simpa using h)

/-- A chain that passes V1 to V8 is not malformed: the sub-descriptor that `Malformed` speaks of is the one the checks
were made on, for there is no other of its kind (V3, V5). -/
theorem not_malformed_of_checksPass (h : checksPass (fetched n s) = true) : ¬Malformed n s := by
  have hds : descriptors (fetched n s) = chainEntries n s := rfl
  have hslot : sessionOf (fetched n s) = sessionOf s := rfl
  have hregs : (fetched n s).regs = s.regs := rfl
  simp only [checksPass, hds, hslot, hregs, Bool.and_eq_true, and_assoc] at h
  obtain ⟨h1, h2, h3, h4, h5, h6, h7, h8⟩ := h
  have hone : (chainEntries n s).countP (fun d => isEncAlg d.alg) = 1 := of_decide_eq_true h3
  have hauths : (sessionOf s).tag = .gcm → (chainEntries n s).countP (fun d => isAuthAlg d.alg) = 1 := fun hgcm => by
    rw [checkV5, if_pos hgcm] at h5; exact of_decide_eq_true h5
  obtain ⟨hpayload, hregions⟩ := checkV7_iff.1 h7
  rintro (hsession | ⟨d, hd, hrec⟩ | hcount | ⟨enc, hmem, halg, hbad⟩ | ⟨auth, hmem, halg, hgcm, hbad⟩)
  · obtain ⟨hin, hused⟩ := (Bool.and_eq_true _ _).mp h1
    rcases hsession with hno | hno
    · exact Bool.false_ne_true (hno.symm.trans hin)
    · exact Bool.false_ne_true (hno.symm.trans hused)
  · exact Bool.false_ne_true (hrec.symm.trans (List.all_eq_true.1 h2 d hd))
  · exact hcount hone
  · have henc : (chainEntries n s).getD (encIndex (chainEntries n s)) (decodeD []) = enc :=
      getD_findIdx _ hone hmem halg
    rw [henc] at h4 h6 h7 h8 hpayload
    rcases hbad with htag | ⟨hgcm, hcount⟩ | ⟨hgcm, hcount⟩ | ⟨hgcm, hlen⟩ | hlong | ⟨hgcm, hiv⟩
    · exact htag (of_decide_eq_true h4)
    · exact hcount (hauths hgcm)
    · rw [checkV5, if_neg hgcm] at h5; exact hcount (of_decide_eq_true h5)
    · exact hlen (by simpa [checkV6, hgcm] using h6)
    · omega
    · exact not_badIv h7 h8 hgcm hiv
  · have hauth : (chainEntries n s).getD (authIndex (chainEntries n s)) (decodeD []) = auth :=
      getD_findIdx _ (hauths hgcm) hmem halg
    obtain ⟨haad, htag, _⟩ := hregions hgcm
    rw [hauth] at haad htag
    omega

/-- A malformed PROCESS ends in phase VALIDATE (47 R311, R313). -/
theorem process_malformed (hok : chainOk s 64 n = true) (h : Malformed n s) :
    process n s = .raise .invalidArgument (fetched n s) := by
  have hfails : ¬checksPass (fetched n s) = true := fun hpass => not_malformed_of_checksPass hpass h
  have hvalidate : validate (fetched n s) = .raise .invalidArgument (fetched n s) := if_neg hfails
  rw [process, fetchChain_process hok, bind_ok, hvalidate, bind_raise]

end Sys2Proof.Machine
end

section
/-! SUPPORT. All that a PROCESS on a GCM chain can have done when it ends (47_process.md R326 (d), R333; 20_memory.md
R81): the phases up to EXECUTE leave `atExecute`, and what they and WRITEBACK write is a generated IV, its count, the
output and the tag. -/

namespace Sys2Proof.Machine

variable {s t u : State} {n : Nat} {enc auth : DEntry} {j : BitVec 32} {e : Status} {sl : List (Nat × Slot)}
  {m : List Host.Cell}

/-! ### The phases up to EXECUTE -/

/-- The slots `sl` and the memory `m` that IVDERIVE leaves: as they were, or with one generation counted and its twelve
bytes stored (44 R218, R222). -/
def IvTables (s : State) (enc : DEntry) (sl : List (Nat × Slot)) (m : List Host.Cell) : Prop :=
  (sl = s.slots ∧ m = s.mem)
    ∨ (ivGenerated enc = true ∧ sl = (counted s.regs.sid s).slots
        ∧ ∃ iv : List Byte, iv.length = 12 ∧ m = writeBytes s.mem (bufAddr s enc.inject) iv)

theorem validate_fetched (h : validate (fetched n s) = .ok t) : t = validated n s := by
  obtain ⟨_, _, rfl⟩ := validate_ok h
  rfl

theorem ivDerive_atExecute (h : GcmChain n s enc auth)
    (hiv : ivDerive s.regs.sid (staged (validated n s)) = .ok t) :
    ∃ iv k sl m, t = atExecute n iv k sl m s ∧ IvTables s enc sl m := by
  have henc : encOf (staged (validated n s)) = enc := h.encOf_validated
  obtain ⟨_, rfl⟩ | ⟨hg, _, v, iv, rfl, rfl, _, rfl⟩ | ⟨_, _, rfl⟩ := ivDerive_ok hiv
  · exact ⟨_, _, s.slots, s.mem, rfl, .inl ⟨rfl, rfl⟩⟩
  · rw [henc] at hg ⊢
    exact ⟨_, _, (counted s.regs.sid s).slots, _, rfl, .inr ⟨hg, rfl, _, length_nonce_counter _ _, rfl⟩⟩
  · exact ⟨_, _, s.slots, s.mem, rfl, .inl ⟨rfl, rfl⟩⟩

/-- EXECUTE that goes on has changed `W`, the output and the flags alone (47 R320). -/
theorem execute_executed (h : execute j s = .ok t) : ∃ w o, t = executed w o s := by
  cases henc : isEncrypt (encOf s) with
  | true =>
    obtain ⟨w, hexec, _⟩ := execute_encrypts j henc
    cases h.symm.trans hexec
    exact ⟨w, _, rfl⟩
  | false =>
    have htag : bufOk s (authOf s).inject.toNat 16 = true := by
      rw [execute, if_neg (by simp [henc])] at h
      obtain ⟨_, hread, _⟩ := bind_eq_ok h
      exact (memRead_ok hread).1
    by_cases hmatch : blk (bufAt s (authOf s).inject.toNat 16) = stagedTag (slotCipher j s) s.stage (payloadOf s.stage)
    case pos =>
      obtain ⟨w, hexec⟩ := execute_match j henc htag hmatch
      cases h.symm.trans hexec
      exact ⟨w, _, rfl⟩
    case neg =>
      obtain ⟨w, hexec⟩ := execute_mismatch j henc htag hmatch
      cases h.symm.trans hexec

/-- A PROCESS that goes on to its normal end has reached WRITEBACK (47 R300). -/
theorem process_ok (h : GcmChain n s enc auth) (hp : process n s = .ok u) :
    ∃ iv k sl m w o, IvTables s enc sl m ∧ wrBack (executed w o (atExecute n iv k sl m s)) = .ok u := by
  obtain ⟨hok, _⟩ := id h
  rw [process, fetchChain_process hok, bind_ok] at hp
  obtain ⟨s2, h2, hp⟩ := bind_eq_ok hp
  obtain rfl := validate_fetched h2
  obtain ⟨s3, h3, hp⟩ := bind_eq_ok hp
  obtain ⟨_, rfl⟩ := stageIn_ok h3
  obtain ⟨s4, h4, hp⟩ := bind_eq_ok hp
  obtain ⟨iv, k, sl, m, rfl, htables⟩ := ivDerive_atExecute h h4
  obtain ⟨s5, h5, hp⟩ := bind_eq_ok hp
  obtain ⟨w, o, rfl⟩ := execute_executed h5
  exact ⟨iv, k, sl, m, w, o, htables, hp⟩

/-- EXECUTE raises on decrypt alone (46 R284). -/
theorem execute_raise_decrypts (h : execute j s = .raise e t) : isEncrypt (encOf s) = false := by
  refine eq_false_of_ne_true fun henc => ?_
  obtain ⟨_, hexec, _⟩ := execute_encrypts j henc
  cases h.symm.trans hexec

theorem IvTables.of_decrypt (h : IvTables s enc sl m) (henc : isEncrypt enc = false) : sl = s.slots ∧ m = s.mem := by
  rcases h with h | ⟨hg, _⟩
  · exact h
  · rw [ivGenerated, henc] at hg; cases hg

/-- A PROCESS that raises has written neither memory nor slots: EXECUTE raises on decrypt, where no IV is generated (47
R326 (d)). -/
theorem process_raise (h : GcmChain n s enc auth) (hp : process n s = .raise e u) :
    u.mem = s.mem ∧ u.slots = s.slots ∧ u.cap = s.cap := by
  obtain ⟨hok, _⟩ := id h
  rw [process, fetchChain_process hok, bind_ok] at hp
  rcases bind_eq_raise hp with h2 | ⟨s2, h2, hp⟩
  · obtain ⟨_, _, rfl⟩ := validate_raise h2
    exact ⟨rfl, rfl, rfl⟩
  obtain rfl := validate_fetched h2
  rcases bind_eq_raise hp with h3 | ⟨s3, h3, hp⟩
  · obtain ⟨_, _, rfl⟩ := stageIn_raise h3
    exact ⟨rfl, rfl, rfl⟩
  obtain ⟨_, rfl⟩ := stageIn_ok h3
  rcases bind_eq_raise hp with h4 | ⟨s4, h4, hp⟩
  · exact absurd h4 ivDerive_no_raise
  obtain ⟨iv, k, sl, m, rfl, htables⟩ := ivDerive_atExecute h h4
  rcases bind_eq_raise hp with h5 | ⟨s5, h5, hp⟩
  · have henc := execute_raise_decrypts h5
    rw [encOf_atExecute iv k sl m h] at henc
    obtain ⟨rfl, rfl⟩ := htables.of_decrypt henc
    obtain ⟨_, rfl⟩ := execute_raise h5
    exact ⟨rfl, rfl, rfl⟩
  · exact absurd hp wrBack_no_raise

/-! ### What is written -/

/-- A store changes no byte outside its region (20 R63). -/
theorem changed_in_writeBytes {a x : Nat} {B : List Byte} (h : byteOf (writeBytes m a B) x ≠ byteOf m x) :
    a ≤ x ∧ x < a + B.length := by
  by_contra hx
  exact h (byteOf_writeBytes_outside m a B (by omega))

theorem IvTables.changed_byte (h : IvTables s enc sl m) {x : Nat} (hx : byteOf m x ≠ byteOf s.mem x) :
    ivGenerated enc = true ∧ bufAddr s enc.inject ≤ x ∧ x < bufAddr s enc.inject + 12 := by
  obtain ⟨_, rfl⟩ | ⟨hg, _, iv, hlen, rfl⟩ := h
  · exact absurd rfl hx
  · have hin := changed_in_writeBytes hx
    rw [hlen] at hin
    exact ⟨hg, hin⟩

theorem IvTables.slot_eq (h : IvTables s enc sl m) {k : Nat} (hk : k ≠ s.regs.sid.toNat ∨ ivGenerated enc = false) :
    slotOf sl k = slotOf s.slots k := by
  obtain ⟨rfl, _⟩ | ⟨hg, rfl, _⟩ := h
  · rfl
  · exact slotOf_cellWrite_other _ (hk.resolve_right (by simp [hg])) _

theorem IvTables.session_eq (h : IvTables s enc sl m) (hw : slotsWf s.slots = true) :
    ∃ c, slotOf sl s.regs.sid.toNat = { sessionOf s with counter := c } := by
  obtain ⟨rfl, _⟩ | ⟨_, rfl, _⟩ := h
  · exact ⟨(sessionOf s).counter, rfl⟩
  · exact ⟨_, slotOf_cellWrite_same hw _ _⟩

/-- WRBACK changes bytes of the output and, on encrypt, of the tag (47 R325). -/
theorem changed_in_wrBackMem {x : Nat} (h : byteOf (wrBackMem s) x ≠ byteOf s.mem x) :
    (bufAddr s (encOf s).offset ≤ x ∧ x < bufAddr s (encOf s).offset + s.stage.dlen.toNat)
      ∨ (isEncrypt (encOf s) = true ∧ bufAddr s (authOf s).inject ≤ x ∧ x < bufAddr s (authOf s).inject + 16) := by
  have hlen : (outputOf s.stage).length = s.stage.dlen.toNat := length_region _ _
  rw [wrBackMem] at h
  split at h
  case isTrue henc =>
    by_cases hout : byteOf (writeBytes s.mem (bufAddr s (encOf s).offset) (outputOf s.stage)) x = byteOf s.mem x
    · rw [← hout] at h
      have htag := changed_in_writeBytes h
      rw [bytes128_length] at htag
      exact .inr ⟨henc, htag⟩
    · exact .inl (hlen ▸ changed_in_writeBytes hout)
  case isFalse => exact .inl (hlen ▸ changed_in_writeBytes h)

/-- All the bytes an operation that has been written back can have changed (47 R326 (d), 20 R81). -/
theorem IvTables.changed_by_wrBack (htables : IvTables s enc sl m) (h : GcmChain n s enc auth) (iv : List Byte)
    (k : BitVec 32) (w : Work) (o : List Byte) {x : Nat}
    (hx : byteOf (wrBackMem (executed w o (atExecute n iv k sl m s))) x ≠ byteOf s.mem x) :
    (bufAddr s enc.offset ≤ x ∧ x < bufAddr s enc.offset + enc.length.toNat)
      ∨ (isEncrypt enc = true ∧ bufAddr s auth.inject ≤ x ∧ x < bufAddr s auth.inject + 16)
      ∨ (ivGenerated enc = true ∧ bufAddr s enc.inject ≤ x ∧ x < bufAddr s enc.inject + 12) := by
  by_cases hm : byteOf m x = byteOf s.mem x
  · rw [← hm] at hx
    have hin := changed_in_wrBackMem (s := executed w o (atExecute n iv k sl m s)) hx
    have henc : encOf (executed w o (atExecute n iv k sl m s)) = enc := encOf_atExecute iv k sl m h
    have hauth : authOf (executed w o (atExecute n iv k sl m s)) = auth := authOf_atExecute iv k sl m h
    have hdlen : (executed w o (atExecute n iv k sl m s)).stage.dlen = enc.length :=
      dlen_atExecute (iv := iv) (k := k) (sl := sl) (m := m) h
    rw [henc, hauth, hdlen] at hin
    exact hin.imp_right .inl
  · exact .inr (.inr (htables.changed_byte hm))

end Sys2Proof.Machine
end

section
/-! The statements about WRBACK, SCRUB, an invalid PROCESS and the frame of PROCESS (47_process.md R302 to R333),
settled. -/

namespace Sys2Proof.Machine

/-- Settles O52: SCRUB is one update of the call-scoped state. -/
theorem scrubZeroes : Obligations.ScrubZeroes := ⟨rfl, fun _ => rfl⟩

/-- Settles O51: two stores, the tag over the memory that the output leaves. -/
theorem wrbackWrites : Obligations.WrbackWrites := by
  refine ⟨rfl, fun s ⟨hmem, _⟩ => ?_⟩
  intro enc auth out
  have hexec : exec .wrback s = settle .process (wrBack s) := rfl
  have hlen : (outputOf s.stage).length = s.stage.dlen.toNat := length_region _ _
  rw [← hlen]
  refine ⟨fun hout htag => ?_, fun hno => settle_refusesAccess _ ?_⟩
  · refine ⟨_, hexec.trans (congrArg (settle .process) (wrBack_answers hout htag)), rfl, ?_⟩
    exact byteOf_wrBackMem hmem hout htag
  · rcases hno with hno | ⟨henc, hno⟩
    · exact (bufWrite_unanswered hno).bind _
    · exact wrBack_unanswered henc hno

/-- Settles O55: validation finds the failing check before any other phase has run. -/
theorem processInvalid : Obligations.ProcessInvalid := by
  intro n s hok hbad
  exact congrArg (finish .process) (process_malformed hok hbad)

/-- Settles O57: either the command raised and wrote nothing, or it wrote back over the tables IVDERIVE left. -/
theorem processFrame : Obligations.ProcessFrame := by
  intro n s t enc auth ⟨_, hslots⟩ hchain hexec
  rcases finish_next (c := .process) hexec with ⟨u, hp, rfl⟩ | ⟨e, u, hp, rfl⟩
  · obtain ⟨iv, k, sl, m, w, o, htables, hw⟩ := process_ok hchain hp
    obtain ⟨_, _, rfl⟩ := wrBack_ok hw
    exact ⟨fun x hx => ⟨rfl, htables.changed_by_wrBack hchain iv k w o hx⟩, fun _ hi => htables.slot_eq hi,
      htables.session_eq hslots, rfl⟩
  · obtain ⟨hmem, hsl, hcap⟩ := process_raise hchain hp
    rw [takeError_mem, takeError_slots, takeError_cap, hmem, hsl]
    exact ⟨fun x hx => absurd rfl hx, fun _ _ => rfl, ⟨(sessionOf s).counter, rfl⟩, hcap⟩

end Sys2Proof.Machine
end

section
/-! SUPPORT. How an action of a command fails (60_exceptions.md R340, R353): the status it raises is no Success, and it
refuses only for one of the four situations that a command can meet. -/

namespace Sys2Proof.Machine

/-- The situations without a meaning that a command can meet (60 R353). -/
def commandRefusals : List Refusal := [.cbcXtsDataPath, .counterExhausted, .addressPastEnd, .hostAccessFailed]

/-- `x` raises no Success and refuses for none but these. -/
def Act.FailsByName {α : Type} (x : Act α) : Prop :=
  match x with
  | .ok _ => True
  | .raise e _ => e ≠ .success
  | .refuse r => r ∈ commandRefusals

theorem Act.FailsByName.bind {α β : Type} {x : Act α} {f : α → Act β} (hx : x.FailsByName)
    (hf : ∀ a, (f a).FailsByName) : (x.bind f).FailsByName := by
  cases x with
  | ok a => exact hf a
  | raise e s => exact hx
  | refuse r => exact hx

theorem Act.failsByName_refuse {α : Type} {r : Refusal} (h : r ∈ commandRefusals) :
    (Act.refuse r : Act α).FailsByName := h

theorem Act.Unanswered.failsByName {α : Type} {x : Act α} (h : x.Unanswered) : x.FailsByName := by
  rcases h with rfl | rfl
  · exact Act.failsByName_refuse (by decide)
  · exact Act.failsByName_refuse (by decide)

variable {s : State}

/-! ### Host memory -/

theorem memRead_failsByName (a n : Nat) : (memRead s a n).FailsByName := by
  cases h : accessOk s.cfg a n with
  | true => rw [memRead_answers h]; trivial
  | false => exact Act.Unanswered.failsByName (memRead_refuses h)

theorem memWrite_failsByName (a : Nat) (B : List Byte) : (memWrite s a B).FailsByName := by
  cases h : accessOk s.cfg a B.length with
  | true => rw [memWrite_answers h]; trivial
  | false => exact Act.Unanswered.failsByName (memWrite_refuses h)

theorem fetchChain_failsByName (E n : Nat) : (fetchChain E n s).FailsByName := by
  cases h : chainOk s E n with
  | true => rw [fetchChain_answers h]; trivial
  | false => exact Act.Unanswered.failsByName (fetchChain_refuses h)

/-! ### Sessions -/

theorem slookup_failsByName (sid : BitVec 32) : (slookup sid s).FailsByName := by
  unfold slookup
  split
  · trivial
  · exact Status.noConfusion

theorem sgrow_failsByName : (sgrow s).FailsByName := by
  unfold sgrow
  split
  · exact Status.noConfusion
  · trivial

theorem salloc_failsByName : (salloc s).FailsByName := by
  unfold salloc
  split
  · trivial
  · exact sgrow_failsByName.bind fun _ => trivial

theorem lease_failsByName (j : BitVec 32) : (lease j s).FailsByName := by
  unfold lease
  split
  · split
    · exact Status.noConfusion
    · trivial
  · trivial

theorem keySetup_failsByName (j : BitVec 32) (t : Tag) (e : KEntry) : (keySetup j t e s).FailsByName := by
  unfold keySetup
  split
  · exact (memRead_failsByName _ _).bind fun _ => trivial
  · exact Status.noConfusion

theorem ctrFai_failsByName (j : BitVec 32) : (ctrFai j s).FailsByName := by
  unfold ctrFai
  split
  · exact Act.failsByName_refuse (by decide)
  · trivial

/-! ### The phases of PROCESS -/

theorem validate_failsByName : (validate s).FailsByName := by
  unfold validate
  split
  · split
    · trivial
    · exact Act.failsByName_refuse (by decide)
  · exact Status.noConfusion

theorem stageIn_failsByName : (stageIn s).FailsByName := by
  unfold stageIn
  split
  · exact Status.noConfusion
  · exact (memRead_failsByName _ _).bind fun _ => (memRead_failsByName _ _).bind fun _ => trivial

theorem ivDerive_failsByName (j : BitVec 32) : (ivDerive j s).FailsByName := by
  unfold ivDerive
  dsimp only
  split
  · trivial
  · split
    · exact (ctrFai_failsByName j).bind fun _ => (memWrite_failsByName _ _).bind fun _ => trivial
    · exact (memRead_failsByName _ _).bind fun _ => trivial

theorem tagVfy_failsByName : (tagVfy s).FailsByName := by
  unfold tagVfy
  split
  · trivial
  · exact Status.noConfusion

theorem gcmDec_failsByName (j : BitVec 32) : (gcmDec j s).FailsByName := tagVfy_failsByName.bind fun _ => trivial

theorem execute_failsByName (j : BitVec 32) : (execute j s).FailsByName := by
  unfold execute
  split
  · trivial
  · exact (memRead_failsByName _ _).bind fun _ => (gcmDec_failsByName j).bind fun _ => trivial

theorem wrBack_failsByName : (wrBack s).FailsByName := by
  unfold wrBack
  refine (memWrite_failsByName _ _).bind fun _ => ?_
  split
  · exact (memWrite_failsByName _ _).bind fun _ => trivial
  · trivial

/-! ### The commands -/

theorem newSession_failsByName (n : Nat) : (newSession n s).FailsByName := by
  refine (fetchChain_failsByName 32 n).bind fun s1 => ?_
  cases sessionEntry s1.chain.entries with
  | none => exact Status.noConfusion
  | some te =>
    exact salloc_failsByName.bind fun r => (lease_failsByName r.1).bind fun _ =>
      (keySetup_failsByName r.1 te.1 te.2).bind fun _ => trivial

theorem freeSession_failsByName : (freeSession s).FailsByName :=
  (slookup_failsByName s.regs.sid).bind fun _ => trivial

theorem process_failsByName (n : Nat) : (process n s).FailsByName :=
  (fetchChain_failsByName 64 n).bind fun _ => validate_failsByName.bind fun _ => stageIn_failsByName.bind fun _ =>
    (ivDerive_failsByName s.regs.sid).bind fun _ => (execute_failsByName s.regs.sid).bind fun _ => wrBack_failsByName

end Sys2Proof.Machine
end

section
/-! SUPPORT. What sets DONE (60_exceptions.md R346; log 1, log 2, log 14): the end of a command, and of the
micro-operations those that raise. -/

namespace Sys2Proof.Machine

variable {s t : State}

/-! ### Commands -/

/-- The outcome is a completion that leaves the engine idle, or one of the four refusals (60 R346, R353). -/
def Completes (o : Host.Outcome State Fault Refusal) : Prop :=
  (∃ t, o = .next t ∧ t.regs.done = true ∧ t.regs.busy = false ∧ t.phase = .idle)
    ∨ ∃ r, o = .refused r ∧ r ∈ commandRefusals

theorem finish_completes (c : Command) {x : Act State} (hx : x.FailsByName) : Completes (finish c x) := by
  cases x with
  | ok u => exact .inl ⟨endCommand c u, rfl, by simp⟩
  | raise e u => exact .inl ⟨takeError c e u, rfl, by simp⟩
  | refuse r => exact .inr ⟨r, rfl, hx⟩

theorem exec_command_completes {w : BitVec 32} {i : Instr} (h : decodeCommand w = .ok i) (s : State) :
    Completes (exec i s) := by
  obtain ⟨n, rfl⟩ | rfl | ⟨n, rfl⟩ := decodeCommand_ok h
  · exact finish_completes .newSession (newSession_failsByName n)
  · exact finish_completes .freeSession freeSession_failsByName
  · exact finish_completes .process (process_failsByName n)

/-! ### Micro-operations -/

/-- The micro-operations that can raise a status (log 14). -/
def raisingMicroOps : List Instr := [.tagvfy, .slookup, .salloc, .sgrow, .stagein]

theorem settle_no_raise {c : Command} {x : Act State} (hx : ∀ e u, x ≠ .raise e u) (h : settle c x = .next t) :
    x = .ok t :=
  (settle_next h).resolve_right fun ⟨e, u, hr, _⟩ => hx e u hr

/-- A micro-operation that cannot raise writes no register. -/
theorem exec_micro_regs {c : Byte} {i : Instr} (hrow : (c, i) ∈ microTable) (hi : i ∉ raisingMicroOps)
    (h : exec i s = .next t) : t.regs = s.regs := by
  cases i with
  | newsession | freesession | process => simp [microTable] at hrow
  | tagvfy | slookup | salloc | sgrow | stagein => exact absurd (by decide) hi
  | ctrfai =>
    have hno : ∀ e u, (ctrFai s.ports.j s).bind
        (fun r => .ok { r.2 with ports := { r.2.ports with cnt := r.1 } }) ≠ .raise e u := fun e u hr => by
      rcases bind_eq_raise hr with hr | ⟨_, _, hr⟩
      · exact ctrFai_no_raise hr
      · cases hr
    obtain ⟨r, hr, hok⟩ := bind_eq_ok (settle_no_raise (c := .process) hno h)
    obtain ⟨_, rfl⟩ := ctrFai_ok hr
    cases hok
    rfl
  | ivderive =>
    obtain ⟨_, hregs, _⟩ := ivDerive_frame (settle_no_raise (c := .process) (fun _ _ => ivDerive_no_raise) h)
    exact hregs
  | wrback =>
    obtain ⟨_, _, rfl⟩ := wrBack_ok (settle_no_raise (c := .process) (fun _ _ => wrBack_no_raise) h)
    rfl
  | _ => cases h; rfl

theorem stepMicro_done {c : Byte} (h : stepMicro c s = .next t) (hd : t.regs.done = true) :
    s.regs.done = true ∨ ∃ i, decodeMicro c = .ok i ∧ i ∈ raisingMicroOps := by
  cases hdec : decodeMicro c with
  | error e => rw [stepMicro_unknown hdec] at h; cases h
  | ok i =>
    rw [stepMicro_known hdec] at h
    by_cases hi : i ∈ raisingMicroOps
    · exact .inr ⟨i, rfl, hi⟩
    · rw [exec_micro_regs (decodeMicro_ok_iff.1 hdec) hi h] at hd
      exact .inl hd

/-! ### The host -/

theorem writeOperand_done {f : Regs → Regs} (hf : (f s.regs).done = s.regs.done) :
    (writeOperand f s).regs.done = s.regs.done := by
  unfold writeOperand
  split
  · rfl
  · exact hf

/-- A write of a register sets DONE at CMD alone, and there when it is not ignored (10 R28, R29). -/
theorem regWrite32_done {off : Nat} {v : BitVec 32} (h : regWrite32 off v s = .next t) (hd : t.regs.done = true) :
    s.regs.done = true ∨ (off = 0x00 ∧ s.regs.busy = false) := by
  by_cases hoff : off = 0x00
  case pos =>
    subst hoff
    cases hb : s.regs.busy with
    | false => exact .inr ⟨rfl, rfl⟩
    | true =>
      obtain ⟨_, _, _, hignored, _⟩ := commandRegister
      cases (hignored s v (.inl hb)).symm.trans h
      exact .inl hd
  refine .inl ?_
  rw [regWrite32, if_neg hoff] at h
  split_ifs at h
  · cases h
    rw [writeStatus_eq] at hd
    exact ((Bool.and_eq_true _ _).mp hd).1
  on_goal 8 => cases h; exact hd
  all_goals
    cases h
    exact (writeOperand_done rfl).symm.trans hd

/-- `hostStore_next` with the offset of the register that a store to the block writes first (10 R35, 20 R63). -/
theorem hostStore_next_offset {addr : Addr} {data : List Byte} (h : hostStore addr data s = .next t) :
    (s.cfg.engineBase ≤ addr.toNat
        ∧ ((∃ v, regWrite32 (addr.toNat - s.cfg.engineBase) v s = .next t)
          ∨ ∃ v v' s1, regWrite32 (addr.toNat - s.cfg.engineBase) v s = .next s1
              ∧ regWrite32 (addr.toNat - s.cfg.engineBase + 4) v' s1 = .next t))
      ∨ memWrite s addr.toNat data = .ok t := by
  have hbase {n : Nat} (ha : alignedInBlock s.cfg addr.toNat n = true) : s.cfg.engineBase ≤ addr.toNat := by
    simp only [alignedInBlock, Bool.and_eq_true, decide_eq_true_eq] at ha
    omega
  unfold hostStore at h
  dsimp only at h
  split at h
  · split at h
    · rename_i h4
      exact .inl ⟨hbase ((Bool.and_eq_true _ _).mp h4).2, .inl ⟨_, h⟩⟩
    · split at h
      · rename_i h8
        split at h
        · rename_i s1 hlow
          exact .inl ⟨hbase ((Bool.and_eq_true _ _).mp h8).2, .inr ⟨_, _, s1, hlow, h⟩⟩
        · cases h
        · cases h
      · cases h
  · split at h
    · cases h
    · cases hw : memWrite s addr.toNat data with
      | ok u => rw [hw] at h; cases h; exact .inr rfl
      | raise e u => exact absurd hw memWrite_no_raise
      | refuse r => rw [hw] at h; cases h

theorem hostStore_done {addr : Addr} {data : List Byte} (h : hostStore addr data s = .next t)
    (hd : t.regs.done = true) :
    s.regs.done = true ∨ (addr = BitVec.ofNat 64 s.cfg.engineBase ∧ s.regs.busy = false) := by
  obtain ⟨hbase, hreg⟩ | hw := hostStore_next_offset h
  · have hcmd (hoff : addr.toNat - s.cfg.engineBase = 0) : addr = BitVec.ofNat 64 s.cfg.engineBase := by
      have haddr : addr.toNat = s.cfg.engineBase := by omega
      rw [← haddr, BitVec.ofNat_toNat, BitVec.setWidth_eq]
    obtain ⟨v, hw⟩ | ⟨v, v', s1, hlow, hhigh⟩ := hreg
    · exact (regWrite32_done hw hd).imp_right fun ⟨hoff, hb⟩ => ⟨hcmd hoff, hb⟩
    · have hd1 : s1.regs.done = true := (regWrite32_done hhigh hd).resolve_right fun ⟨hoff, _⟩ => by omega
      exact (regWrite32_done hlow hd1).imp_right fun ⟨hoff, hb⟩ => ⟨hcmd hoff, hb⟩
  · obtain ⟨_, rfl⟩ := memWrite_ok hw
    exact .inl hd

theorem stepHost_done (h : stepHost s = .next t) (hd : t.regs.done = true) :
    s.regs.done = true
      ∨ (s.regs.busy = false ∧ ∃ data rest, s.inputs = .store (BitVec.ofNat 64 s.cfg.engineBase) data :: rest) := by
  unfold stepHost at h
  split at h
  · cases h; exact .inl hd
  · rename_i i rest hin
    cases i with
    | store addr data =>
      refine (hostStore_done (s := { s with inputs := rest }) h hd).imp_right fun ⟨haddr, hb⟩ => ⟨hb, data, rest, ?_⟩
      rw [hin, haddr]
    | load addr n =>
      rw [hostLoad_frame (s := { s with inputs := rest }) h] at hd
      exact .inl hd
    | reset => cases h; cases hd

end Sys2Proof.Machine
end

section
/-! The statements about completion and the interrupt line (60_exceptions.md), settled. -/

namespace Sys2Proof.Machine

/-- Settles O18: completion sets DONE, the acknowledgement clears it, and a write of CTRL puts IE to its lowest bit. -/
theorem irqLine : Obligations.IrqLine := by
  intro s
  refine ⟨rfl, fun e => ?_, ?_, fun v hv hb => ⟨_, regWrite32_ctrl hb v, ?_⟩⟩
  · simp [irq]
  · simp [irq]
  · show (v.getLsbD 0 && s.regs.done) = false
    rw [hv, Bool.false_and]

/-- Settles O19: the word decodes to one of the three commands or completes at once; a step is one of the host's or one
micro-operation, and each is known to set DONE only where it is said to. -/
theorem commandCompletes : Obligations.CommandCompletes := by
  refine ⟨fun s w hb hd => ?_, fun s t hstep hdone => ?_⟩
  · cases hdec : decodeCommand w with
    | error e => exact .inl ⟨_, regWrite32_cmd_error hb hd hdec, rfl, rfl, id⟩
    | ok i =>
      obtain ⟨_, _, haccepted, _⟩ := commandRegister
      rw [haccepted s w i hb hd hdec]
      obtain ⟨t, ht, hd', hb', hidle⟩ | hrefused := exec_command_completes hdec (setBusy (claim i s))
      · exact .inl ⟨t, ht, hd', hb', fun _ => hidle⟩
      · exact .inr hrefused
  · cases hbus : s.bus with
    | some c =>
      rw [step_code hbus] at hstep
      exact (stepMicro_done hstep hdone).imp_right fun ⟨i, hi, hmem⟩ => .inr ⟨c, i, rfl, hi, hmem⟩
    | none =>
      rw [step, hbus] at hstep
      exact (stepHost_done hstep hdone).imp_right fun hstore => .inl ⟨rfl, hstore⟩

end Sys2Proof.Machine
end

section
/-! SUPPORT. What the first command finds in the session table after reset (70_reset_and_hazards.md R385, R386): no slot
is used. -/

namespace Sys2Proof.Machine

variable {s t : State} {n : Nat} {j cap : BitVec 32}

theorem Act.Yields.of_ok {α : Type} {P : α → Prop} {Q : State → Prop} {x : Act α} {a : α} (hx : x.Yields P Q)
    (h : x = .ok a) : P a := by
  subst h
  exact hx

/-- The slot list is canonical, as a predicate of the two tables (10 R36). -/
def SlotsCanonical (_ : List Host.Cell) (sl : List (Nat × Slot)) : Prop := slotsWf sl = true

theorem slotStable_slotsCanonical : SlotStable SlotsCanonical := fun _ j v hsl => slotsWf_putSlot hsl j v

/-- Steps 2 to 4 of NEWSESSION, where they come to their end, have filled the slot they chose and put its id into SID (45
R250). -/
theorem createSession_ok {tag : Tag} {e : KEntry} (hcfg : s.cfg.wf = true) (hw : slotsWf s.slots = true)
    (h : createSession tag e s = .ok t) :
    ∃ cap, Chosen s t.regs.sid cap ∧ (getSlot t t.regs.sid).used = true := by
  obtain ⟨⟨j, s2⟩, halloc, h⟩ := bind_eq_ok h
  obtain ⟨s3, hlease, h⟩ := bind_eq_ok h
  obtain ⟨s4, hkey, h⟩ := bind_eq_ok h
  obtain ⟨cap, hchosen, _⟩ := salloc_ok hcfg halloc
  have hw2 : TablesMeet SlotsCanonical s2 := (salloc_tables slotStable_slotsCanonical hw).of_ok halloc
  have hw3 : TablesMeet SlotsCanonical s3 := (lease_tables slotStable_slotsCanonical j hw2).of_ok hlease
  obtain ⟨_, _, rfl⟩ := keySetup_ok hkey
  cases h
  exact ⟨cap, hchosen, congrArg Slot.used (getSlot_putSlot_same (s := latchKey tag _ (setCtxActive true s3)) hw3 j _)⟩

theorem newSession_ok (hcfg : s.cfg.wf = true) (hw : slotsWf s.slots = true) (h : newSession n s = .ok t) :
    ∃ cap, Chosen s t.regs.sid cap ∧ (getSlot t t.regs.sid).used = true := by
  obtain ⟨s1, hfetch, h⟩ := bind_eq_ok h
  obtain ⟨_, rfl⟩ : _ ∧ s1 = keyFetched n s := fetchChain_ok hfetch
  split at h
  · cases h
  · exact createSession_ok (s := keyFetched n s) hcfg hw h

/-- While slot 1 is free it is the one chosen, also when the table of capacity 1 has to grow for it (45 R240, R244). -/
theorem Chosen.eq_one (h : Chosen s j cap) (hcap : 1 ≤ s.cap.toNat) (hfree : (slotOf s.slots 1).used = false) :
    j = 1 := by
  have hunused {k : Nat} (hk : 1 < k) (hall : ∀ i, 1 ≤ i → i < k → (slotOf s.slots i).used = true) : False := by
    have hused := hall 1 le_rfl hk
    rw [hfree] at hused
    cases hused
  refine BitVec.eq_of_toNat_eq ?_
  obtain ⟨⟨hj, _, _, hbelow⟩, _⟩ | ⟨hfull, _, rfl, _⟩ := h
  · exact (le_antisymm hj (not_lt.mp fun hlt => hunused hlt hbelow)).symm
  · exact (le_antisymm hcap (not_lt.mp fun hlt => hunused hlt hfull)).symm

/-- A PROCESS on a slot not in use that answers at all posts InvalidArgument (47 R303, R311). -/
theorem exec_process_unused (hused : (sessionOf s).used = false) (h : exec (.process n) s = .next t) :
    t.regs.code = .invalidArgument := by
  cases hok : chainOk s 64 n with
  | true =>
    cases (processInvalid n s hok (.inl (.inr hused))).symm.trans h
    rfl
  | false =>
    obtain ⟨hrefuses, _⟩ := processExhaustedOrRefused n s (decodeD []) (decodeD [])
    rcases hrefuses hok with hr | hr
    · cases hr.symm.trans h
    · cases hr.symm.trans h

/-- With the capacity 1 no id is in range (45 R237). -/
theorem exec_freesession_cap_one (hcap : s.cap.toNat = 1) (h : exec .freesession s = .next t) :
    t.regs.code = .invalidArgument := by
  have hraise : freeSession s = .raise .invalidArgument (setPhase .session s) := by
    rw [freeSession, slookup_outOfRange (s := setPhase .session s) (by rw [setPhase_cap]; omega), bind_raise]
  cases (congrArg (finish .freeSession) hraise).symm.trans h
  rfl

/-- A NEWSESSION that posts Success has come to its normal end: no action raises that status (60 R340). -/
theorem exec_newsession_success (h : exec (.newsession n) s = .next t) (hcode : t.regs.code = .success) :
    ∃ u, newSession n s = .ok u ∧ t = endCommand .newSession u := by
  rcases finish_next (c := .newSession) h with hend | ⟨e, u, hraise, rfl⟩
  · exact hend
  · have hname := newSession_failsByName (s := s) n
    rw [hraise] at hname
    exact absurd hcode (by rw [takeError_regs]; exact hname)

end Sys2Proof.Machine
end

section
/-! The statement about the first command after reset (70_reset_and_hazards.md), settled. -/

namespace Sys2Proof.Machine

/-- Settles O60: the table after reset has no used slot, so PROCESS has no session, FREESESSION at capacity 1 no id in
range, and NEWSESSION chooses slot 1. -/
theorem firstCommandAfterReset : Obligations.FirstCommandAfterReset := by
  intro c r m answers n t hc s
  have hcap : s.cap.toNat = c.initCap ∧ 1 ≤ c.initCap := by
    simp only [Config.wf, Bool.and_eq_true, decide_eq_true_eq] at hc
    refine ⟨?_, by omega⟩
    show (BitVec.ofNat 32 c.initCap).toNat = c.initCap
    rw [BitVec.toNat_ofNat, Nat.mod_eq_of_lt (by omega)]
  refine ⟨exec_process_unused rfl, fun hone => exec_freesession_cap_one (by omega), fun h hcode => ?_⟩
  obtain ⟨u, hnew, rfl⟩ := exec_newsession_success h hcode
  obtain ⟨cap, hchosen, hused⟩ := newSession_ok (s := s) hc rfl hnew
  have hid : u.regs.sid = 1 := hchosen.eq_one (by omega) rfl
  rw [hid] at hused
  rw [endCommand_regs, endCommand_slots]
  exact ⟨hid, hused⟩

end Sys2Proof.Machine
end
